-- ==== Sys2Proof/Word.lean ====
section
/-! DEFINITION. The word types of the engine: bytes, 32-bit words, binary32 bit patterns, packed pixels,
register indices (00_scope R7, R8; 40_canonical_model R80). -/

namespace Sys2Proof

/-- One byte of memory (20_memory R40). -/
abbrev Byte := BitVec 8

/-- A 32-bit word: an address, a length, a host register (10_state R12, R14, R23). -/
abbrev Word := BitVec 32

/-- The bit pattern of an IEEE 754 binary32 value (40_canonical_model R80). -/
abbrev F32 := BitVec 32

/-- A packed-pixel register's width (10_state R10). -/
abbrev Pixel := BitVec 128

/-- One command, as the 128-bit integer `I` of 30_encoding R60. -/
abbrev Command := BitVec 128

/-- A register field of a command: an index 0..15 (30_encoding R62). -/
abbrev RegIdx := BitVec 4

/-- The free words one application of a codec, modifier or blend function may use: slot ↦ word
(`draw(T)` of 00_scope R8). -/
abbrev Draws := Nat → BitVec 32

end Sys2Proof
end

