-- ==== Sys2Proof/Syntax.lean ====
section
/-! DEFINITION. The command set PXE-1.0: one constructor per row of the opcode table (30_encoding R67), and the
enumerations its fields name: formats (41_codec_formats R120), blend modes and composition operators (44_blend R201,
R202). A format, mode or operator field is kept as the bits of the command: an illegal code is an operand of a
legal command word, and the command itself raises the fault (30_encoding R63, R65; 60_exceptions R274 step 3). -/

namespace Sys2Proof

/-- One command. Register operands come first, in field order, then formats, then the rest (30_encoding R71). -/
inductive Instr where
  /-- `END` (46_control_metadata R240) -/
  | endList
  /-- `SPAN Sd, base, len` (42_scalar_codec R160) -/
  | span (sd : RegIdx) (base len : Word)
  /-- `LDP Pd, f, addr` (42_scalar_codec R161) -/
  | ldp (pd : RegIdx) (f : BitVec 8) (addr : Word)
  /-- `STP Ps, f, addr` (42_scalar_codec R162) -/
  | stp (ps : RegIdx) (f : BitVec 8) (addr : Word)
  /-- `LDV Vd, addr` (42_scalar_codec R163) -/
  | ldv (vd : RegIdx) (addr : Word)
  /-- `STV Vs, addr` (42_scalar_codec R164) -/
  | stv (vs : RegIdx) (addr : Word)
  /-- `UNPACK Vd, Ps, f` (42_scalar_codec R165) -/
  | unpack (vd ps : RegIdx) (f : BitVec 8)
  /-- `UNPACKS Vd, Ps, f` (42_scalar_codec R166) -/
  | unpacks (vd ps : RegIdx) (f : BitVec 8)
  /-- `PACK Pd, Vs, f` (42_scalar_codec R167) -/
  | pack (pd vs : RegIdx) (f : BitVec 8)
  /-- `PACKS Pd, Vs, f` (42_scalar_codec R168) -/
  | packs (pd vs : RegIdx) (f : BitVec 8)
  /-- `CVTPX Pd, Ps, fdst, fsrc` (42_scalar_codec R169) -/
  | cvtpx (pd ps : RegIdx) (fdst fsrc : BitVec 8)
  /-- `MKPX Pd, f, rgba` (42_scalar_codec R170) -/
  | mkpx (pd : RegIdx) (f : BitVec 8) (rgba : Word)
  /-- `PARSEHEX Pd, Stext` (42_scalar_codec R171) -/
  | parsehex (pd stext : RegIdx)
  /-- `TOVEC4 Sdst, Ssrc, f, m` (43_bulk R182) -/
  | tovec4 (sdst ssrc : RegIdx) (f : BitVec 8) (m : BitVec 3)
  /-- `FROMVEC4 Sdst, Ssrc, f, m` (43_bulk R183) -/
  | fromvec4 (sdst ssrc : RegIdx) (f : BitVec 8) (m : BitVec 3)
  /-- `CONVERT Sdst, Ssrc, fdst, fsrc` (43_bulk R184) -/
  | convert (sdst ssrc : RegIdx) (fdst fsrc : BitVec 8)
  /-- `PACKPLANES Sdst, Sr, Sg, Sb, f` (43_bulk R185) -/
  | packplanes (sdst sr sg sb : RegIdx) (f : BitVec 8)
  /-- `UNPACKPLANES Ssrc, Sr, Sg, Sb, f` (43_bulk R186) -/
  | unpackplanes (ssrc sr sg sb : RegIdx) (f : BitVec 8)
  /-- `SETBL mode, op` (44_blend R229) -/
  | setbl (mode op : BitVec 4)
  /-- `BLENDPX Vd, Vb, Vs, amount` (44_blend R230) -/
  | blendpx (vd vb vs : RegIdx) (amount : F32)
  /-- `BLEND Sdst, Sbg, Ssrc, fdst, fsrc, amount` (44_blend R231) -/
  | blend (sdst sbg ssrc : RegIdx) (fdst fsrc : BitVec 8) (amount : F32)
  /-- `BLENDA Sdst, Sbg, Ssrc, Samt, fdst, fsrc` (44_blend R232) -/
  | blenda (sdst sbg ssrc samt : RegIdx) (fdst fsrc : BitVec 8)
  /-- `FMTINFO f` (46_control_metadata R241) -/
  | fmtinfo (f : BitVec 8)
  /-- `MKINFO Sprec, bpp` (46_control_metadata R242) -/
  | mkinfo (sprec : RegIdx) (bpp : Word)
  /-- `PXINFO Pd, idx` (46_control_metadata R243) -/
  | pxinfo (pd : RegIdx) (idx : Word)
  /-- `RDCI Pd` (46_control_metadata R244) -/
  | rdci (pd : RegIdx)
  deriving DecidableEq, Repr

/-- The 26 pixel formats, in the order of their ids (41_codec_formats R120). -/
inductive Fmt where
  | a8 | l8 | l16 | la16 | la32 | rgb24 | bgr24 | rgba32 | bgra32 | argb32 | abgr32 | bgr565 | bgra5551
  | bgra4444 | rgba1010102 | rg32 | rgb48 | rgba64 | sn8x2 | sn8x4 | sn16x2 | sn16x4 | h16x1 | h16x2
  | h16x4 | rgbaf32
  deriving DecidableEq, Repr

/-- The nine blend modes, in the order of their codes (44_blend R201). -/
inductive BlendMode where
  | normal | multiply | screen | darken | lighten | overlay | hardLight | add | subtract
  deriving DecidableEq, Repr

/-- The twelve composition operators, in the order of their codes (44_blend R202). -/
inductive CompOp where
  | src | srcOver | srcIn | srcOut | srcAtop | dest | destOver | destIn | destOut | destAtop | xor | clear
  deriving DecidableEq, Repr

end Sys2Proof
end

