-- ==== Sys2Proof/Decode.lean ====
section
/-! DEFINITION. Decoding and encoding of commands (30_encoding R60 to R69), and the byte-order helpers of
20_memory R42. -/

namespace Sys2Proof

/-! ## Byte order (20_memory R42) -/

/-- The unsigned integer whose little-endian bytes are `bs`, lowest address first. -/
def leValue : List Byte → Nat
  | [] => 0
  | b :: bs => b.toNat + 256 * leValue bs

/-- The `n` little-endian bytes of `v`, lowest address first. -/
def leBytes : Nat → Nat → List Byte
  | 0, _ => []
  | n + 1, v => BitVec.ofNat 8 v :: leBytes n (v / 256)

/-! ## The fields of a command (30_encoding R61) -/

/-- The fields of a command, the same in every command (30_encoding R61). -/
structure Fields where
  opcode : BitVec 8 := 0
  ra : BitVec 4 := 0
  rb : BitVec 4 := 0
  rc : BitVec 4 := 0
  rd : BitVec 4 := 0
  mods : BitVec 3 := 0
  z0 : BitVec 5 := 0
  fmt0 : BitVec 8 := 0
  fmt1 : BitVec 8 := 0
  mode : BitVec 4 := 0
  op : BitVec 4 := 0
  z1 : BitVec 8 := 0
  imm0 : BitVec 32 := 0
  imm1 : BitVec 32 := 0
  deriving DecidableEq, Repr

/-- The fields at their bit positions (30_encoding R61). -/
def Fields.ofCommand (c : Command) : Fields where
  opcode := c.extractLsb' 0 8
  ra := c.extractLsb' 8 4
  rb := c.extractLsb' 12 4
  rc := c.extractLsb' 16 4
  rd := c.extractLsb' 20 4
  mods := c.extractLsb' 24 3
  z0 := c.extractLsb' 27 5
  fmt0 := c.extractLsb' 32 8
  fmt1 := c.extractLsb' 40 8
  mode := c.extractLsb' 48 4
  op := c.extractLsb' 52 4
  z1 := c.extractLsb' 56 8
  imm0 := c.extractLsb' 64 32
  imm1 := c.extractLsb' 96 32

/-- The command with these fields, `imm1` the most significant (30_encoding R61). -/
def Fields.toCommand (f : Fields) : Command :=
  f.imm1 ++ f.imm0 ++ f.z1 ++ f.op ++ f.mode ++ f.fmt1 ++ f.fmt0 ++ f.z0 ++ f.mods ++ f.rd ++ f.rc ++ f.rb ++ f.ra
    ++ f.opcode

/-! ## The opcode map (30_encoding R67) -/

/-- Which fields a command uses; every other field must be zero (30_encoding R68). `z0` and `z1` are used by none. -/
structure Uses where
  ra : Bool := false
  rb : Bool := false
  rc : Bool := false
  rd : Bool := false
  mods : Bool := false
  fmt0 : Bool := false
  fmt1 : Bool := false
  mode : Bool := false
  op : Bool := false
  imm0 : Bool := false
  imm1 : Bool := false
  deriving DecidableEq, Repr

/-- Every field that is not used is zero (30_encoding R68). -/
def Uses.admits (u : Uses) (f : Fields) : Bool :=
  f.z0 == 0 && f.z1 == 0 && (u.ra || f.ra == 0) && (u.rb || f.rb == 0) && (u.rc || f.rc == 0) && (u.rd || f.rd == 0)
    && (u.mods || f.mods == 0) && (u.fmt0 || f.fmt0 == 0) && (u.fmt1 || f.fmt1 == 0) && (u.mode || f.mode == 0)
    && (u.op || f.op == 0) && (u.imm0 || f.imm0 == 0) && (u.imm1 || f.imm1 == 0)

/-- The mask of a row: the opcode and every must-be-zero bit (30_encoding R68). -/
def Uses.mask (u : Uses) : Command :=
  let ones (used : Bool) (w : Nat) : BitVec w := if used then 0 else BitVec.allOnes w
  Fields.toCommand {
    opcode := BitVec.allOnes 8, z0 := BitVec.allOnes 5, z1 := BitVec.allOnes 8,
    ra := ones u.ra 4, rb := ones u.rb 4, rc := ones u.rc 4, rd := ones u.rd 4, mods := ones u.mods 3,
    fmt0 := ones u.fmt0 8, fmt1 := ones u.fmt1 8, mode := ones u.mode 4, op := ones u.op 4,
    imm0 := ones u.imm0 32, imm1 := ones u.imm1 32 }

/-- One row of the opcode map (30_encoding R67). -/
structure OpcodeRow where
  opcode : BitVec 8
  uses : Uses
  build : Fields → Instr

/-- The rows of opcodes 0x00 to 0x16 (30_encoding R67). -/
def scalarRows : List OpcodeRow := [
  ⟨0x00, {}, fun _ => .endList⟩,
  ⟨0x01, { ra := true, imm0 := true, imm1 := true }, fun f => .span f.ra f.imm0 f.imm1⟩,
  ⟨0x02, { ra := true, fmt0 := true, imm0 := true }, fun f => .ldp f.ra f.fmt0 f.imm0⟩,
  ⟨0x03, { ra := true, fmt0 := true, imm0 := true }, fun f => .stp f.ra f.fmt0 f.imm0⟩,
  ⟨0x04, { ra := true, imm0 := true }, fun f => .ldv f.ra f.imm0⟩,
  ⟨0x05, { ra := true, imm0 := true }, fun f => .stv f.ra f.imm0⟩,
  ⟨0x10, { ra := true, rb := true, fmt0 := true }, fun f => .unpack f.ra f.rb f.fmt0⟩,
  ⟨0x11, { ra := true, rb := true, fmt0 := true }, fun f => .unpacks f.ra f.rb f.fmt0⟩,
  ⟨0x12, { ra := true, rb := true, fmt0 := true }, fun f => .pack f.ra f.rb f.fmt0⟩,
  ⟨0x13, { ra := true, rb := true, fmt0 := true }, fun f => .packs f.ra f.rb f.fmt0⟩,
  ⟨0x14, { ra := true, rb := true, fmt0 := true, fmt1 := true }, fun f => .cvtpx f.ra f.rb f.fmt0 f.fmt1⟩,
  ⟨0x15, { ra := true, fmt0 := true, imm0 := true }, fun f => .mkpx f.ra f.fmt0 f.imm0⟩,
  ⟨0x16, { ra := true, rb := true }, fun f => .parsehex f.ra f.rb⟩]

/-- The rows of opcodes 0x20 to 0x43 (30_encoding R67). -/
def bulkRows : List OpcodeRow := [
  ⟨0x20, { ra := true, rb := true, mods := true, fmt0 := true }, fun f => .tovec4 f.ra f.rb f.fmt0 f.mods⟩,
  ⟨0x21, { ra := true, rb := true, mods := true, fmt0 := true }, fun f => .fromvec4 f.ra f.rb f.fmt0 f.mods⟩,
  ⟨0x22, { ra := true, rb := true, fmt0 := true, fmt1 := true }, fun f => .convert f.ra f.rb f.fmt0 f.fmt1⟩,
  ⟨0x23, { ra := true, rb := true, rc := true, rd := true, fmt0 := true },
    fun f => .packplanes f.ra f.rb f.rc f.rd f.fmt0⟩,
  ⟨0x24, { ra := true, rb := true, rc := true, rd := true, fmt0 := true },
    fun f => .unpackplanes f.ra f.rb f.rc f.rd f.fmt0⟩,
  ⟨0x30, { mode := true, op := true }, fun f => .setbl f.mode f.op⟩,
  ⟨0x31, { ra := true, rb := true, rc := true, imm0 := true }, fun f => .blendpx f.ra f.rb f.rc f.imm0⟩,
  ⟨0x32, { ra := true, rb := true, rc := true, fmt0 := true, fmt1 := true, imm0 := true },
    fun f => .blend f.ra f.rb f.rc f.fmt0 f.fmt1 f.imm0⟩,
  ⟨0x33, { ra := true, rb := true, rc := true, rd := true, fmt0 := true, fmt1 := true },
    fun f => .blenda f.ra f.rb f.rc f.rd f.fmt0 f.fmt1⟩,
  ⟨0x40, { fmt0 := true }, fun f => .fmtinfo f.fmt0⟩,
  ⟨0x41, { rb := true, imm0 := true }, fun f => .mkinfo f.rb f.imm0⟩,
  ⟨0x42, { ra := true, imm0 := true }, fun f => .pxinfo f.ra f.imm0⟩,
  ⟨0x43, { ra := true }, fun f => .rdci f.ra⟩]

/-- The opcode map (30_encoding R67). -/
def opcodeRows : List OpcodeRow := scalarRows ++ bulkRows

/-! ## Decoding -/

/-- Why a word is no command. Each raises `IllegalInstruction` with W0 as its information (60_exceptions R266). -/
inductive DecodeError where
  /-- the opcode is not one of the 26 (30_encoding R69) -/
  | unknownOpcode (w0 : Word)
  /-- a reserved field, or a field the opcode does not use, is not zero (30_encoding R68) -/
  | nonzeroField (w0 : Word)
  deriving DecidableEq, Repr

/-- The command word W0 of a refused word (60_exceptions R266). -/
def DecodeError.w0 : DecodeError → Word
  | .unknownOpcode w => w
  | .nonzeroField w => w

/-- Word W0 of a command (30_encoding R60). -/
def commandW0 (c : Command) : Word := c.extractLsb' 0 32

/-- The instruction a command word stands for (30_encoding R67 to R69); the opcode is judged before the other fields
(30_encoding R73). -/
def decode (c : Command) : Except DecodeError Instr :=
  let f := Fields.ofCommand c
  match opcodeRows.find? (fun r => r.opcode == f.opcode) with
  | none => .error (.unknownOpcode (commandW0 c))
  | some r => if r.uses.admits f then .ok (r.build f) else .error (.nonzeroField (commandW0 c))

/-- The instruction in sixteen bytes, lowest address first (30_encoding R60). -/
def decodeBytes (bs : List Byte) : Except DecodeError Instr := decode (BitVec.ofNat 128 (leValue bs))

/-- The decoder's reading of `nbits` bits `w`, bit 0 the least significant bit of the first word; the bits above are
zero. The word is laid out as sixteen bytes in the hardware's byte order. -/
def decodeTableWord (nbits w : Nat) : Option Instr :=
  match decodeBytes (leBytes 16 (w % 2 ^ nbits)) with
  | .ok i => some i
  | .error _ => none

/-! ## Encoding -/

/-- The fields of a command (30_encoding R67). -/
def Instr.fields : Instr → Fields
  | .endList => { opcode := 0x00 }
  | .span sd base len => { opcode := 0x01, ra := sd, imm0 := base, imm1 := len }
  | .ldp pd f addr => { opcode := 0x02, ra := pd, fmt0 := f, imm0 := addr }
  | .stp ps f addr => { opcode := 0x03, ra := ps, fmt0 := f, imm0 := addr }
  | .ldv vd addr => { opcode := 0x04, ra := vd, imm0 := addr }
  | .stv vs addr => { opcode := 0x05, ra := vs, imm0 := addr }
  | .unpack vd ps f => { opcode := 0x10, ra := vd, rb := ps, fmt0 := f }
  | .unpacks vd ps f => { opcode := 0x11, ra := vd, rb := ps, fmt0 := f }
  | .pack pd vs f => { opcode := 0x12, ra := pd, rb := vs, fmt0 := f }
  | .packs pd vs f => { opcode := 0x13, ra := pd, rb := vs, fmt0 := f }
  | .cvtpx pd ps fdst fsrc => { opcode := 0x14, ra := pd, rb := ps, fmt0 := fdst, fmt1 := fsrc }
  | .mkpx pd f rgba => { opcode := 0x15, ra := pd, fmt0 := f, imm0 := rgba }
  | .parsehex pd stext => { opcode := 0x16, ra := pd, rb := stext }
  | .tovec4 sdst ssrc f m => { opcode := 0x20, ra := sdst, rb := ssrc, mods := m, fmt0 := f }
  | .fromvec4 sdst ssrc f m => { opcode := 0x21, ra := sdst, rb := ssrc, mods := m, fmt0 := f }
  | .convert sdst ssrc fdst fsrc => { opcode := 0x22, ra := sdst, rb := ssrc, fmt0 := fdst, fmt1 := fsrc }
  | .packplanes sdst sr sg sb f => { opcode := 0x23, ra := sdst, rb := sr, rc := sg, rd := sb, fmt0 := f }
  | .unpackplanes ssrc sr sg sb f => { opcode := 0x24, ra := ssrc, rb := sr, rc := sg, rd := sb, fmt0 := f }
  | .setbl mode op => { opcode := 0x30, mode := mode, op := op }
  | .blendpx vd vb vs amount => { opcode := 0x31, ra := vd, rb := vb, rc := vs, imm0 := amount }
  | .blend sdst sbg ssrc fdst fsrc amount =>
    { opcode := 0x32, ra := sdst, rb := sbg, rc := ssrc, fmt0 := fdst, fmt1 := fsrc, imm0 := amount }
  | .blenda sdst sbg ssrc samt fdst fsrc =>
    { opcode := 0x33, ra := sdst, rb := sbg, rc := ssrc, rd := samt, fmt0 := fdst, fmt1 := fsrc }
  | .fmtinfo f => { opcode := 0x40, fmt0 := f }
  | .mkinfo sprec bpp => { opcode := 0x41, rb := sprec, imm0 := bpp }
  | .pxinfo pd idx => { opcode := 0x42, ra := pd, imm0 := idx }
  | .rdci pd => { opcode := 0x43, ra := pd }

/-- The word of a command (30_encoding R61, R67). -/
def encode (i : Instr) : Command := i.fields.toCommand

/-- The sixteen bytes of a command in memory, lowest address first (30_encoding R60). -/
def encodeBytes (i : Instr) : List Byte := leBytes 16 (encode i).toNat

end Sys2Proof
end

