-- ==== Sys2Proof/Machine/Flags.lean ====
section
/-! DEFINITION. The engine has no condition codes, no status flags and no predicates, and no command writes a flag
(10_state R16): there is no flag computation. The one flag set of the spec is the conversion modifiers, an operand of
`TOVEC4` and `FROMVEC4` (30_encoding R64), read here. -/

namespace Sys2Proof.Machine

/-- A modifier set {Scale, Premultiply, SRgbCompand} (30_encoding R64). -/
structure Modifiers where
  scale : Bool
  premultiply : Bool
  srgb : Bool
  deriving DecidableEq, Repr

/-- The modifier field: bit 0 Scale, bit 1 Premultiply, bit 2 SRgbCompand (30_encoding R64). -/
def Modifiers.ofField (m : BitVec 3) : Modifiers :=
  { scale := m.getLsbD 0, premultiply := m.getLsbD 1, srgb := m.getLsbD 2 }

/-- The effective set: SRgbCompand brings Scale with it (40_canonical_model R99). -/
def Modifiers.effective (m : Modifiers) : Modifiers := { m with scale := m.scale || m.srgb }

end Sys2Proof.Machine
end

