-- ==== Sys2Proof/Machine/Float.lean ====
section
/-! DEFINITION. IEEE 754 binary32 arithmetic as the engine does it: one correctly rounded operation at a time,
to nearest with ties to even, subnormals kept, no flags and no traps (40_canonical_model R80 to R88), and the
conversions to and from binary16 (R96). Operands become exact integers times a power of two; the one rounding
is `roundPattern`. -/

namespace Sys2Proof.Machine

/-! ## Patterns -/

/-- `+0`. -/
def F32.zero : F32 := 0x00000000
/-- `1.0`. -/
def F32.one : F32 := 0x3F800000
/-- `2.0`. -/
def F32.two : F32 := 0x40000000
/-- `0.5`. -/
def F32.half : F32 := 0x3F000000
/-- `-1.0`. -/
def F32.negOne : F32 := 0xBF800000
/-- The NaN an invalid operation gives (40_canonical_model R81). Its payload reaches no register and no memory: a
component that is a NaN becomes a free value before it is written (R87; log 6). -/
def F32.nan : F32 := 0x7FC00000

/-- The sign bit. -/
def F32.sign (x : F32) : Bool := x.getLsbD 31
/-- The biased exponent. -/
def F32.expField (x : F32) : Nat := x.toNat / 2 ^ 23 % 2 ^ 8
/-- The fraction field. -/
def F32.fraction (x : F32) : Nat := x.toNat % 2 ^ 23
/-- The magnitude: the pattern without its sign. -/
def F32.magnitude (x : F32) : Nat := x.toNat % 2 ^ 31

/-- A NaN (40_canonical_model R80). -/
def F32.isNaN (x : F32) : Bool := F32.magnitude x > 0x7F800000
/-- An infinity. -/
def F32.isInf (x : F32) : Bool := F32.magnitude x == 0x7F800000
/-- `+0` or `-0`. -/
def F32.isZero (x : F32) : Bool := F32.magnitude x == 0

/-- The pattern with a sign and a magnitude. -/
def F32.ofMagnitude (neg : Bool) (mag : Nat) : F32 := BitVec.ofNat 32 ((if neg then 2 ^ 31 else 0) + mag % 2 ^ 31)
/-- The operand of the opposite sign. -/
def F32.neg (x : F32) : F32 := x ^^^ 0x80000000#32

/-- The integer significand of a finite value: its magnitude is `significand * 2 ^ exponent`. -/
def F32.significand (x : F32) : Nat := if F32.expField x = 0 then F32.fraction x else F32.fraction x + 2 ^ 23
/-- The exponent of the significand's last bit. -/
def F32.exponent (x : F32) : Int := if F32.expField x = 0 then -149 else (F32.expField x : Int) - 150
/-- The significand with the value's sign. -/
def F32.signedSignificand (x : F32) : Int := if F32.sign x then -(F32.significand x : Int) else F32.significand x

/-! ## Rounding -/

/-- `m / 2 ^ k` to the nearest integer, ties to even (40_canonical_model R81). -/
def shiftRightEven (m k : Nat) : Nat :=
  let n := m / 2 ^ k
  let twiceRest := 2 * (m % 2 ^ k)
  if twiceRest > 2 ^ k ∨ (twiceRest = 2 ^ k ∧ n % 2 = 1) then n + 1 else n

/-- The magnitude pattern of `m * 2 ^ e` rounded to nearest, ties to even, in the binary format of precision `p`
whose least subnormal is `2 ^ emin` and whose infinity has the pattern `inf`; gradual underflow, overflow to infinity
(40_canonical_model R81, R96). -/
def roundPattern (p : Nat) (emin : Int) (inf m : Nat) (e : Int) : Nat :=
  if m = 0 then 0 else
  let q := max emin ((Nat.log2 m : Int) + e - ((p : Int) - 1))
  let n := if q ≤ e then m * 2 ^ (e - q).toNat else shiftRightEven m (q - e).toNat
  min ((q - emin).toNat * 2 ^ (p - 1) + n) inf

/-- The binary32 nearest to `± m * 2 ^ e` (40_canonical_model R81). -/
def F32.round (neg : Bool) (m : Nat) (e : Int) : F32 := F32.ofMagnitude neg (roundPattern 24 (-149) 0x7F800000 m e)

/-! ## The primitives (40_canonical_model R82 to R86) -/

/-- `fadd` (40_canonical_model R82). -/
def fadd (a b : F32) : F32 :=
  if F32.isNaN a || F32.isNaN b then F32.nan
  else if F32.isInf a then (if F32.isInf b && F32.sign a != F32.sign b then F32.nan else a)
  else if F32.isInf b then b
  else
    let e := min (F32.exponent a) (F32.exponent b)
    let sum := F32.signedSignificand a * 2 ^ (F32.exponent a - e).toNat
      + F32.signedSignificand b * 2 ^ (F32.exponent b - e).toNat
    if sum = 0 then F32.ofMagnitude (F32.sign a && F32.sign b) 0 else F32.round (sum < 0) sum.natAbs e

/-- `fsub` (40_canonical_model R82). -/
def fsub (a b : F32) : F32 := fadd a (F32.neg b)

/-- `fmul` (40_canonical_model R82). -/
def fmul (a b : F32) : F32 :=
  let neg := F32.sign a != F32.sign b
  if F32.isNaN a || F32.isNaN b then F32.nan
  else if F32.isInf a || F32.isInf b then
    (if F32.isZero a || F32.isZero b then F32.nan else F32.ofMagnitude neg 0x7F800000)
  else F32.round neg (F32.significand a * F32.significand b) (F32.exponent a + F32.exponent b)

/-- `fdiv` (40_canonical_model R82). The quotient is taken to 64 bits below the divisor's and one sticky bit, which
rounds as the exact quotient does. -/
def fdiv (a b : F32) : F32 :=
  let neg := F32.sign a != F32.sign b
  if F32.isNaN a || F32.isNaN b then F32.nan
  else if F32.isInf a then (if F32.isInf b then F32.nan else F32.ofMagnitude neg 0x7F800000)
  else if F32.isInf b then F32.ofMagnitude neg 0
  else if F32.isZero b then (if F32.isZero a then F32.nan else F32.ofMagnitude neg 0x7F800000)
  else
    let n := F32.significand a * 2 ^ 64
    let sticky := if n % F32.significand b = 0 then 0 else 1
    F32.round neg (2 * (n / F32.significand b) + sticky) (F32.exponent a - F32.exponent b - 65)

/-- The order of the values that are not NaN: a strictly rising integer, the same for both zeros. -/
def F32.order (x : F32) : Int := if F32.sign x then -(F32.magnitude x : Int) else F32.magnitude x

/-- `a < b` (40_canonical_model R83). -/
def F32.lt (a b : F32) : Bool := !F32.isNaN a && !F32.isNaN b && F32.order a < F32.order b
/-- `a <= b`, exact (44_blend R208). -/
def F32.le (a b : F32) : Bool := !F32.isNaN a && !F32.isNaN b && F32.order a ≤ F32.order b

/-- `fmin`: `a` if `a < b`, else `b`; a NaN operand gives a NaN, which becomes a free value where it is written
(40_canonical_model R83, R87; log 6). -/
def fmin (a b : F32) : F32 := if F32.isNaN a || F32.isNaN b then F32.nan else if F32.lt a b then a else b

/-- `fmax`: `a` if `a > b`, else `b`; a NaN as in `fmin` (40_canonical_model R83, R87; log 6). -/
def fmax (a b : F32) : F32 := if F32.isNaN a || F32.isNaN b then F32.nan else if F32.lt b a then a else b

/-- `clamp(v, lo, hi)` (40_canonical_model R84). -/
def fclamp (v lo hi : F32) : F32 := fmin (fmax v lo) hi

/-- The magnitude of `round_haz` of a finite value: `floor(|x| + 1/2)` exactly (40_canonical_model R85). -/
def roundHazMagnitude (x : F32) : Nat :=
  if 0 ≤ F32.exponent x then F32.significand x * 2 ^ (F32.exponent x).toNat
  else (2 * F32.significand x + 2 ^ (-F32.exponent x).toNat) / 2 ^ ((-F32.exponent x).toNat + 1)

/-- `round_haz`: the nearest integer, ties away from zero (40_canonical_model R85). -/
def roundHaz (x : F32) : Int := if F32.sign x then -(roundHazMagnitude x : Int) else (roundHazMagnitude x : Int)

/-- `i2f` (40_canonical_model R86). -/
def i2f (n : Int) : F32 := F32.round (n < 0) n.natAbs 0

/-! ## Binary16 (40_canonical_model R96) -/

/-- `to_binary16_RNE` of a finite value (40_canonical_model R96). -/
def toBinary16 (x : F32) : BitVec 16 :=
  BitVec.ofNat 16 ((if F32.sign x then 2 ^ 15 else 0)
    + roundPattern 11 (-24) 0x7C00 (F32.significand x) (F32.exponent x))

/-- The pattern is a NaN of binary16. -/
def isNaN16 (h : BitVec 16) : Bool := h.toNat % 2 ^ 15 > 0x7C00

/-- The binary32 equal to a binary16 that is not a NaN (40_canonical_model R96). -/
def ofBinary16 (h : BitVec 16) : F32 :=
  let neg := h.getLsbD 15
  let mag := h.toNat % 2 ^ 15
  let ex : Nat := mag / 2 ^ 10
  if ex = 31 then F32.ofMagnitude neg 0x7F800000
  else if ex = 0 then F32.round neg mag (-24)
  else F32.round neg (mag % 2 ^ 10 + 2 ^ 10) ((ex : Int) - 25)

end Sys2Proof.Machine
end

