-- ==== Sys2Proof/Config.lean ====
section
/-! DEFINITION. What the spec leaves open: the parameters marked OPEN in 00_scope R6 and the values no rule
fixes (`draw`, 00_scope R8; 93_implementation_defined part 1). Every one is an opaque constant without a body, so
that nothing can be proved of its value beyond its type. `MEM_VALID` is a field of State (log 3). -/

namespace Sys2Proof

/-- Which use of a free word a draw stands for; two uses never share a word (log 4). -/
inductive DrawStage where
  /-- unpacking a pixel, or the backdrop of a blend -/
  | unpack
  /-- unpacking the source of a blend -/
  | unpackSource
  /-- a modifier or a blend -/
  | arith
  /-- packing a pixel -/
  | pack
  /-- a byte of the span `FROMVEC4` destroys -/
  | destroy
  deriving DecidableEq, Repr

/-- DESIGN CHOICE (log 4). The free word of: the count of commands completed before this one, the use, the element
of a bulk command, the component or channel (00_scope R8). -/
opaque Config.freeWord : Nat → DrawStage → Nat → Nat → BitVec 32

/-- DESIGN CHOICE (log 2). What a byte of memory that nothing has written holds: unspecified (70_reset R291; 93 G9). -/
opaque Config.unwrittenByte : Nat → Byte

/-- DESIGN CHOICE (log 5). What the 32 bits of `cp` show once the command at 0xFFFFFFF0 has completed (10_state R15). -/
opaque Config.cpBeyondTop : Word

/-- DESIGN CHOICE (log 11). Whether a command abandoned by a reset had begun to write its elements: the number of the
command (70_reset R290; 43_bulk R180). -/
opaque Config.abandonedBegun : Nat → Bool

/-- DESIGN CHOICE (log 11). Which bits of `OPS_READY` an abandoned command had set where it had written no element yet:
the number of the command (43_bulk R180, R181). -/
opaque Config.abandonedTouched : Nat → Word

/-- DESIGN CHOICE (log 11). Whether a byte that a command abandoned by a reset was writing has its new value: the
number of the command, the address (70_reset R290; 93 G10). -/
opaque Config.abandonedByteIsNew : Nat → Nat → Bool

/-- `HOST_BASE` (00_scope R6, OPEN): where the host sees the register block (log 10). -/
opaque Config.hostBase : Nat

/-- How many binary32 patterns lie from +0 to 1.0: 0x00000000 to 0x3F800000. -/
abbrev unitPatterns : Nat := 0x3F800001

/-- The value of `srgb_expand` on the arguments from +0 to 1.0, by its non-negative pattern: any monotone function with
0 ↦ 0 and 1 ↦ 1, which is what P2 and P3 of 40_canonical_model R100 say and all they say of the value (log 9). A value
of zero has a sign of its own, `Config.srgbExpandZeroIsNeg`. -/
opaque Config.srgbExpandUnit : BoundedOrderHom (Fin unitPatterns) (Fin unitPatterns)

/-- The value of `srgb_compress` on the arguments from +0 to 1.0, as `srgbExpandUnit` (40_canonical_model R100; log 9). -/
opaque Config.srgbCompressUnit : BoundedOrderHom (Fin unitPatterns) (Fin unitPatterns)

/-- `srgb_expand` outside [0,1]: nothing is assumed but P1 of 40_canonical_model R100 (log 9). -/
opaque Config.srgbExpandOutside : F32 → F32

/-- `srgb_compress` outside [0,1], as `srgbExpandOutside` (log 9). -/
opaque Config.srgbCompressOutside : F32 → F32

/-- Whether `srgb_expand` gives -0 where its value at an argument from -0 to 1.0 is zero: P2 and P3 fix the value and
not the sign, and P1 lets the sign depend on the argument alone (log 9). -/
opaque Config.srgbExpandZeroIsNeg : F32 → Bool

/-- As `srgbExpandZeroIsNeg`, of `srgb_compress` (log 9). -/
opaque Config.srgbCompressZeroIsNeg : F32 → Bool

end Sys2Proof
end

