-- ==== Sys2Proof/Machine/State.lean ====
section
/-! DEFINITION. The state of the engine as plain data, everything 10_state gives it, and its value at reset. -/

namespace Sys2Proof.Machine

/-! ## The kinds of values the state holds -/

/-- A register of the P, V or S file: *unwritten* after reset, then the value a command wrote (10_state R13). -/
inductive RegState (α : Type) where
  /-- not written since reset; a command that reads it raises `UnwrittenRegister` -/
  | unwritten
  /-- written with this value -/
  | holds (v : α)
  deriving DecidableEq, Repr

/-- A vector register's value: four binary32 components (10_state R11; 00_scope R9). -/
structure Vec4 where
  x : F32
  y : F32
  z : F32
  w : F32
  deriving DecidableEq, Repr

/-- A span register's value: a byte address and a count of elements (10_state R12). -/
structure Span where
  base : Word
  len : Word
  deriving DecidableEq, Repr

/-- `STATUS.state` (10_state R17). -/
inductive EngineState where
  /-- reset, never started (0) -/
  | idle
  /-- executing commands (1) -/
  | run
  /-- an `END` command completed (2) -/
  | halted
  /-- a fault was taken (3) -/
  | fault
  deriving DecidableEq, Repr

/-- The faults the engine takes, and "no fault has been taken" (60_exceptions R260). -/
inductive FaultCode where
  | noFault
  | fetchFault
  | illegalInstruction
  | invalidFormat
  | invalidBlender
  | unwrittenRegister
  | lengthMismatch
  | spanOverlap
  | accessFault
  | malformedHex
  | infoIndexRange
  | infoInvalid
  deriving DecidableEq, Repr

/-- `BLENDER`: one blend mode and one operator, never an illegal code (10_state R19; 44_blend R200). -/
structure Blender where
  mode : BlendMode
  op : CompOp
  deriving DecidableEq, Repr

/-- The component-info register `CI` (10_state R21). -/
structure CompInfo where
  count : BitVec 8
  bpp : BitVec 16
  padding : BitVec 16
  prec : Vector (BitVec 8) 16
  deriving DecidableEq, Repr

/-- A range of byte addresses the platform backs with memory (20_memory R41). -/
structure Region where
  base : Nat
  size : Nat
  deriving DecidableEq, Repr

/-! ## The state -/

/-- The state of one engine with its memory. -/
structure State where
  /-- `P0..P15` (10_state R10) -/
  pregs : Vector (RegState Pixel) 16
  /-- `V0..V15` (10_state R11) -/
  vregs : Vector (RegState Vec4) 16
  /-- `S0..S15` (10_state R12) -/
  sregs : Vector (RegState Span) 16
  /-- the command pointer (10_state R14) -/
  cp : Word
  /-- the model's own: `cp + 16` has left the address space (10_state R15; log 5) -/
  cpPastTop : Bool
  /-- `STATUS.state` (10_state R17) -/
  status : EngineState
  /-- `FAULT_CODE` (10_state R18) -/
  faultCode : FaultCode
  /-- `FAULT_CP` (10_state R18) -/
  faultCp : Word
  /-- `FAULT_INFO` (10_state R18) -/
  faultInfo : Word
  /-- `BLENDER` (10_state R19) -/
  blender : Blender
  /-- `OPS_READY` (10_state R20) -/
  opsReady : Word
  /-- `CI` (10_state R21) -/
  ci : CompInfo
  /-- the data memory: the bytes written so far, addresses strictly rising (20_memory R40; log 2) -/
  mem : List Host.Cell
  /-- the model's own: the parameter `MEM_VALID`, fixed by the platform (20_memory R41; log 3) -/
  memValid : List Region
  /-- the model's own: commands completed, the key of the next free values (00_scope R8; log 4) -/
  draws : Nat
  deriving DecidableEq, Repr

/-! ## How a step can stop without a next state -/

/-- Stops with a fault of the model's own: there is none. Every fault of 60_exceptions is taken by the engine, which is
a next state (R262), and a host access that breaks the partition is checked by nothing (20_memory R53; 70_reset R301). -/
inductive Fault where
  deriving DecidableEq, Repr

/-- What the model gives no meaning. -/
inductive Refusal where
  /-- An instruction without a meaning in this model; raised by no arm of `exec`. Safe. -/
  | notModelled (mnemonic : String)
  /-- A host access the spec puts outside its domain: an offset the register map does not list, a write to a
  read-only register, memory outside `MEM_VALID` (93 G11). Raised by the host operations; safe (log 13). -/
  | hostAccess (address : Nat)
  deriving DecidableEq, Repr

/-! ## Reset values (10_state R29; 70_reset R290) -/

/-- `CI` after reset: a descriptor of no components and no bits (10_state R21). -/
def CompInfo.empty : CompInfo := { count := 0, bpp := 0, padding := 0, prec := Vector.replicate 16 0 }

/-- `BLENDER` after reset: Normal and SrcOver (10_state R19). -/
def Blender.reset : Blender := { mode := .normal, op := .srcOver }

/-- The engine right after the platform's reset, with memory nothing has written (10_state R29; 70_reset R290, R291).
DESIGN CHOICE: `memValid` (log 3), `draws` (log 4), `cpPastTop` (log 5). -/
def State.reset : State where
  pregs := Vector.replicate 16 .unwritten
  vregs := Vector.replicate 16 .unwritten
  sregs := Vector.replicate 16 .unwritten
  cp := 0
  cpPastTop := false
  status := .idle
  faultCode := .noFault
  faultCp := 0
  faultInfo := 0
  blender := Blender.reset
  opsReady := 0
  ci := CompInfo.empty
  mem := []
  memValid := [{ base := 0, size := 2 ^ 32 }]
  draws := 0

end Sys2Proof.Machine
end

