-- ==== Sys2Proof/Machine/Formats.lean ====
section
/-! DEFINITION. The 26 pixel formats and their codecs: the format table (41_codec_formats R120, R123), the field laws
(40_canonical_model R93 to R98), the native and scaled flavours (R106; 41 R121, R122) and the conversion modifiers
(40 R99 to R103). Every function is pure; the free words it may use for a NaN are an argument (R87, R105). -/

namespace Sys2Proof.Machine

/-! ## The format table (41_codec_formats R120, R123) -/

/-- What a field carries: red, green, blue, alpha, or luminance (41_codec_formats R120). -/
inductive Channel where
  | red | green | blue | alpha | luma
  deriving DecidableEq, Repr

/-- The law of a field (40_canonical_model R94 to R98). -/
inductive FieldKind where
  /-- U: unsigned fixed-point (R94) -/
  | unsigned
  /-- S: signed normalised (R95) -/
  | signed
  /-- H: half precision (R96) -/
  | half
  /-- F: binary32 (R97) -/
  | float
  /-- L: luminance (R98) -/
  | luminance
  deriving DecidableEq, Repr

/-- A field `C[hi:lo]kind` of a packed value, `hi = lo + width - 1` (41_codec_formats R120). -/
structure Field where
  channel : Channel
  lo : Nat
  width : Nat
  kind : FieldKind
  deriving DecidableEq, Repr

/-- The channel's place among x, y, z, w and luminance: the slot of its free word. -/
def Channel.slot : Channel → Nat
  | .red => 0
  | .green => 1
  | .blue => 2
  | .alpha => 3
  | .luma => 4

/-- Fields of one kind laid side by side from bit `lo` up. -/
def layFields (kind : FieldKind) : Nat → List (Channel × Nat) → List Field
  | _, [] => []
  | lo, (c, w) :: rest => { channel := c, lo := lo, width := w, kind := kind } :: layFields kind (lo + w) rest

/-- The fields of a format, least significant first (41_codec_formats R120, R124 to R149). -/
def Fmt.fields : Fmt → List Field
  | .a8 => layFields .unsigned 0 [(.alpha, 8)]
  | .l8 => layFields .luminance 0 [(.luma, 8)]
  | .l16 => layFields .luminance 0 [(.luma, 16)]
  | .la16 => layFields .luminance 0 [(.luma, 8)] ++ layFields .unsigned 8 [(.alpha, 8)]
  | .la32 => layFields .luminance 0 [(.luma, 16)] ++ layFields .unsigned 16 [(.alpha, 16)]
  | .rgb24 => layFields .unsigned 0 [(.red, 8), (.green, 8), (.blue, 8)]
  | .bgr24 => layFields .unsigned 0 [(.blue, 8), (.green, 8), (.red, 8)]
  | .rgba32 => layFields .unsigned 0 [(.red, 8), (.green, 8), (.blue, 8), (.alpha, 8)]
  | .bgra32 => layFields .unsigned 0 [(.blue, 8), (.green, 8), (.red, 8), (.alpha, 8)]
  | .argb32 => layFields .unsigned 0 [(.alpha, 8), (.red, 8), (.green, 8), (.blue, 8)]
  | .abgr32 => layFields .unsigned 0 [(.alpha, 8), (.blue, 8), (.green, 8), (.red, 8)]
  | .bgr565 => layFields .unsigned 0 [(.blue, 5), (.green, 6), (.red, 5)]
  | .bgra5551 => layFields .unsigned 0 [(.blue, 5), (.green, 5), (.red, 5), (.alpha, 1)]
  | .bgra4444 => layFields .unsigned 0 [(.blue, 4), (.green, 4), (.red, 4), (.alpha, 4)]
  | .rgba1010102 => layFields .unsigned 0 [(.red, 10), (.green, 10), (.blue, 10), (.alpha, 2)]
  | .rg32 => layFields .unsigned 0 [(.red, 16), (.green, 16)]
  | .rgb48 => layFields .unsigned 0 [(.red, 16), (.green, 16), (.blue, 16)]
  | .rgba64 => layFields .unsigned 0 [(.red, 16), (.green, 16), (.blue, 16), (.alpha, 16)]
  | .sn8x2 => layFields .signed 0 [(.red, 8), (.green, 8)]
  | .sn8x4 => layFields .signed 0 [(.red, 8), (.green, 8), (.blue, 8), (.alpha, 8)]
  | .sn16x2 => layFields .signed 0 [(.red, 16), (.green, 16)]
  | .sn16x4 => layFields .signed 0 [(.red, 16), (.green, 16), (.blue, 16), (.alpha, 16)]
  | .h16x1 => layFields .half 0 [(.red, 16)]
  | .h16x2 => layFields .half 0 [(.red, 16), (.green, 16)]
  | .h16x4 => layFields .half 0 [(.red, 16), (.green, 16), (.blue, 16), (.alpha, 16)]
  | .rgbaf32 => layFields .float 0 [(.red, 32), (.green, 32), (.blue, 32), (.alpha, 32)]

/-- The size of a packed value in bytes, `bytes(f)` (41_codec_formats R120). -/
def Fmt.bytes : Fmt → Nat
  | .a8 | .l8 => 1
  | .l16 | .la16 | .bgr565 | .bgra5551 | .bgra4444 | .sn8x2 | .h16x1 => 2
  | .rgb24 | .bgr24 => 3
  | .la32 | .rgba32 | .bgra32 | .argb32 | .abgr32 | .rgba1010102 | .rg32 | .sn8x4 | .sn16x2 | .h16x2 => 4
  | .rgb48 => 6
  | .rgba64 | .sn16x4 | .h16x4 => 8
  | .rgbaf32 => 16

/-- The size of a packed value in bits (41_codec_formats R120). -/
def Fmt.bits (f : Fmt) : Nat := 8 * Fmt.bytes f

/-- The formats in the order of their ids (41_codec_formats R120). -/
def allFormats : List Fmt := [
  .a8, .l8, .l16, .la16, .la32, .rgb24, .bgr24, .rgba32, .bgra32, .argb32, .abgr32, .bgr565, .bgra5551, .bgra4444,
  .rgba1010102, .rg32, .rgb48, .rgba64, .sn8x2, .sn8x4, .sn16x2, .sn16x4, .h16x1, .h16x2, .h16x4, .rgbaf32]

/-- The format with an id, none for 26 and above (41_codec_formats R120, R150). -/
def Fmt.ofId? (f : BitVec 8) : Option Fmt := allFormats[f.toNat]?

/-- The id of a format (41_codec_formats R120). -/
def Fmt.id : Fmt → Nat
  | .a8 => 0 | .l8 => 1 | .l16 => 2 | .la16 => 3 | .la32 => 4 | .rgb24 => 5 | .bgr24 => 6 | .rgba32 => 7
  | .bgra32 => 8 | .argb32 => 9 | .abgr32 => 10 | .bgr565 => 11 | .bgra5551 => 12 | .bgra4444 => 13
  | .rgba1010102 => 14 | .rg32 => 15 | .rgb48 => 16 | .rgba64 => 17 | .sn8x2 => 18 | .sn8x4 => 19 | .sn16x2 => 20
  | .sn16x4 => 21 | .h16x1 => 22 | .h16x2 => 23 | .h16x4 => 24 | .rgbaf32 => 25

/-- The fields of the format are of kind S, so that its scaled flavour differs from the native one
(40_canonical_model R106 case b). -/
def Fmt.isSigned : Fmt → Bool
  | .sn8x2 | .sn8x4 | .sn16x2 | .sn16x4 => true
  | .a8 | .l8 | .l16 | .la16 | .la32 | .rgb24 | .bgr24 | .rgba32 | .bgra32 | .argb32 | .abgr32 | .bgr565
  | .bgra5551 | .bgra4444 | .rgba1010102 | .rg32 | .rgb48 | .rgba64 | .h16x1 | .h16x2 | .h16x4 | .rgbaf32 => false

/-- The component info of a format: padding 0, precisions least significant field first (41_codec_formats R123). -/
def Fmt.info (f : Fmt) : CompInfo where
  count := BitVec.ofNat 8 (Fmt.fields f).length
  bpp := BitVec.ofNat 16 (Fmt.bits f)
  padding := 0
  prec := Vector.ofFn fun i => (((Fmt.fields f)[i.val]?).map fun fld => BitVec.ofNat 8 fld.width).getD 0

/-! ## Free values (40_canonical_model R87, R96; logs 6 and 7) -/

/-- Any binary32 NaN: the sign and the payload of the free word (40_canonical_model R96; log 7). -/
def drawNaN (u : BitVec 32) : F32 :=
  F32.ofMagnitude (F32.sign u) (0x7F800000 + (if F32.fraction u = 0 then 1 else F32.fraction u))

/-- Any legal code of a signed field of `w` bits, from `-M` to `M` (40_canonical_model R87; log 6). -/
def drawSignedCode (w : Nat) (u : BitVec 32) : BitVec w :=
  BitVec.ofInt w ((u.toNat % (2 * (2 ^ (w - 1) - 1) + 1) : Nat) - (2 ^ (w - 1) - 1 : Nat))

/-! ## Field laws (40_canonical_model R94 to R98) -/

/-- `unpack_U` (40_canonical_model R94). -/
def unpackU {w : Nat} (raw : BitVec w) : F32 := fdiv (i2f raw.toNat) (i2f (2 ^ w - 1 : Nat))

/-- `pack_U`; a NaN gives any code (40_canonical_model R87, R94). -/
def packU (u : BitVec 32) (v : F32) (w : Nat) : BitVec w :=
  if F32.isNaN v then u.setWidth w
  else BitVec.ofInt w (roundHaz (fmul (fclamp v F32.zero F32.one) (i2f (2 ^ w - 1 : Nat))))

/-- `unpack_S` (40_canonical_model R95). -/
def unpackS {w : Nat} (raw : BitVec w) : F32 := fdiv (i2f raw.toInt) (i2f (2 ^ (w - 1) - 1 : Nat))

/-- `pack_S`; a NaN gives any legal code (40_canonical_model R87, R95). -/
def packS (u : BitVec 32) (v : F32) (w : Nat) : BitVec w :=
  if F32.isNaN v then drawSignedCode w u
  else BitVec.ofInt w (roundHaz (fmul (fclamp v F32.negOne F32.one) (i2f (2 ^ (w - 1) - 1 : Nat))))

/-- 65504, the largest finite half (40_canonical_model R96). -/
def halfMax : F32 := 0x477FE000
/-- -65504. -/
def halfMin : F32 := 0xC77FE000

/-- `unpack_H`; a NaN pattern gives any NaN (40_canonical_model R96). -/
def unpackH (u : BitVec 32) (raw : BitVec 16) : F32 := if isNaN16 raw then drawNaN u else ofBinary16 raw

/-- `pack_H`; a NaN gives any pattern (40_canonical_model R87, R96). -/
def packH (u : BitVec 32) (v : F32) : BitVec 16 :=
  if F32.isNaN v then u.setWidth 16 else toBinary16 (fclamp v halfMin halfMax)

/-- The luma coefficients, nearest binary32 (40_canonical_model R98). -/
def lumaRed : F32 := 0x3E59B3D0
/-- The green coefficient (40_canonical_model R98). -/
def lumaGreen : F32 := 0x3F371759
/-- The blue coefficient (40_canonical_model R98). -/
def lumaBlue : F32 := 0x3D93DD98

/-- `luma(r, g, b)` (40_canonical_model R98). -/
def luma (r g b : F32) : F32 :=
  fadd (fadd (fmul lumaRed (fclamp r F32.zero F32.one)) (fmul lumaGreen (fclamp g F32.zero F32.one)))
    (fmul lumaBlue (fclamp b F32.zero F32.one))

/-- `pack_L`; a NaN among the three gives any code (40_canonical_model R87, R98). -/
def packL (u : BitVec 32) (r g b : F32) (w : Nat) : BitVec w :=
  if F32.isNaN r || F32.isNaN g || F32.isNaN b then u.setWidth w else packU u (luma r g b) w

/-! ## The generic codec (41_codec_formats R121, R122) -/

/-- The component a channel is kept in; luminance reads as red, it stands for x, y and z alike. -/
def Vec4.component (v : Vec4) : Channel → F32
  | .red => v.x
  | .green => v.y
  | .blue => v.z
  | .alpha => v.w
  | .luma => v.x

/-- Write a channel's component, luminance to x, y and z (41_codec_formats R121). -/
def Vec4.setComponent (v : Vec4) (c : Channel) (x : F32) : Vec4 :=
  match c with
  | .red => { v with x := x }
  | .green => { v with y := x }
  | .blue => { v with z := x }
  | .alpha => { v with w := x }
  | .luma => { v with x := x, y := x, z := x }

/-- The value of one field of a packed value (41_codec_formats R121). -/
def unpackField (d : Draws) (p : Pixel) (fld : Field) : F32 :=
  match fld.kind with
  | .unsigned => unpackU (p.extractLsb' fld.lo fld.width)
  | .luminance => unpackU (p.extractLsb' fld.lo fld.width)
  | .signed => unpackS (p.extractLsb' fld.lo fld.width)
  | .half => unpackH (d fld.channel.slot) (p.extractLsb' fld.lo 16)
  | .float => p.extractLsb' fld.lo 32

/-- The code of one field for a vector, placed at the field's position (41_codec_formats R122). -/
def packField (d : Draws) (v : Vec4) (fld : Field) : Pixel :=
  let raw : Pixel := match fld.kind with
    | .unsigned => (packU (d fld.channel.slot) (v.component fld.channel) fld.width).setWidth 128
    | .luminance => (packL (d fld.channel.slot) v.x v.y v.z fld.width).setWidth 128
    | .signed => (packS (d fld.channel.slot) (v.component fld.channel) fld.width).setWidth 128
    | .half => (packH (d fld.channel.slot) (v.component fld.channel)).setWidth 128
    | .float => (v.component fld.channel).setWidth 128
  raw <<< fld.lo

/-- What a component without a field unpacks to: colour 0, alpha 1 (40_canonical_model R93; 41 R121). -/
def Vec4.absent : Vec4 := { x := F32.zero, y := F32.zero, z := F32.zero, w := F32.one }

/-- `to_canonical(f, p)` (41_codec_formats R121). -/
def toCanonical (d : Draws) (f : Fmt) (p : Pixel) : Vec4 :=
  (Fmt.fields f).foldl (fun v fld => v.setComponent fld.channel (unpackField d p fld)) Vec4.absent

/-- `from_canonical(f, v)`, zero-extended to 128 bits (41_codec_formats R122). -/
def fromCanonical (d : Draws) (f : Fmt) (v : Vec4) : Pixel :=
  (Fmt.fields f).foldl (fun p fld => p ||| packField d v fld) 0

/-! ## Native and scaled flavours (40_canonical_model R106) -/

/-- `(native + 1) / 2` (40_canonical_model R106). -/
def scaleUp (c : F32) : F32 := fdiv (fadd c F32.one) F32.two
/-- `scaled * 2 - 1` (40_canonical_model R106). -/
def scaleDown (c : F32) : F32 := fsub (fmul c F32.two) F32.one

/-- `to_scaled(f, p)`: for a signed format each component that has a field is mapped (40_canonical_model R106). -/
def toScaled (d : Draws) (f : Fmt) (p : Pixel) : Vec4 :=
  if Fmt.isSigned f then
    (Fmt.fields f).foldl (fun v fld => v.setComponent fld.channel (scaleUp (unpackField d p fld))) Vec4.absent
  else toCanonical d f p

/-- `from_scaled(f, v)` (40_canonical_model R106). -/
def fromScaled (d : Draws) (f : Fmt) (v : Vec4) : Pixel :=
  if Fmt.isSigned f then
    fromCanonical d f { x := scaleDown v.x, y := scaleDown v.y, z := scaleDown v.z, w := scaleDown v.w }
  else fromCanonical d f v

/-- `from_scaled(fdst, to_scaled(fsrc, p))` (40_canonical_model R91). -/
def convertPixel (dUnpack dPack : Draws) (fdst fsrc : Fmt) (p : Pixel) : Pixel :=
  fromScaled dPack fdst (toScaled dUnpack fsrc p)

/-! ## Conversion modifiers (40_canonical_model R99 to R103) -/

/-- `-0`. -/
def F32.negZero : F32 := 0x80000000

/-- A zero with a sign. -/
def F32.signedZero (neg : Bool) : F32 := if neg then F32.negZero else F32.zero

/-- A companding function at an argument that is no NaN, from its three parts: its value on the patterns from +0 to
1.0, the sign of its zeros there and at -0, its results elsewhere (40_canonical_model R100, P1 to P3; log 9). -/
def compand (unit : Fin unitPatterns → Fin unitPatterns) (zeroIsNeg : F32 → Bool) (outside : F32 → F32) (c : F32) : F32 :=
  if c = F32.negZero then F32.signedZero (zeroIsNeg c)
  else if h : c.toNat < unitPatterns then
    if (unit ⟨c.toNat, h⟩).val = 0 then F32.signedZero (zeroIsNeg c) else BitVec.ofNat 32 (unit ⟨c.toNat, h⟩).val
  else outside c

/-- `srgb_expand` of an argument that is no NaN (40_canonical_model R100; log 9). -/
def srgbExpand (c : F32) : F32 :=
  compand Config.srgbExpandUnit Config.srgbExpandZeroIsNeg Config.srgbExpandOutside c

/-- `srgb_compress` of an argument that is no NaN (40_canonical_model R100; log 9). -/
def srgbCompress (c : F32) : F32 :=
  compand Config.srgbCompressUnit Config.srgbCompressZeroIsNeg Config.srgbCompressOutside c

/-- A component that a blend computed: a NaN becomes any binary32 (40_canonical_model R87, R88; log 6). -/
def settle (u : BitVec 32) (c : F32) : F32 := if F32.isNaN c then u else c

/-- Compute the three colour components, each with a free word of its own, from slot `slot` up. -/
def Vec4.mapColour (d : Draws) (slot : Nat) (f : BitVec 32 → F32 → F32) (v : Vec4) : Vec4 :=
  { v with x := f (d slot) v.x, y := f (d (slot + 1)) v.y, z := f (d (slot + 2)) v.z }

/-- A companding function on one component: a NaN gives any binary32 (40_canonical_model R100 P4); what the function
gives for an argument that is no NaN stands, a NaN too (P1). -/
def compandComponent (g : F32 → F32) (u : BitVec 32) (c : F32) : F32 := if F32.isNaN c then u else g c

/-- A modifier's product or quotient of a component and alpha: computed from a NaN it is any binary32
(40_canonical_model R87); an invalid operation on operands that are no NaN gives a NaN, whose sign and payload are free
(R81; log 6). -/
def alphaComponent (op : F32 → F32 → F32) (alpha : F32) (u : BitVec 32) (c : F32) : F32 :=
  if F32.isNaN c || F32.isNaN alpha then u else if F32.isNaN (op c alpha) then drawNaN u else op c alpha

/-- `premultiply`; its free words are slots 4 to 6 (40_canonical_model R101). -/
def premultiply (d : Draws) (v : Vec4) : Vec4 := v.mapColour d 4 (alphaComponent fmul v.w)

/-- `unpremultiply`, the vector unchanged when its alpha is a zero (40_canonical_model R101). -/
def unpremultiply (d : Draws) (v : Vec4) : Vec4 :=
  if F32.isZero v.w then v else v.mapColour d 4 (alphaComponent fdiv v.w)

/-- Companding of the colours; its free words are slots 0 to 2 (40_canonical_model R100). -/
def compandColour (g : F32 → F32) (d : Draws) (v : Vec4) : Vec4 := v.mapColour d 0 (compandComponent g)

/-- `to_vector4_elem` (40_canonical_model R102). -/
def toVector4Elem (dUnpack dArith : Draws) (f : Fmt) (p : Pixel) (m : BitVec 3) : Vec4 :=
  let m' := (Modifiers.ofField m).effective
  let v := if m'.scale then toScaled dUnpack f p else toCanonical dUnpack f p
  let v := if m'.srgb then compandColour srgbExpand dArith v else v
  if m'.premultiply then premultiply dArith v else v

/-- `from_vector4_elem` (40_canonical_model R103). -/
def fromVector4Elem (dArith dPack : Draws) (f : Fmt) (v : Vec4) (m : BitVec 3) : Pixel :=
  let m' := (Modifiers.ofField m).effective
  let v := if m'.premultiply then unpremultiply dArith v else v
  let v := if m'.srgb then compandColour srgbCompress dArith v else v
  if m'.scale then fromScaled dPack f v else fromCanonical dPack f v

end Sys2Proof.Machine
end

