-- ==== Sys2Proof/Machine/Blending.lean ====
section
/-! DEFINITION. Compositing of one pixel: the nine blend functions (44_blend R203 to R212), the opacity and the
short-circuit (R213), the composition formula (R214), the weights of the twelve operators (R215 to R227) and the
whole per-pixel function (R228). -/

namespace Sys2Proof.Machine

/-! ## Codes (44_blend R201, R202; 10_state R19) -/

/-- The blend modes in the order of their codes (44_blend R201). -/
def allModes : List BlendMode :=
  [.normal, .multiply, .screen, .darken, .lighten, .overlay, .hardLight, .add, .subtract]

/-- The operators in the order of their codes (44_blend R202). -/
def allOps : List CompOp :=
  [.src, .srcOver, .srcIn, .srcOut, .srcAtop, .dest, .destOver, .destIn, .destOut, .destAtop, .xor, .clear]

/-- The blend mode of a code, none for 9 to 15 (44_blend R201). -/
def BlendMode.ofCode? (m : BitVec 4) : Option BlendMode := allModes[m.toNat]?
/-- The operator of a code, none for 12 to 15 (44_blend R202). -/
def CompOp.ofCode? (o : BitVec 4) : Option CompOp := allOps[o.toNat]?

/-- The code of a blend mode (44_blend R201). -/
def BlendMode.code : BlendMode → BitVec 4
  | .normal => 0 | .multiply => 1 | .screen => 2 | .darken => 3 | .lighten => 4 | .overlay => 5 | .hardLight => 6
  | .add => 7 | .subtract => 8

/-- The code of an operator (44_blend R202). -/
def CompOp.code : CompOp → BitVec 4
  | .src => 0 | .srcOver => 1 | .srcIn => 2 | .srcOut => 3 | .srcAtop => 4 | .dest => 5 | .destOver => 6
  | .destIn => 7 | .destOut => 8 | .destAtop => 9 | .xor => 10 | .clear => 11

/-- The `BLENDER` register as a word: `mode` in bits 3:0, `op` in bits 7:4 (10_state R19). -/
def Blender.word (b : Blender) : Word := (CompOp.code b.op ++ BlendMode.code b.mode).setWidth 32

/-! ## Blend functions (44_blend R203 to R212) -/

/-- `ov(d, e)`: the conditional doubling formula (44_blend R208). -/
def overlayFn (d e : F32) : F32 :=
  if F32.le d F32.half then fmul (fmul F32.two d) e
  else fsub F32.one (fmul (fmul F32.two (fsub F32.one e)) (fsub F32.one d))

/-- `mode_fn(mode, b, s)` on one backdrop and one source component (44_blend R203 to R211). -/
def modeFn (mode : BlendMode) (b s : F32) : F32 :=
  match mode with
  | .normal => s
  | .multiply => fmul b s
  | .screen => fsub F32.one (fmul (fsub F32.one b) (fsub F32.one s))
  | .darken => fmin b s
  | .lighten => fmax b s
  | .overlay => overlayFn b s
  | .hardLight => overlayFn s b
  | .add => fmin F32.one (fadd b s)
  | .subtract => fmax F32.zero (fsub b s)

/-! ## Composition (44_blend R213 to R227) -/

/-- The weights of the three regions: `xform`, backdrop, source (44_blend R214, R215). -/
structure Weights where
  xw : F32
  bw : F32
  sw : F32
  deriving DecidableEq, Repr

/-- What an operator does with a pixel (44_blend R215). -/
inductive Policy where
  /-- the source with its alpha scaled (R216) -/
  | copySource
  /-- the backdrop (R221) -/
  | copyBackdrop
  /-- the zero vector (R227) -/
  | zero
  /-- the composition formula (R214) -/
  | mix (w : Weights)
  deriving DecidableEq, Repr

/-- The table `PD_TABLE` of the operators (44_blend R215 to R227). -/
def policy (op : CompOp) (ba sa : F32) : Policy :=
  let p := fmul ba sa
  let bo := fsub ba p
  let so := fsub sa p
  match op with
  | .src => .copySource
  | .srcOver => .mix { xw := p, bw := bo, sw := so }
  | .srcIn => .mix { xw := p, bw := F32.zero, sw := F32.zero }
  | .srcOut => .mix { xw := F32.zero, bw := F32.zero, sw := so }
  | .srcAtop => .mix { xw := p, bw := bo, sw := F32.zero }
  | .dest => .copyBackdrop
  | .destOver => .mix { xw := F32.zero, bw := ba, sw := so }
  | .destIn => .mix { xw := F32.zero, bw := p, sw := F32.zero }
  | .destOut => .mix { xw := F32.zero, bw := bo, sw := F32.zero }
  | .destAtop => .mix { xw := F32.zero, bw := p, sw := so }
  | .xor => .mix { xw := F32.zero, bw := bo, sw := so }
  | .clear => .zero

/-- The vector of four `+0`. -/
def Vec4.zero : Vec4 := { x := F32.zero, y := F32.zero, z := F32.zero, w := F32.zero }

/-- Four free values (44_blend R213). -/
def Vec4.free (d : Draws) : Vec4 := { x := d 0, y := d 1, z := d 2, w := d 3 }

/-- One colour component of the composition: `(xform*XW + b*BW + s*SW) / a` (44_blend R214). -/
def composeColour (w : Weights) (a xf b s : F32) : F32 :=
  fdiv (fadd (fadd (fmul xf w.xw) (fmul b w.bw)) (fmul s w.sw)) a

/-- The final alpha `XW + BW + SW` (44_blend R214). -/
def composeAlpha (w : Weights) : F32 := fadd (fadd w.xw w.bw) w.sw

/-- The composition formula; the zero vector when the final alpha is zero; a component that comes out a NaN is a free
value (44_blend R214; 40_canonical_model R87, R88). -/
def compose (d : Draws) (mode : BlendMode) (w : Weights) (b s : Vec4) : Vec4 :=
  let a := composeAlpha w
  if F32.isZero a then Vec4.zero
  else
    { x := settle (d 0) (composeColour w a (modeFn mode b.x s.x) b.x s.x)
      y := settle (d 1) (composeColour w a (modeFn mode b.y s.y) b.y s.y)
      z := settle (d 2) (composeColour w a (modeFn mode b.z s.z) b.z s.z)
      w := settle (d 3) a }

/-- `amt`, the opacity clamped into [0,1] (44_blend R213). -/
def opacity (amount : F32) : F32 := fclamp amount F32.zero F32.one

/-- `sa`, the source alpha scaled by the opacity (44_blend R213). -/
def sourceAlpha (s : Vec4) (amount : F32) : F32 := fmul s.w (opacity amount)

/-- `blend_px`, the whole per-pixel function (44_blend R228). -/
def blendPixel (d : Draws) (bl : Blender) (b s : Vec4) (amount : F32) : Vec4 :=
  if bl.op = .clear then Vec4.zero
  else if F32.isNaN amount || F32.isNaN s.w then Vec4.free d
  else
    let sa := sourceAlpha s amount
    if F32.isZero sa then b
    else match policy bl.op b.w sa with
      | .copySource => { s with w := settle (d 3) sa }
      | .copyBackdrop => b
      | .zero => Vec4.zero
      | .mix w => compose d bl.mode w b s

end Sys2Proof.Machine
end

