-- ==== Sys2Proof/Machine/Ops.lean ====
section
/-! DEFINITION. The named operations every command is written in: memory (20_memory), the register files (10_state),
the end of a command, taking a fault and leaving it by reset (60_exceptions R262, R277; 70_reset R290). -/

namespace Sys2Proof.Machine

/-! ## Memory (20_memory R40, R42) -/

/-- The byte listed at an address; an address nothing has written has no value of its own (log 2). -/
def memFind? : List Host.Cell → Nat → Option Byte
  | [], _ => none
  | (k, b) :: rest, a => if k = a then some b else memFind? rest a

/-- One byte of memory; a byte nothing has written is a free value of its address (70_reset R291; log 2). -/
def memRead (m : List Host.Cell) (a : Nat) : Byte := (memFind? m a).getD (Config.unwrittenByte a)

/-- List a byte in its place among rising addresses. -/
def memInsert : List Host.Cell → Nat → Byte → List Host.Cell
  | [], a, b => [(a, b)]
  | (k, c) :: rest, a, b =>
    if a < k then (a, b) :: (k, c) :: rest
    else if a = k then (a, b) :: rest
    else (k, c) :: memInsert rest a b

/-- Write one byte; an address outside the 2^32 of the space holds nothing (20_memory R40). -/
def memWrite (m : List Host.Cell) (a : Nat) (b : Byte) : List Host.Cell :=
  if a < 2 ^ 32 then memInsert m a b else m

/-- Write bytes at rising addresses. -/
def memWriteBytes (m : List Host.Cell) (a : Nat) : List Byte → List Host.Cell
  | [] => m
  | b :: bs => memWriteBytes (memWrite m a b) (a + 1) bs

/-- The `n` bytes at `a`, lowest address first. -/
def memReadBytes (m : List Host.Cell) (a : Nat) : Nat → List Byte
  | 0 => []
  | n + 1 => memRead m a :: memReadBytes m (a + 1) n

/-- The canonical form of a memory: addresses strictly rising and inside the space. No entry can repeat what an
unlisted address reads as, since that has no value of its own (log 2). -/
def Memory.wf (m : List Host.Cell) : Bool :=
  decide ((m.map Prod.fst).Pairwise (· < ·)) && m.all (fun c => c.1 < 2 ^ 32)

/-- One byte of the state's memory. -/
def State.readByte (s : State) (a : Nat) : Byte := memRead s.mem a

/-- `MemRead(a, n)`, little-endian (20_memory R42). -/
def State.readLE (s : State) (a n : Nat) : Nat := leValue (memReadBytes s.mem a n)

/-- Store bytes at rising addresses. -/
def State.writeBytes (s : State) (a : Nat) (bs : List Byte) : State := { s with mem := memWriteBytes s.mem a bs }

/-- `MemWrite(a, n, v)`, little-endian (20_memory R42). -/
def State.writeLE (s : State) (a n v : Nat) : State := s.writeBytes a (leBytes n v)

/-- A binary32 in memory (20_memory R44). -/
def State.readF32 (s : State) (a : Nat) : F32 := BitVec.ofNat 32 (s.readLE a 4)

/-- A canonical vector in memory: x, y, z, w at offsets 0, 4, 8, 12 (20_memory R44). -/
def State.readVec4 (s : State) (a : Nat) : Vec4 :=
  { x := s.readF32 a, y := s.readF32 (a + 4), z := s.readF32 (a + 8), w := s.readF32 (a + 12) }

/-- The sixteen bytes of a canonical vector (20_memory R44). -/
def Vec4.toBytes (v : Vec4) : List Byte :=
  leBytes 4 v.x.toNat ++ leBytes 4 v.y.toNat ++ leBytes 4 v.z.toNat ++ leBytes 4 v.w.toNat

/-- A packed value of `n` bytes in memory, zero-extended (42_scalar_codec R161). -/
def State.readPixel (s : State) (a n : Nat) : Pixel := BitVec.ofNat 128 (s.readLE a n)

/-! ## Which addresses exist (20_memory R41, R47) -/

/-- The region holds the address. -/
def Region.covers (r : Region) (a : Nat) : Bool := r.base ≤ a && a < r.base + r.size

/-- The address is in `MEM_VALID`. -/
def validAddr (rs : List Region) (a : Nat) : Bool := rs.any (fun r => r.covers a)

/-- The lowest address from `a` up that is not in `MEM_VALID`: `a` itself or the first address after some region. -/
def firstInvalid (rs : List Region) (a : Nat) : Nat :=
  (((a :: rs.map (fun r => r.base + r.size)).filter (fun x => a ≤ x && !validAddr rs x)).min?).getD a

/-! ## Register files (10_state R10 to R13) -/

/-- The state of register `P[i]`. -/
def State.preg (s : State) (i : RegIdx) : RegState Pixel := s.pregs[i.toNat]'i.isLt
/-- The state of register `V[i]`. -/
def State.vreg (s : State) (i : RegIdx) : RegState Vec4 := s.vregs[i.toNat]'i.isLt
/-- The state of register `S[i]`. -/
def State.sreg (s : State) (i : RegIdx) : RegState Span := s.sregs[i.toNat]'i.isLt

/-- `P[i] <- v`, all 128 bits (10_state R10). -/
def State.setP (s : State) (i : RegIdx) (v : Pixel) : State :=
  { s with pregs := s.pregs.set i.toNat (.holds v) i.isLt }
/-- `V[i] <- v` (10_state R11). -/
def State.setV (s : State) (i : RegIdx) (v : Vec4) : State :=
  { s with vregs := s.vregs.set i.toNat (.holds v) i.isLt }
/-- `S[i] <- (base, len)` (10_state R12). -/
def State.setS (s : State) (i : RegIdx) (v : Span) : State :=
  { s with sregs := s.sregs.set i.toNat (.holds v) i.isLt }

/-! ## What the reads of one command see (20_memory R50, R52) -/

/-- The state that each read of memory of one command sees, by the field position of the operand it reads and the element
of that operand. A command reads no byte twice under one position and one element. -/
abbrev View := Nat → Nat → State

/-- Every read sees the state the command starts from, as where nothing races with it (20_memory R50). -/
abbrev State.view (s : State) : View := fun _ _ => s

/-! ## Free values (00_scope R8) -/

/-- The free words of one use in the command about to complete, for one element (log 4). -/
def State.free (s : State) (stage : DrawStage) (elem : Nat) : Draws := fun slot =>
  Config.freeWord s.draws stage elem slot

/-! ## The end of a command (10_state R15) -/

/-- `cp <- cp + 16`, without wrap-around; the count of completed commands rises (10_state R15; logs 4 and 5). -/
def State.retire (s : State) : State :=
  if s.cp.toNat + 16 < 2 ^ 32 then { s with cp := s.cp + 16, draws := s.draws + 1 }
  else { s with cp := Config.cpBeyondTop, cpPastTop := true, draws := s.draws + 1 }

/-- Set `OPS_READY[f]`; a bit already set stays (43_bulk R181). -/
def State.touch (s : State) (f : Fmt) : State := { s with opsReady := s.opsReady ||| (1#32 <<< Fmt.id f) }

/-! ## Taking a fault (60_exceptions R260, R262) -/

/-- A fault a command raises: its code and its information word. -/
structure FaultRequest where
  code : FaultCode
  info : Word
  deriving DecidableEq, Repr

/-- `FAULT_CODE` as a number (60_exceptions R260). -/
def FaultCode.number : FaultCode → Nat
  | .noFault => 0 | .fetchFault => 1 | .illegalInstruction => 2 | .invalidFormat => 3 | .invalidBlender => 4
  | .unwrittenRegister => 5 | .lengthMismatch => 6 | .spanOverlap => 7 | .accessFault => 8 | .malformedHex => 9
  | .infoIndexRange => 10 | .infoInvalid => 11

/-- Fault entry, in full: the three fault registers and `STATUS.state`, nothing else (60_exceptions R262). -/
def State.takeFault (s : State) (r : FaultRequest) : State :=
  { s with faultCode := r.code, faultCp := s.cp, faultInfo := r.info, status := .fault }

/-- `raise` (00_scope R8). -/
def raise {α : Type} (code : FaultCode) (info : Word) : Except FaultRequest α := .error { code := code, info := info }

/-- The outcome of a command from its guards and effect: the new state, or the fault taken in the state the command
started from, of which nothing has been written (60_exceptions R261, R262). -/
def complete (s : State) (r : Except FaultRequest State) : Host.Outcome State Fault Refusal :=
  match r with
  | .ok t => .next t
  | .error e => .next (s.takeFault e)

/-! ## Reset, the only way out of a fault (60_exceptions R277; 70_reset R290) -/

/-- `CTRL.RESET` of the engine: every register and the run; memory, `MEM_VALID`, the shared `OPS_READY` and the
count of commands stay (70_reset R290). -/
def State.ctrlReset (s : State) : State :=
  { State.reset with mem := s.mem, memValid := s.memValid, opsReady := s.opsReady, draws := s.draws }

/-- The platform's reset: as `CTRL.RESET`, and `OPS_READY` cleared (70_reset R290). -/
def State.platformReset (s : State) : State := { s.ctrlReset with opsReady := 0 }

end Sys2Proof.Machine
end

