-- ==== Sys2Proof/Machine/Operands.lean ====
section
/-! DEFINITION. The operand forms of the commands and the check each of them makes, in the steps of
60_exceptions R274: format, mode and operator fields (step 3), source registers (4), lengths (5), the aliasing rule
(6), the bytes of every span (7). -/

namespace Sys2Proof.Machine

/-! ## Step 3: format, mode and operator fields -/

/-- The format in `fmt0` (60_exceptions R267). -/
def format0 (f : BitVec 8) : Except FaultRequest Fmt :=
  match Fmt.ofId? f with
  | some fmt => .ok fmt
  | none => raise .invalidFormat (f.setWidth 32)

/-- The format in `fmt1`; bit 8 of the information tells it from `fmt0` (60_exceptions R267). -/
def format1 (f : BitVec 8) : Except FaultRequest Fmt :=
  match Fmt.ofId? f with
  | some fmt => .ok fmt
  | none => raise .invalidFormat (f.setWidth 32 ||| 0x100)

/-- The blender of a mode and an operator field, the mode judged first (60_exceptions R268). -/
def blenderArg (mode op : BitVec 4) : Except FaultRequest Blender :=
  match BlendMode.ofCode? mode with
  | none => raise .invalidBlender (mode.setWidth 32)
  | some m =>
    match CompOp.ofCode? op with
    | none => raise .invalidBlender (16 + op.setWidth 32)
    | some o => .ok { mode := m, op := o }

/-! ## Step 4: source registers -/

/-- The information word of `UnwrittenRegister`: the file in bits 5:4, the index in bits 3:0 (60_exceptions R273). -/
def registerInfo (file : BitVec 2) (i : RegIdx) : Word := (file ++ i).setWidth 32

/-- Read `P[i]` (10_state R13). -/
def State.readP (s : State) (i : RegIdx) : Except FaultRequest Pixel :=
  match s.preg i with
  | .holds v => .ok v
  | .unwritten => raise .unwrittenRegister (registerInfo 0 i)

/-- Read `V[i]` (10_state R13). -/
def State.readV (s : State) (i : RegIdx) : Except FaultRequest Vec4 :=
  match s.vreg i with
  | .holds v => .ok v
  | .unwritten => raise .unwrittenRegister (registerInfo 1 i)

/-- Read `S[i]` (10_state R13). -/
def State.readS (s : State) (i : RegIdx) : Except FaultRequest Span :=
  match s.sreg i with
  | .holds v => .ok v
  | .unwritten => raise .unwrittenRegister (registerInfo 2 i)

/-! ## Step 5: lengths -/

/-- The span has the length of the span it is compared with, else `LengthMismatch` with its length
(60_exceptions R269). -/
def sameLength (sp ref : Span) : Except FaultRequest Unit :=
  if sp.len = ref.len then .ok () else raise .lengthMismatch sp.len

/-- The shorter span is no longer than the longer one, else `LengthMismatch` with the pixel span's length
(60_exceptions R269, the plane rules). -/
def notLonger (short long : Span) (info : Word) : Except FaultRequest Unit :=
  if short.len ≤ long.len then .ok () else raise .lengthMismatch info

/-! ## Step 6: the aliasing rule -/

/-- A span as a command uses it: its element size in bytes, and whether the command writes it (20_memory R43, R57). -/
structure SpanUse where
  span : Span
  elem : Nat
  written : Bool
  deriving DecidableEq, Repr

/-- The address of element `i` of a span of `z`-byte elements (20_memory R43). -/
def Span.elemAddr (sp : Span) (z i : Nat) : Nat := sp.base.toNat + i * z

/-- The size of the span in bytes (20_memory R43). -/
def SpanUse.bytes (u : SpanUse) : Nat := u.span.len.toNat * u.elem

/-- Two byte ranges overlap: both are non-empty and each starts below the other's end (60_exceptions R272). -/
def SpanUse.overlaps (u v : SpanUse) : Bool :=
  0 < u.bytes && 0 < v.bytes && u.span.base.toNat < v.span.base.toNat + v.bytes
    && v.span.base.toNat < u.span.base.toNat + u.bytes

/-- The field positions of the first overlapping pair: each written span in field order against every other span in
field order. `inPlace` exempts the pair of destination (position 0) and backdrop (position 1) at equal bases
(60_exceptions R272). -/
def firstOverlap (inPlace : Bool) (uses : List SpanUse) : Option (Nat × Nat) :=
  let numbered := uses.zipIdx
  (numbered.flatMap fun (u, i) =>
    if u.written then
      (numbered.filter fun (v, j) =>
        j != i && u.overlaps v && !(inPlace && i == 0 && j == 1 && u.span.base == v.span.base)).map fun (_, j) => (i, j)
    else []).head?

/-- The aliasing rule (20_memory R57; 60_exceptions R272). -/
def checkDisjoint (inPlace : Bool) (uses : List SpanUse) : Except FaultRequest Unit :=
  match firstOverlap inPlace uses with
  | none => .ok ()
  | some (i, j) => raise .spanOverlap (BitVec.ofNat 32 (i + 16 * j))

/-! ## Step 7: the bytes a command reads and writes -/

/-- The validity guard of `n` bytes at `base`: the extent fits the space, and every byte is in `MEM_VALID`
(20_memory R47; 60_exceptions R265). -/
def State.checkExtent (s : State) (base : Word) (n : Nat) : Except FaultRequest Unit :=
  if 2 ^ 32 < base.toNat + n then raise .accessFault base
  else if firstInvalid s.memValid base.toNat < base.toNat + n then
    raise .accessFault (BitVec.ofNat 32 (firstInvalid s.memValid base.toNat))
  else .ok ()

/-- The validity guard of every span, in field order (43_bulk R180 step 4). -/
def State.checkSpans (s : State) : List SpanUse → Except FaultRequest Unit
  | [] => .ok ()
  | u :: us => do
    s.checkExtent u.span.base u.bytes
    s.checkSpans us

end Sys2Proof.Machine
end

