-- ==== Sys2Proof/Machine/Bulk.lean ====
section
/-! DEFINITION. The bulk operations dispatcher: TOVEC4, FROMVEC4, CONVERT, PACKPLANES, UNPACKPLANES (43_bulk). Every
element is computed from the memory the command started with: with the aliasing rule in force the order of elements is
not observable (20_memory R51; 43_bulk R187, R188). Where the host races with the command, each read is of the view's
(20_memory R52, R53). -/

namespace Sys2Proof.Machine

/-- The bytes of elements `0 .. n-1` laid end to end (20_memory R43). -/
def elementBytes (n : Nat) (elem : Nat → List Byte) : List Byte := (List.range n).flatMap elem

/-- Steps 6 and 7 of every bulk command: the aliasing rule, then every byte of every span (43_bulk R180). -/
def State.guardSpans (s : State) (inPlace : Bool) (uses : List SpanUse) : Except FaultRequest Unit := do
  checkDisjoint inPlace uses
  s.checkSpans uses

/-- The pixel in element `i` of a span of format `fmt` (20_memory R43). -/
def State.pixelAt (s : State) (sp : Span) (fmt : Fmt) (i : Nat) : Pixel :=
  s.readPixel (sp.elemAddr (Fmt.bytes fmt) i) (Fmt.bytes fmt)

/-- The bytes of a packed value of format `fmt` (20_memory R42). -/
def pixelBytes (fmt : Fmt) (p : Pixel) : List Byte := leBytes (Fmt.bytes fmt) p.toNat

/-! ## TOVEC4 and FROMVEC4 (43_bulk R182, R183) -/

/-- Element `i` that `TOVEC4` stores, from the pixel it reads (43_bulk R182). -/
def State.tovec4Elem (s : State) (fmt : Fmt) (m : BitVec 3) (i : Nat) (p : Pixel) : Vec4 :=
  toVector4Elem (s.free .unpack i) (s.free .arith i) fmt p m

/-- `TOVEC4 Sdst, Ssrc, f, m`, its reads through a view (43_bulk R182). -/
def execTovec4Seeing (see : View) (sdst ssrc : RegIdx) (f : BitVec 8) (m : BitVec 3) (s : State) :
    Host.Outcome State Fault Refusal :=
  complete s do
    let fmt ← format0 f
    let dst ← s.readS sdst
    let src ← s.readS ssrc
    sameLength src dst
    s.guardSpans false [{ span := dst, elem := 16, written := true },
      { span := src, elem := Fmt.bytes fmt, written := false }]
    let out := elementBytes dst.len.toNat fun i => (s.tovec4Elem fmt m i ((see 1 i).pixelAt src fmt i)).toBytes
    return ((s.writeBytes dst.base.toNat out).touch fmt).retire

/-- `TOVEC4 Sdst, Ssrc, f, m` (43_bulk R182). -/
def execTovec4 (sdst ssrc : RegIdx) (f : BitVec 8) (m : BitVec 3) (s : State) : Host.Outcome State Fault Refusal :=
  execTovec4Seeing s.view sdst ssrc f m s

/-- The pixel of element `i` that `FROMVEC4` stores, from the vector it reads (43_bulk R183). -/
def State.fromvec4Elem (s : State) (fmt : Fmt) (m : BitVec 3) (i : Nat) (v : Vec4) : Pixel :=
  fromVector4Elem (s.free .arith i) (s.free .pack i) fmt v m

/-- The bytes the destroyed source span of `FROMVEC4` holds: a free byte each (20_memory R58; log 8). -/
def State.destroyedBytes (s : State) (n : Nat) : List Byte :=
  (List.range n).map fun k => (s.free .destroy k 0).setWidth 8

/-- `FROMVEC4 Sdst, Ssrc, f, m`, its reads through a view: the source span is destroyed (43_bulk R183). -/
def execFromvec4Seeing (see : View) (sdst ssrc : RegIdx) (f : BitVec 8) (m : BitVec 3) (s : State) :
    Host.Outcome State Fault Refusal :=
  complete s do
    let fmt ← format0 f
    let dst ← s.readS sdst
    let src ← s.readS ssrc
    sameLength src dst
    s.guardSpans false [{ span := dst, elem := Fmt.bytes fmt, written := true },
      { span := src, elem := 16, written := false }]
    let out := elementBytes dst.len.toNat fun i => pixelBytes fmt (s.fromvec4Elem fmt m i ((see 1 i).readVec4 (src.elemAddr 16 i)))
    return (((s.writeBytes dst.base.toNat out).writeBytes src.base.toNat
      (s.destroyedBytes (src.len.toNat * 16))).touch fmt).retire

/-- `FROMVEC4 Sdst, Ssrc, f, m`: the source span is destroyed (43_bulk R183). -/
def execFromvec4 (sdst ssrc : RegIdx) (f : BitVec 8) (m : BitVec 3) (s : State) : Host.Outcome State Fault Refusal :=
  execFromvec4Seeing s.view sdst ssrc f m s

/-! ## CONVERT (43_bulk R184) -/

/-- The pixel of element `i` that a conversion stores, from the pixel it reads (43_bulk R184). -/
def State.convertElem (s : State) (fdst fsrc : Fmt) (i : Nat) (p : Pixel) : Pixel :=
  convertPixel (s.free .unpack i) (s.free .pack i) fdst fsrc p

/-- `CONVERT Sdst, Ssrc, fdst, fsrc`, its reads through a view (43_bulk R184). -/
def execConvertSeeing (see : View) (sdst ssrc : RegIdx) (fdst fsrc : BitVec 8) (s : State) :
    Host.Outcome State Fault Refusal :=
  complete s do
    let dfmt ← format0 fdst
    let sfmt ← format1 fsrc
    let dst ← s.readS sdst
    let src ← s.readS ssrc
    sameLength src dst
    s.guardSpans false [{ span := dst, elem := Fmt.bytes dfmt, written := true },
      { span := src, elem := Fmt.bytes sfmt, written := false }]
    let out := elementBytes dst.len.toNat fun i => pixelBytes dfmt (s.convertElem dfmt sfmt i ((see 1 i).pixelAt src sfmt i))
    return (((s.writeBytes dst.base.toNat out).touch dfmt).touch sfmt).retire

/-- `CONVERT Sdst, Ssrc, fdst, fsrc` (43_bulk R184). -/
def execConvert (sdst ssrc : RegIdx) (fdst fsrc : BitVec 8) (s : State) : Host.Outcome State Fault Refusal :=
  execConvertSeeing s.view sdst ssrc fdst fsrc s

/-! ## Planes (43_bulk R185, R186) -/

/-- The RGB24 value of three plane samples (43_bulk R185). -/
def planePixel (see : View) (r g b : Span) (i : Nat) : Pixel :=
  ((see 1 i).readByte (r.elemAddr 1 i)).setWidth 128 ||| ((see 2 i).readByte (g.elemAddr 1 i)).setWidth 128 <<< 8
    ||| ((see 3 i).readByte (b.elemAddr 1 i)).setWidth 128 <<< 16

/-- `PACKPLANES Sdst, Sr, Sg, Sb, f`, its reads through a view: elements of the destination past the planes are not
written (43_bulk R185). -/
def execPackplanesSeeing (see : View) (sdst sr sg sb : RegIdx) (f : BitVec 8) (s : State) :
    Host.Outcome State Fault Refusal :=
  complete s do
    let fmt ← format0 f
    let dst ← s.readS sdst
    let r ← s.readS sr
    let g ← s.readS sg
    let b ← s.readS sb
    sameLength g r
    sameLength b r
    notLonger r dst dst.len
    s.guardSpans false [{ span := dst, elem := Fmt.bytes fmt, written := true },
      { span := r, elem := 1, written := false }, { span := g, elem := 1, written := false },
      { span := b, elem := 1, written := false }]
    let out := elementBytes r.len.toNat fun i => pixelBytes fmt (s.convertElem fmt .rgb24 i (planePixel see r g b i))
    return ((s.writeBytes dst.base.toNat out).touch fmt).retire

/-- `PACKPLANES Sdst, Sr, Sg, Sb, f`: elements of the destination past the planes are not written (43_bulk R185). -/
def execPackplanes (sdst sr sg sb : RegIdx) (f : BitVec 8) (s : State) : Host.Outcome State Fault Refusal :=
  execPackplanesSeeing s.view sdst sr sg sb f s

/-- The samples of one plane: the byte at bit `lo` of the RGB24 value of each element, which is read once for all three
planes (43_bulk R186). -/
def State.planeSamples (s : State) (see : View) (src : Span) (fmt : Fmt) (lo : Nat) : List Byte :=
  (List.range src.len.toNat).map fun i => (s.convertElem .rgb24 fmt i ((see 0 i).pixelAt src fmt i)).extractLsb' lo 8

/-- `UNPACKPLANES Ssrc, Sr, Sg, Sb, f`, its reads through a view: samples of the planes past the source are not written
(43_bulk R186). -/
def execUnpackplanesSeeing (see : View) (ssrc sr sg sb : RegIdx) (f : BitVec 8) (s : State) :
    Host.Outcome State Fault Refusal :=
  complete s do
    let fmt ← format0 f
    let src ← s.readS ssrc
    let r ← s.readS sr
    let g ← s.readS sg
    let b ← s.readS sb
    sameLength g r
    sameLength b r
    notLonger src r src.len
    s.guardSpans false [{ span := src, elem := Fmt.bytes fmt, written := false },
      { span := r, elem := 1, written := true }, { span := g, elem := 1, written := true },
      { span := b, elem := 1, written := true }]
    return ((((s.writeBytes r.base.toNat (s.planeSamples see src fmt 0)).writeBytes g.base.toNat
      (s.planeSamples see src fmt 8)).writeBytes b.base.toNat (s.planeSamples see src fmt 16)).touch fmt).retire

/-- `UNPACKPLANES Ssrc, Sr, Sg, Sb, f`: samples of the planes past the source are not written (43_bulk R186). -/
def execUnpackplanes (ssrc sr sg sb : RegIdx) (f : BitVec 8) (s : State) : Host.Outcome State Fault Refusal :=
  execUnpackplanesSeeing s.view ssrc sr sg sb f s

end Sys2Proof.Machine
end

