-- ==== Sys2Proof/Machine/BlendCommands.lean ====
section
/-! DEFINITION. The blending commands SETBL, BLENDPX, BLEND, BLENDA (44_blend R229 to R232). -/

namespace Sys2Proof.Machine

/-- `SETBL mode, op` (44_blend R229). -/
def execSetbl (mode op : BitVec 4) (s : State) : Host.Outcome State Fault Refusal :=
  complete s do
    let bl ← blenderArg mode op
    return { s with blender := bl }.retire

/-- `BLENDPX Vd, Vb, Vs, amount`: both vectors must be written even where the operator ignores one (44_blend R230). -/
def execBlendpx (vd vb vs : RegIdx) (amount : F32) (s : State) : Host.Outcome State Fault Refusal :=
  complete s do
    let b ← s.readV vb
    let src ← s.readV vs
    return (s.setV vd (blendPixel (s.free .arith 0) s.blender b src amount)).retire

/-- The pixel of element `i` that a bulk blend stores, at an opacity, from the backdrop and source pixels it reads
(44_blend R231). -/
def State.blendElem (s : State) (dfmt sfmt : Fmt) (i : Nat) (backdrop source : Pixel) (amount : F32) : Pixel :=
  let b := toScaled (s.free .unpack i) dfmt backdrop
  let v := toScaled (s.free .unpackSource i) sfmt source
  fromScaled (s.free .pack i) dfmt (blendPixel (s.free .arith i) s.blender b v amount)

/-- `BLEND Sdst, Sbg, Ssrc, fdst, fsrc, amount`, its reads through a view: the destination may be the backdrop
(44_blend R231). -/
def execBlendSeeing (see : View) (sdst sbg ssrc : RegIdx) (fdst fsrc : BitVec 8) (amount : F32) (s : State) :
    Host.Outcome State Fault Refusal :=
  complete s do
    let dfmt ← format0 fdst
    let sfmt ← format1 fsrc
    let dst ← s.readS sdst
    let bg ← s.readS sbg
    let src ← s.readS ssrc
    sameLength bg dst
    sameLength src dst
    s.guardSpans true [{ span := dst, elem := Fmt.bytes dfmt, written := true },
      { span := bg, elem := Fmt.bytes dfmt, written := false },
      { span := src, elem := Fmt.bytes sfmt, written := false }]
    let out := elementBytes dst.len.toNat fun i =>
      pixelBytes dfmt (s.blendElem dfmt sfmt i ((see 1 i).pixelAt bg dfmt i) ((see 2 i).pixelAt src sfmt i) amount)
    return (((s.writeBytes dst.base.toNat out).touch dfmt).touch sfmt).retire

/-- `BLEND Sdst, Sbg, Ssrc, fdst, fsrc, amount`: the destination may be the backdrop (44_blend R231). -/
def execBlend (sdst sbg ssrc : RegIdx) (fdst fsrc : BitVec 8) (amount : F32) (s : State) :
    Host.Outcome State Fault Refusal :=
  execBlendSeeing s.view sdst sbg ssrc fdst fsrc amount s

/-- `BLENDA Sdst, Sbg, Ssrc, Samt, fdst, fsrc`, its reads through a view: one opacity per pixel (44_blend R232). -/
def execBlendaSeeing (see : View) (sdst sbg ssrc samt : RegIdx) (fdst fsrc : BitVec 8) (s : State) :
    Host.Outcome State Fault Refusal :=
  complete s do
    let dfmt ← format0 fdst
    let sfmt ← format1 fsrc
    let dst ← s.readS sdst
    let bg ← s.readS sbg
    let src ← s.readS ssrc
    let amt ← s.readS samt
    sameLength bg dst
    sameLength src dst
    sameLength amt dst
    s.guardSpans true [{ span := dst, elem := Fmt.bytes dfmt, written := true },
      { span := bg, elem := Fmt.bytes dfmt, written := false },
      { span := src, elem := Fmt.bytes sfmt, written := false }, { span := amt, elem := 4, written := false }]
    let out := elementBytes dst.len.toNat fun i =>
      pixelBytes dfmt (s.blendElem dfmt sfmt i ((see 1 i).pixelAt bg dfmt i) ((see 2 i).pixelAt src sfmt i)
        ((see 3 i).readF32 (amt.elemAddr 4 i)))
    return (((s.writeBytes dst.base.toNat out).touch dfmt).touch sfmt).retire

/-- `BLENDA Sdst, Sbg, Ssrc, Samt, fdst, fsrc`: one opacity per pixel (44_blend R232). -/
def execBlenda (sdst sbg ssrc samt : RegIdx) (fdst fsrc : BitVec 8) (s : State) : Host.Outcome State Fault Refusal :=
  execBlendaSeeing s.view sdst sbg ssrc samt fdst fsrc s

end Sys2Proof.Machine
end

