-- ==== Sys2Proof/Machine/Codec.lean ====
section
/-! DEFINITION. The single-pixel codec commands UNPACK, UNPACKS, PACK, PACKS, CVTPX (42_scalar_codec R165 to R169) and
the constructors MKPX, PARSEHEX (R170, R171). -/

namespace Sys2Proof.Machine

/-- `UNPACK Vd, Ps, f`: `to_canonical` (42_scalar_codec R165). -/
def execUnpack (vd ps : RegIdx) (f : BitVec 8) (s : State) : Host.Outcome State Fault Refusal :=
  complete s do
    let fmt ← format0 f
    let p ← s.readP ps
    return (s.setV vd (toCanonical (s.free .unpack 0) fmt p)).retire

/-- `UNPACKS Vd, Ps, f`: `to_scaled` (42_scalar_codec R166). -/
def execUnpacks (vd ps : RegIdx) (f : BitVec 8) (s : State) : Host.Outcome State Fault Refusal :=
  complete s do
    let fmt ← format0 f
    let p ← s.readP ps
    return (s.setV vd (toScaled (s.free .unpack 0) fmt p)).retire

/-- `PACK Pd, Vs, f`: `from_canonical` (42_scalar_codec R167). -/
def execPack (pd vs : RegIdx) (f : BitVec 8) (s : State) : Host.Outcome State Fault Refusal :=
  complete s do
    let fmt ← format0 f
    let v ← s.readV vs
    return (s.setP pd (fromCanonical (s.free .pack 0) fmt v)).retire

/-- `PACKS Pd, Vs, f`: `from_scaled` (42_scalar_codec R168). -/
def execPacks (pd vs : RegIdx) (f : BitVec 8) (s : State) : Host.Outcome State Fault Refusal :=
  complete s do
    let fmt ← format0 f
    let v ← s.readV vs
    return (s.setP pd (fromScaled (s.free .pack 0) fmt v)).retire

/-- `CVTPX Pd, Ps, fdst, fsrc`: conversion through the scaled vector; it stands for every sibling helper
(42_scalar_codec R169, R172). -/
def execCvtpx (pd ps : RegIdx) (fdst fsrc : BitVec 8) (s : State) : Host.Outcome State Fault Refusal :=
  complete s do
    let dst ← format0 fdst
    let src ← format1 fsrc
    let p ← s.readP ps
    return (s.setP pd (convertPixel (s.free .unpack 0) (s.free .pack 0) dst src p)).retire

/-- `MKPX Pd, f, rgba`: the immediate is an RGBA32 value, converted like any other (42_scalar_codec R170). -/
def execMkpx (pd : RegIdx) (f : BitVec 8) (rgba : Word) (s : State) : Host.Outcome State Fault Refusal :=
  complete s do
    let fmt ← format0 f
    return (s.setP pd (convertPixel (s.free .unpack 0) (s.free .pack 0) fmt .rgba32 (rgba.setWidth 128))).retire

/-! ## The hex constructor (42_scalar_codec R171) -/

/-- The value of a hexadecimal digit, either case (42_scalar_codec R171). -/
def hexDigit? (c : Byte) : Option Nat :=
  if 0x30 ≤ c.toNat ∧ c.toNat ≤ 0x39 then some (c.toNat - 0x30)
  else if 0x41 ≤ c.toNat ∧ c.toNat ≤ 0x46 then some (c.toNat - 0x41 + 10)
  else if 0x61 ≤ c.toNat ∧ c.toNat ≤ 0x66 then some (c.toNat - 0x61 + 10)
  else none

/-- The digits of a text whose first character stands at index `i` of the span; the first character that is no digit
raises `MalformedHex` with its index (60_exceptions R270). -/
def hexDigits : Nat → List Byte → Except FaultRequest (List Nat)
  | _, [] => .ok []
  | i, c :: rest =>
    match hexDigit? c with
    | none => raise .malformedHex (BitVec.ofNat 32 i)
    | some d => do
      let ds ← hexDigits (i + 1) rest
      return d :: ds

/-- The RGBA32 value of four component bytes. -/
def rgbaBytes (r g b a : Nat) : Pixel := BitVec.ofNat 128 (r + 2 ^ 8 * g + 2 ^ 16 * b + 2 ^ 24 * a)

/-- The pixel of 3, 4, 6 or 8 digits: one digit per component times 17, or two, high digit first; full opacity where
no alpha is given (42_scalar_codec R171). -/
def hexPixel : List Nat → Pixel
  | [r, g, b] => rgbaBytes (r * 17) (g * 17) (b * 17) 255
  | [r, g, b, a] => rgbaBytes (r * 17) (g * 17) (b * 17) (a * 17)
  | [r1, r0, g1, g0, b1, b0] => rgbaBytes (r1 * 16 + r0) (g1 * 16 + g0) (b1 * 16 + b0) 255
  | [r1, r0, g1, g0, b1, b0, a1, a0] => rgbaBytes (r1 * 16 + r0) (g1 * 16 + g0) (b1 * 16 + b0) (a1 * 16 + a0)
  | _ => 0

/-- The pixel spelled in a span of characters, after one optional leading `#` (42_scalar_codec R171). The search for the
`#` is the reads of position 0, the digits are the reads of position 1. -/
def parseHex (see : View) (sp : Span) : Except FaultRequest Pixel :=
  let skip := if 1 ≤ sp.len.toNat ∧ (see 0 0).readByte sp.base.toNat = 0x23 then 1 else 0
  let n := sp.len.toNat - skip
  if n = 3 ∨ n = 4 ∨ n = 6 ∨ n = 8 then do
    let ds ← hexDigits skip (memReadBytes (see 1 0).mem (sp.base.toNat + skip) n)
    return hexPixel ds
  else raise .malformedHex sp.len

/-- `PARSEHEX Pd, Stext`, its reads through a view (42_scalar_codec R171). -/
def execParsehexSeeing (see : View) (pd stext : RegIdx) (s : State) : Host.Outcome State Fault Refusal :=
  complete s do
    let text ← s.readS stext
    s.checkExtent text.base text.len.toNat
    let p ← parseHex see text
    return (s.setP pd p).retire

/-- `PARSEHEX Pd, Stext` (42_scalar_codec R171). -/
def execParsehex (pd stext : RegIdx) (s : State) : Host.Outcome State Fault Refusal :=
  execParsehexSeeing s.view pd stext s

end Sys2Proof.Machine
end

