-- ==== Sys2Proof/Machine/ControlMeta.lean ====
section
/-! DEFINITION. Control and component metadata: END, FMTINFO, MKINFO, PXINFO, RDCI (46_control_metadata). -/

namespace Sys2Proof.Machine

/-- `END`: the engine halts, `cp` keeps the address of the `END`, nothing else changes (46_control_metadata R240). -/
def execEnd (s : State) : Host.Outcome State Fault Refusal := complete s (.ok { s with status := .halted })

/-- `FMTINFO f` (46_control_metadata R241). -/
def execFmtinfo (f : BitVec 8) (s : State) : Host.Outcome State Fault Refusal :=
  complete s do
    let fmt ← format0 f
    return { s with ci := Fmt.info fmt }.retire

/-! ## Constructing a descriptor (46_control_metadata R242) -/

/-- The precision entries of a span (46_control_metadata R242). -/
def precEntries (see : View) (sp : Span) : List Nat :=
  (List.range sp.len.toNat).map fun i => (see 0 i).readLE (sp.elemAddr 4 i) 4

/-- The descriptor of a list of precisions and a pixel size (46_control_metadata R242). -/
def infoOf (e : List Nat) (bpp : Word) : CompInfo where
  count := BitVec.ofNat 8 e.length
  bpp := bpp.setWidth 16
  padding := BitVec.ofNat 16 (bpp.toNat - e.sum)
  prec := Vector.ofFn fun i => BitVec.ofNat 8 ((e[i.val]?).getD 0)

/-- The checks on the entries, then the descriptor (46_control_metadata R242; 60_exceptions R275). -/
def buildInfo (e : List Nat) (bpp : Word) : Except FaultRequest CompInfo :=
  match e.findIdx? (fun p => 255 < p) with
  | some i => raise .infoInvalid (BitVec.ofNat 32 (0x100 + i))
  | none => if 65535 < bpp.toNat ∨ bpp.toNat < e.sum then raise .infoInvalid 0x200 else .ok (infoOf e bpp)

/-- At most sixteen entries (60_exceptions R275). -/
def checkEntryCount (len : Word) : Except FaultRequest Unit :=
  if 16 < len.toNat then raise .infoInvalid len else .ok ()

/-- `MKINFO Sprec, bpp`, its reads through a view (46_control_metadata R242). -/
def execMkinfoSeeing (see : View) (sprec : RegIdx) (bpp : Word) (s : State) : Host.Outcome State Fault Refusal :=
  complete s do
    let sp ← s.readS sprec
    checkEntryCount sp.len
    s.checkExtent sp.base (sp.len.toNat * 4)
    let info ← buildInfo (precEntries see sp) bpp
    return { s with ci := info }.retire

/-- `MKINFO Sprec, bpp` (46_control_metadata R242). -/
def execMkinfo (sprec : RegIdx) (bpp : Word) (s : State) : Host.Outcome State Fault Refusal :=
  execMkinfoSeeing s.view sprec bpp s

/-! ## Reading the descriptor (46_control_metadata R243, R244) -/

/-- A slot of the descriptor; a slot that does not exist reads as the slots past `count` do (10_state R21). -/
def CompInfo.slot (c : CompInfo) (i : Nat) : BitVec 8 := (c.prec[i]?).getD 0

/-- The index of `PXINFO` is below `CI.count` (60_exceptions R271). -/
def CompInfo.checkIndex (c : CompInfo) (idx : Word) : Except FaultRequest Unit :=
  if c.count.toNat ≤ idx.toNat then raise .infoIndexRange idx else .ok ()

/-- `PXINFO Pd, idx` (46_control_metadata R243). -/
def execPxinfo (pd : RegIdx) (idx : Word) (s : State) : Host.Outcome State Fault Refusal :=
  complete s do
    s.ci.checkIndex idx
    return (s.setP pd ((s.ci.slot idx.toNat).setWidth 128)).retire

/-- The header `RDCI` reads: `count` in bits 7:0, `bpp` in 23:8, `padding` in 39:24 (46_control_metadata R244). -/
def CompInfo.header (c : CompInfo) : BitVec 40 := c.padding ++ c.bpp ++ c.count

/-- `RDCI Pd` (46_control_metadata R244). -/
def execRdci (pd : RegIdx) (s : State) : Host.Outcome State Fault Refusal :=
  complete s (.ok (s.setP pd (s.ci.header.setWidth 128)).retire)

end Sys2Proof.Machine
end

