-- ==== Sys2Proof/Machine/Movement.lean ====
section
/-! DEFINITION. The operand-movement commands SPAN, LDP, STP, LDV, STV (42_scalar_codec R160 to R164). -/

namespace Sys2Proof.Machine

/-- `SPAN Sd, base, len`: no memory access, no check (42_scalar_codec R160). -/
def execSpan (sd : RegIdx) (base len : Word) (s : State) : Host.Outcome State Fault Refusal :=
  complete s (.ok (s.setS sd { base := base, len := len }).retire)

/-- `LDP Pd, f, addr`, its read through a view (42_scalar_codec R161). -/
def execLdpSeeing (see : View) (pd : RegIdx) (f : BitVec 8) (addr : Word) (s : State) :
    Host.Outcome State Fault Refusal :=
  complete s do
    let fmt ← format0 f
    s.checkExtent addr (Fmt.bytes fmt)
    return (s.setP pd ((see 0 0).readPixel addr.toNat (Fmt.bytes fmt))).retire

/-- `LDP Pd, f, addr` (42_scalar_codec R161). -/
def execLdp (pd : RegIdx) (f : BitVec 8) (addr : Word) (s : State) : Host.Outcome State Fault Refusal :=
  execLdpSeeing s.view pd f addr s

/-- `STP Ps, f, addr`: bits of `Ps` above the format's size are not stored (42_scalar_codec R162). -/
def execStp (ps : RegIdx) (f : BitVec 8) (addr : Word) (s : State) : Host.Outcome State Fault Refusal :=
  complete s do
    let fmt ← format0 f
    let p ← s.readP ps
    s.checkExtent addr (Fmt.bytes fmt)
    return (s.writeLE addr.toNat (Fmt.bytes fmt) p.toNat).retire

/-- `LDV Vd, addr`, its read through a view (42_scalar_codec R163). -/
def execLdvSeeing (see : View) (vd : RegIdx) (addr : Word) (s : State) : Host.Outcome State Fault Refusal :=
  complete s do
    s.checkExtent addr 16
    return (s.setV vd ((see 0 0).readVec4 addr.toNat)).retire

/-- `LDV Vd, addr` (42_scalar_codec R163). -/
def execLdv (vd : RegIdx) (addr : Word) (s : State) : Host.Outcome State Fault Refusal :=
  execLdvSeeing s.view vd addr s

/-- `STV Vs, addr` (42_scalar_codec R164). -/
def execStv (vs : RegIdx) (addr : Word) (s : State) : Host.Outcome State Fault Refusal :=
  complete s do
    let v ← s.readV vs
    s.checkExtent addr 16
    return (s.writeBytes addr.toNat v.toBytes).retire

end Sys2Proof.Machine
end

