-- ==== Sys2Proof/Machine/Dispatch.lean ====
section
/-! DEFINITION. What each command does: one arm per row of the opcode map (30_encoding R67). -/

namespace Sys2Proof.Machine

/-- The effect of one command in a state (30_encoding R67). -/
def exec (i : Instr) (s : State) : Host.Outcome State Fault Refusal :=
  match i with
  | .endList => Sys2Proof.Machine.execEnd s
  | .span sd base len => Sys2Proof.Machine.execSpan sd base len s
  | .ldp pd f addr => Sys2Proof.Machine.execLdp pd f addr s
  | .stp ps f addr => Sys2Proof.Machine.execStp ps f addr s
  | .ldv vd addr => Sys2Proof.Machine.execLdv vd addr s
  | .stv vs addr => Sys2Proof.Machine.execStv vs addr s
  | .unpack vd ps f => Sys2Proof.Machine.execUnpack vd ps f s
  | .unpacks vd ps f => Sys2Proof.Machine.execUnpacks vd ps f s
  | .pack pd vs f => Sys2Proof.Machine.execPack pd vs f s
  | .packs pd vs f => Sys2Proof.Machine.execPacks pd vs f s
  | .cvtpx pd ps fdst fsrc => Sys2Proof.Machine.execCvtpx pd ps fdst fsrc s
  | .mkpx pd f rgba => Sys2Proof.Machine.execMkpx pd f rgba s
  | .parsehex pd stext => Sys2Proof.Machine.execParsehex pd stext s
  | .tovec4 sdst ssrc f m => Sys2Proof.Machine.execTovec4 sdst ssrc f m s
  | .fromvec4 sdst ssrc f m => Sys2Proof.Machine.execFromvec4 sdst ssrc f m s
  | .convert sdst ssrc fdst fsrc => Sys2Proof.Machine.execConvert sdst ssrc fdst fsrc s
  | .packplanes sdst sr sg sb f => Sys2Proof.Machine.execPackplanes sdst sr sg sb f s
  | .unpackplanes ssrc sr sg sb f => Sys2Proof.Machine.execUnpackplanes ssrc sr sg sb f s
  | .setbl mode op => Sys2Proof.Machine.execSetbl mode op s
  | .blendpx vd vb vs amount => Sys2Proof.Machine.execBlendpx vd vb vs amount s
  | .blend sdst sbg ssrc fdst fsrc amount => Sys2Proof.Machine.execBlend sdst sbg ssrc fdst fsrc amount s
  | .blenda sdst sbg ssrc samt fdst fsrc => Sys2Proof.Machine.execBlenda sdst sbg ssrc samt fdst fsrc s
  | .fmtinfo f => Sys2Proof.Machine.execFmtinfo f s
  | .mkinfo sprec bpp => Sys2Proof.Machine.execMkinfo sprec bpp s
  | .pxinfo pd idx => Sys2Proof.Machine.execPxinfo pd idx s
  | .rdci pd => Sys2Proof.Machine.execRdci pd s

end Sys2Proof.Machine
end

