-- ==== Sys2Proof/Machine/Fetch.lean ====
section
/-! DEFINITION. Fetching and decoding the command at `cp` (30_encoding R60, R73; 60_exceptions R264, R266), and placing
one there. -/

namespace Sys2Proof.Machine

/-- The sixteen bytes at `cp` can be fetched, else `FetchFault` (60_exceptions R264). A command pointer that has left
the address space is past `2^32 - 16` (10_state R15; log 5). -/
def State.checkFetch (s : State) : Except FaultRequest Unit :=
  if s.cpPastTop ∨ 2 ^ 32 < s.cp.toNat + 16 then raise .fetchFault s.cp
  else if firstInvalid s.memValid s.cp.toNat < s.cp.toNat + 16 then
    raise .fetchFault (BitVec.ofNat 32 (firstInvalid s.memValid s.cp.toNat))
  else .ok ()

/-- The command at `cp`: `MemRead(cp, 16)` (30_encoding R60; 20_memory R56). -/
def State.fetchWord (s : State) : Command := BitVec.ofNat 128 (s.readLE s.cp.toNat 16)

/-- What a refused word raises: `IllegalInstruction` with W0 (60_exceptions R266). -/
def decodeFault (e : DecodeError) : FaultRequest := { code := .illegalInstruction, info := e.w0 }

/-- Fetch and decode, in that order (30_encoding R73). -/
def State.fetch (s : State) : Except FaultRequest Instr :=
  match s.checkFetch with
  | .error e => .error e
  | .ok () =>
    match decode s.fetchWord with
    | .error e => .error (decodeFault e)
    | .ok i => .ok i

/-- The command pointer a placed command goes to: `cp` where sixteen bytes fit above it, else 0. -/
def State.placeAddr (s : State) : Word := if s.cpPastTop ∨ 2 ^ 32 < s.cp.toNat + 16 then 0 else s.cp

/-- The regions with the sixteen bytes at `a` among them, added only where one of the bytes is missing. -/
def withCommandRegion (rs : List Region) (a : Nat) : List Region :=
  if firstInvalid rs a < a + 16 then { base := a, size := 16 } :: rs else rs

/-- The state with a command placed at `cp` and the engine in RUN (log 14). -/
def State.placeCommand (s : State) (c : Command) : State :=
  { s with
    cp := s.placeAddr
    cpPastTop := false
    status := .run
    mem := memWriteBytes s.mem s.placeAddr.toNat (leBytes 16 c.toNat)
    memValid := withCommandRegion s.memValid s.placeAddr.toNat }

end Sys2Proof.Machine
end

