-- ==== Sys2Proof/Machine/Step.lean ====
section
/-! DEFINITION. One step of the engine: one command in RUN, nothing otherwise (20_memory R50; 70_reset R303, R304). -/

namespace Sys2Proof.Machine

/-- One step. In RUN the command at `cp` is fetched, decoded and executed whole; a fetch or decode fault is taken
(30_encoding R73; 60_exceptions R264, R266). In IDLE, HALTED and FAULT the engine fetches nothing and keeps all
its state (46_control_metadata R240; 60_exceptions R262; 70_reset R304). -/
def step (s : State) : Host.Outcome State Fault Refusal :=
  match s.status with
  | .idle => .next s
  | .halted => .next s
  | .fault => .next s
  | .run =>
    match s.fetch with
    | .error e => .next (s.takeFault e)
    | .ok i => exec i s

/-- The state with a command placed where the very next step fetches and runs it, as a host that loads a list, writes
`CP` where that must move, and writes `CTRL.START` (70_reset R292; log 14). -/
def State.withFetchWord (s : State) (nbits w : Nat) : State := s.placeCommand (BitVec.ofNat 128 (w % 2 ^ nbits))

end Sys2Proof.Machine
end

