-- ==== Sys2Proof/Machine/Footprint.lean ====
section
/-! DEFINITION. Which bytes of memory a command stores to (20_memory R43, R46, R57, R58). -/

namespace Sys2Proof.Machine

/-- The value of a span register, an empty span where it is unwritten (10_state R12). -/
def State.spanVal (s : State) (i : RegIdx) : Span :=
  match s.sreg i with
  | .holds v => v
  | .unwritten => { base := 0, len := 0 }

/-- The size in bytes of the format an id names, 0 where it names none (41_codec_formats R120). -/
def idBytes (f : BitVec 8) : Nat := ((Fmt.ofId? f).map Fmt.bytes).getD 0

/-- A byte is one of the `n` from `a` up. -/
def inBytes (a n x : Nat) : Bool := decide (a ≤ x) && decide (x < a + n)

/-- The byte is in the first `n` elements, `z` bytes each, of a span. -/
def Span.holdsByte (sp : Span) (z n x : Nat) : Bool := inBytes sp.base.toNat (n * z) x

/-- The byte is one the command stores to where it completes: the bytes of a scalar store, the elements a bulk command
writes, the source span `FROMVEC4` destroys (20_memory R46, R58; 43_bulk R185, R186). -/
def State.storesTo (s : State) (i : Instr) (x : Nat) : Bool :=
  match i with
  | .stp _ f addr => inBytes addr.toNat (idBytes f) x
  | .stv _ addr => inBytes addr.toNat 16 x
  | .tovec4 d _ _ _ => (s.spanVal d).holdsByte 16 (s.spanVal d).len.toNat x
  | .fromvec4 d r f _ =>
    (s.spanVal d).holdsByte (idBytes f) (s.spanVal d).len.toNat x || (s.spanVal r).holdsByte 16 (s.spanVal r).len.toNat x
  | .convert d _ f _ => (s.spanVal d).holdsByte (idBytes f) (s.spanVal d).len.toNat x
  | .packplanes d r _ _ f => (s.spanVal d).holdsByte (idBytes f) (s.spanVal r).len.toNat x
  | .unpackplanes a r g b _ =>
    (s.spanVal r).holdsByte 1 (s.spanVal a).len.toNat x || (s.spanVal g).holdsByte 1 (s.spanVal a).len.toNat x
      || (s.spanVal b).holdsByte 1 (s.spanVal a).len.toNat x
  | .blend d _ _ f _ _ => (s.spanVal d).holdsByte (idBytes f) (s.spanVal d).len.toNat x
  | .blenda d _ _ _ f _ => (s.spanVal d).holdsByte (idBytes f) (s.spanVal d).len.toNat x
  | .endList | .span _ _ _ | .ldp _ _ _ | .ldv _ _ | .unpack _ _ _ | .unpacks _ _ _ | .pack _ _ _ | .packs _ _ _
  | .cvtpx _ _ _ _ | .mkpx _ _ _ | .parsehex _ _ | .setbl _ _ | .blendpx _ _ _ _ | .fmtinfo _ | .mkinfo _ _
  | .pxinfo _ _ | .rdci _ => false

end Sys2Proof.Machine
end

