-- ==== Sys2Proof/Machine/HostPort.lean ====
section
/-! DEFINITION. What the host can do to the engine: between two commands, the register block (10_state R17 to R24) and
memory accesses (20_memory R53; 70_reset R292); in the middle of a command, a reset (70_reset R290; log 11). Accesses that
race with a command stand in `Machine/Race.lean`. -/

namespace Sys2Proof.Machine

/-! ## The registers as words (10_state R17 to R21) -/

/-- `STATUS`: `state` in bits 1:0 (10_state R17). -/
def EngineState.word : EngineState → Word
  | .idle => 0
  | .run => 1
  | .halted => 2
  | .fault => 3

/-- `CI_HDR`: `count` in bits 7:0, `bpp` in bits 23:8 (10_state R21). -/
def CompInfo.hdrWord (c : CompInfo) : Word := (c.bpp ++ c.count).setWidth 32

/-- `CI_PAD`: `padding` in bits 15:0 (10_state R21). -/
def CompInfo.padWord (c : CompInfo) : Word := c.padding.setWidth 32

/-- `CI_PREC<k>`: `prec[4k+j]` in bits `8j+7:8j` (10_state R21). -/
def CompInfo.precWord (c : CompInfo) (k : Nat) : Word :=
  c.slot (4 * k + 3) ++ c.slot (4 * k + 2) ++ c.slot (4 * k + 1) ++ c.slot (4 * k)

/-- A register of the host map (10_state R23). -/
inductive HostReg where
  | ctrl | status | cp | faultCode | faultCp | faultInfo | opsReady | blender | ciHdr | ciPad
  | ciPrec (k : Fin 4)
  deriving DecidableEq, Repr

/-- The register at an offset from `HOST_BASE` (10_state R23). -/
def HostReg.ofOffset? : Nat → Option HostReg
  | 0x00 => some .ctrl
  | 0x04 => some .status
  | 0x08 => some .cp
  | 0x0C => some .faultCode
  | 0x10 => some .faultCp
  | 0x14 => some .faultInfo
  | 0x18 => some .opsReady
  | 0x1C => some .blender
  | 0x20 => some .ciHdr
  | 0x24 => some .ciPad
  | 0x28 => some (.ciPrec 0)
  | 0x2C => some (.ciPrec 1)
  | 0x30 => some (.ciPrec 2)
  | 0x34 => some (.ciPrec 3)
  | _ => none

/-- The word the host reads from a register; `CTRL` reads zero (10_state R23). -/
def State.hostWord (s : State) : HostReg → Word
  | .ctrl => 0
  | .status => s.status.word
  | .cp => s.cp
  | .faultCode => BitVec.ofNat 32 s.faultCode.number
  | .faultCp => s.faultCp
  | .faultInfo => s.faultInfo
  | .opsReady => s.opsReady
  | .blender => s.blender.word
  | .ciHdr => s.ci.hdrWord
  | .ciPad => s.ci.padWord
  | .ciPrec k => s.ci.precWord k.val

/-! ## Host register accesses (10_state R23, R24) -/

/-- A host read of the word at an offset; none where the map lists no register, about which nothing is promised
(93 G11; log 13). -/
def State.hostRead (s : State) (offset : Nat) : Option Word := (HostReg.ofOffset? offset).map s.hostWord

/-- The offset of a host address from `HOST_BASE`; an address below it is outside the map (10_state R23; logs 10, 13). -/
def hostOffset (address : Nat) : Option Nat :=
  if Config.hostBase ≤ address then some (address - Config.hostBase) else none

/-- A host read at an address (10_state R23; logs 10, 13). -/
def State.hostReadAt (s : State) (address : Nat) : Option Word := (hostOffset address).bind s.hostRead

/-- `CTRL.START`: IDLE and HALTED go to RUN, in RUN and FAULT the write is ignored (10_state R24). -/
def State.start (s : State) : State :=
  match s.status with
  | .idle => { s with status := .run }
  | .halted => { s with status := .run }
  | .run => s
  | .fault => s

/-- A write to `CTRL`: `RESET` (bit 1) before `START` (bit 0) (10_state R24). A reset in RUN abandons the command in
progress; here none is in progress, for the case that one is see `abandonCommand`. -/
def State.writeCtrl (s : State) (v : Word) : State :=
  if v.getLsbD 1 then s.ctrlReset else if v.getLsbD 0 then s.start else s

/-- A write to `CP`, ignored in RUN (10_state R23, R24). -/
def State.writeCp (s : State) (v : Word) : State :=
  match s.status with
  | .run => s
  | .idle => { s with cp := v, cpPastTop := false }
  | .halted => { s with cp := v, cpPastTop := false }
  | .fault => { s with cp := v, cpPastTop := false }

/-- A host write of a word at an offset: `CTRL` and `CP` are the writable registers (10_state R23; 93 G11). -/
def State.hostWrite (s : State) (offset : Nat) (v : Word) : Host.Outcome State Fault Refusal :=
  match HostReg.ofOffset? offset with
  | some .ctrl => .next (s.writeCtrl v)
  | some .cp => .next (s.writeCp v)
  | _ => .refused (.hostAccess offset)

/-- A host write at an address (10_state R23; logs 10, 13). -/
def State.hostWriteAt (s : State) (address : Nat) (v : Word) : Host.Outcome State Fault Refusal :=
  match hostOffset address with
  | some offset => s.hostWrite offset v
  | none => .refused (.hostAccess address)

/-! ## Host memory accesses between two commands (20_memory R53; 70_reset R292; log 13)

The hardware checks no partition (70_reset R301): an access between two commands of a run sees what the commands before
it stored, and the commands after it see what it stored. -/

/-- The byte is in the space and in `MEM_VALID`. -/
def State.hasByte (s : State) (a : Nat) : Bool := decide (a < 2 ^ 32) && validAddr s.memValid a

/-- The host stores a byte, whatever the engine's state (20_memory R53). -/
def State.hostStoreByte (s : State) (a : Nat) (b : Byte) : Host.Outcome State Fault Refusal :=
  if s.hasByte a then .next { s with mem := memWrite s.mem a b } else .refused (.hostAccess a)

/-- The host loads a byte, whatever the engine's state (20_memory R53). -/
def State.hostLoadByte (s : State) (a : Nat) : Host.Outcome Byte Fault Refusal :=
  if s.hasByte a then .next (s.readByte a) else .refused (.hostAccess a)

/-! ## A reset in the middle of a command (70_reset R290; 93 G10; log 11) -/

/-- Every byte the abandoned command was writing has its old or its new value, by a free choice. -/
def mixedMemory (before : State) (after : List Host.Cell) : List Host.Cell :=
  after.map fun c => (c.1, if Config.abandonedByteIsNew before.draws c.1 then c.2 else before.readByte c.1)

/-- What a command abandoned in state `s` leaves of the state `t` it would have given: begun on its elements, it has set
its bits (43_bulk R180) and each byte it writes is old or new; before that, it has written no byte and set any of its
bits (R181). `begun`: the host has seen a byte it wrote, so it had begun. -/
def State.abandonFrom (s t : State) (begun : Bool) : State :=
  if begun || Config.abandonedBegun s.draws then
    { s with mem := mixedMemory s t.mem, opsReady := t.opsReady, draws := s.draws + 1 }
  else
    { s with opsReady := s.opsReady ||| (t.opsReady &&& Config.abandonedTouched s.draws), draws := s.draws + 1 }

/-- What the command at `cp` leaves where it is abandoned with no host access racing with it; with one, see
`State.raceReset`. -/
def State.abandoned (s : State) : State :=
  match step s with
  | .next t => s.abandonFrom t false
  | .fault _ => s
  | .refused _ => s

/-- `CTRL.RESET` while the command at `cp` is in progress (70_reset R290). -/
def State.abandonCommand (s : State) : State := s.abandoned.ctrlReset

/-- The platform's reset while the command at `cp` is in progress (70_reset R290). -/
def State.abandonPlatform (s : State) : State := s.abandoned.platformReset

end Sys2Proof.Machine
end

