-- ==== Sys2Proof/Machine/Race.lean ====
section
/-! DEFINITION. What the host does while one command is in progress (20_memory R52, R53; 70_reset R301; 93 G5; log 12):
any number of stores, loads and register reads, in the host's own order, and a reset at the end. The hardware checks no
partition, so all of it is legal. How the accesses interleave with the command is the environment's to choose: it is an
argument, and every value of it is allowed. -/

namespace Sys2Proof.Machine

/-! ## A command whose reads see a view -/

/-- The effect of one command, its reads of memory through a view (20_memory R52). -/
def execSeeing (see : View) (i : Instr) (s : State) : Host.Outcome State Fault Refusal :=
  match i with
  | .ldp pd f addr => execLdpSeeing see pd f addr s
  | .ldv vd addr => execLdvSeeing see vd addr s
  | .parsehex pd stext => execParsehexSeeing see pd stext s
  | .tovec4 sdst ssrc f m => execTovec4Seeing see sdst ssrc f m s
  | .fromvec4 sdst ssrc f m => execFromvec4Seeing see sdst ssrc f m s
  | .convert sdst ssrc fdst fsrc => execConvertSeeing see sdst ssrc fdst fsrc s
  | .packplanes sdst sr sg sb f => execPackplanesSeeing see sdst sr sg sb f s
  | .unpackplanes ssrc sr sg sb f => execUnpackplanesSeeing see ssrc sr sg sb f s
  | .blend sdst sbg ssrc fdst fsrc amount => execBlendSeeing see sdst sbg ssrc fdst fsrc amount s
  | .blenda sdst sbg ssrc samt fdst fsrc => execBlendaSeeing see sdst sbg ssrc samt fdst fsrc s
  | .mkinfo sprec bpp => execMkinfoSeeing see sprec bpp s
  | .endList | .span _ _ _ | .stp _ _ _ | .stv _ _ | .unpack _ _ _ | .unpacks _ _ _ | .pack _ _ _ | .packs _ _ _
  | .cvtpx _ _ _ _ | .mkpx _ _ _ | .setbl _ _ | .blendpx _ _ _ _ | .fmtinfo _ | .pxinfo _ _ | .rdci _ => exec i s

/-! ## The host's accesses -/

/-- What the host does in the middle of a command, with the environment's choice of what it sees. -/
inductive HostAct where
  /-- store a byte -/
  | store (a : Nat) (b : Byte)
  /-- load a byte: where the command stores to it, `late` comes after that store; of a byte `FROMVEC4` destroys, a `late`
  load sees `scratch`, whatever it is (20_memory R58) -/
  | load (a : Nat) (late : Bool) (scratch : Byte)
  /-- read a register; of `OPS_READY`, the bits of `touched` among those the command sets are set by now (43_bulk R181) -/
  | readReg (offset : Nat) (touched : Word)
  deriving DecidableEq, Repr

/-- What the host sees of an access. -/
inductive HostSight where
  /-- the byte loaded -/
  | byte (b : Byte)
  /-- the word read, none where the map lists no register (log 13) -/
  | word (w : Option Word)
  deriving DecidableEq, Repr

/-- A store as the pair of its address and its byte. -/
def HostAct.store? : HostAct → Option Host.Cell
  | .store a b => some (a, b)
  | .load _ _ _ => none
  | .readReg _ _ => none

/-- The address of a memory access. -/
def HostAct.address? : HostAct → Option Nat
  | .store a _ => some a
  | .load a _ _ => some a
  | .readReg _ _ => none

/-- How the host's accesses interleave with one command (20_memory R52). -/
structure Race where
  /-- the host's accesses, in its order -/
  acts : List HostAct
  /-- how many of the host's stores the fetch of a byte sees, by address -/
  fetchSees : Nat → Nat
  /-- how many of the host's stores a read of the command sees, by operand position, element and address -/
  readSees : Nat → Nat → Nat → Nat
  /-- the command's store to the address, where the host has not seen it, comes after the host's last one -/
  engineLast : Nat → Bool

/-- The host's stores, in its order. -/
def Race.stores (r : Race) : List Host.Cell := r.acts.filterMap HostAct.store?

/-! ## Memory under several stores -/

/-- Store bytes one after another. -/
def memStores (m : List Host.Cell) (ws : List Host.Cell) : List Host.Cell := ws.foldl (fun m w => memWrite m w.1 w.2) m

/-- The memory in which every address `a` has seen the first `n a` of some stores. -/
def memSeen (m : List Host.Cell) (ws : List Host.Cell) (n : Nat → Nat) : List Host.Cell :=
  memStores m (ws.map fun w => (w.1, memRead (memStores m (ws.take (n w.1))) w.1))

/-- The state to read from where every address `a` has seen the first `n a` of some stores. -/
def State.seen (s : State) (ws : List Host.Cell) (n : Nat → Nat) : State := { s with mem := memSeen s.mem ws n }

/-- What each read of the command sees in a race: any of the racing values (20_memory R52). -/
def Race.view (r : Race) (s : State) : View := fun k i => s.seen r.stores (r.readSees k i)

/-! ## The command in a race -/

/-- The command in progress, as fetched in the race; none outside RUN and where the fetch faults. -/
def State.racingFetch (s : State) (r : Race) : Except FaultRequest (Option Instr) :=
  match s.status with
  | .idle => .ok none
  | .halted => .ok none
  | .fault => .ok none
  | .run =>
    match (s.seen r.stores r.fetchSees).fetch with
    | .error e => .error e
    | .ok i => .ok (some i)

/-- What the command in progress does in the race, the host's stores apart. -/
def State.racingStep (s : State) (r : Race) : Host.Outcome State Fault Refusal :=
  match s.racingFetch r with
  | .error e => .next (s.takeFault e)
  | .ok none => .next s
  | .ok (some i) => execSeeing (r.view s) i s

/-- The command in progress completes with `t` and stores to the byte. -/
def State.racingStores (s t : State) (r : Race) (a : Nat) : Bool :=
  match s.racingFetch r with
  | .ok (some i) => t.status != .fault && s.storesTo i a
  | .ok none => false
  | .error _ => false

/-- The byte is in the source span `FROMVEC4` destroys (20_memory R58). -/
def State.racingDestroys (s : State) (r : Race) (a : Nat) : Bool :=
  match s.racingFetch r with
  | .ok (some (.fromvec4 _ src _ _)) => (s.spanVal src).holdsByte 16 (s.spanVal src).len.toNat a
  | _ => false

/-! ## What the host sees and leaves -/

/-- What the host has seen and made so far, in the middle of a command. -/
structure Amid where
  /-- memory with the host's stores so far and those of the command that the host has seen -/
  mem : List Host.Cell
  /-- `OPS_READY` as the host has seen it: a bit seen set stays set (10_state R20; 20_memory R55) -/
  opsReady : Word
  /-- the host has seen a byte the command stored, so the command has begun on its elements (43_bulk R180) -/
  begun : Bool
  /-- where the host has seen the command's store -/
  landed : List Nat
  deriving DecidableEq, Repr

/-- Before the host's first access. -/
def State.amid (s : State) : Amid := { mem := s.mem, opsReady := s.opsReady, begun := false, landed := [] }

/-- The host has seen a store of the command that leads to `t`: every bit the command sets has been set before it
(43_bulk R180, R181). -/
def Amid.seesStore (m : Amid) (t : State) : Amid := { m with opsReady := m.opsReady ||| t.opsReady, begun := true }

/-- One access of the host while the command leads from `s` to `t`. The registers but `OPS_READY` keep their values until
the command completes (20_memory R50; log 12). -/
def State.act (s t : State) (r : Race) (m : Amid) : HostAct → Amid × Option HostSight
  | .store a b => ({ m with mem := memWrite m.mem a b }, none)
  | .load a late scratch =>
    if late && s.racingStores t r a && !m.landed.contains a then
      if s.racingDestroys r a then (m.seesStore t, some (.byte scratch))
      else
        ({ m.seesStore t with mem := memWrite m.mem a (t.readByte a), landed := a :: m.landed }, some (.byte (t.readByte a)))
    else (m, some (.byte (memRead m.mem a)))
  | .readReg offset touched =>
    if HostReg.ofOffset? offset = some .opsReady then
      let w := m.opsReady ||| (t.opsReady &&& touched)
      ({ m with opsReady := w }, some (.word (some w)))
    else (m, some (.word (s.hostRead offset)))

/-- The host's accesses in its order, and what it sees of them. -/
def State.acts (s t : State) (r : Race) : Amid → List HostAct → Amid × List HostSight
  | m, [] => (m, [])
  | m, x :: rest =>
    let (m', sight) := s.act t r m x
    let (last, seen) := s.acts t r m' rest
    (last, sight.toList ++ seen)

/-- A byte the host stored to ends as the host left it: its store came after the command's, or the command makes none. -/
def Race.hostKeeps (r : Race) (s t : State) (m : Amid) (a : Nat) : Bool :=
  m.landed.contains a || !(r.engineLast a && s.racingStores t r a)

/-- The state after the race: what the command left, and of the bytes the host stored to those it keeps
(20_memory R52; 93 G5). -/
def State.merge (s t : State) (r : Race) (m : Amid) : State :=
  { t with mem := memStores t.mem ((r.stores.filter fun w => r.hostKeeps s t m w.1).map fun w => (w.1, memRead m.mem w.1)) }

/-- The address of the first access to a byte that does not exist (93 G11; log 13). -/
def Race.missing (r : Race) (s : State) : Option Nat :=
  (r.acts.filterMap HostAct.address?).find? fun a => !s.hasByte a

/-- What the command at `cp` gives in a race without the host's stores, and what the host has seen and made at its end;
refused where an access has no byte (log 13). -/
def State.raced (s : State) (r : Race) : Host.Outcome (State × Amid × List HostSight) Fault Refusal :=
  match r.missing s with
  | some a => .refused (.hostAccess a)
  | none =>
    match s.racingStep r with
    | .next t => .next (t, s.acts t r s.amid r.acts)
    | .fault e => .fault e
    | .refused e => .refused e

/-- The command at `cp` and everything the host does while it is in progress: the state they leave, and what the host
sees (20_memory R52, R53). -/
def State.race (s : State) (r : Race) : Host.Outcome (State × List HostSight) Fault Refusal :=
  match s.raced r with
  | .next (t, m, seen) => .next (s.merge t r m, seen)
  | .fault e => .fault e
  | .refused e => .refused e

/-- As `race`, with the command abandoned by a reset after the host's accesses, the platform's or `CTRL.RESET`: what the
host has seen stands (70_reset R290; 10_state R20; log 11). -/
def State.raceReset (s : State) (r : Race) (platform : Bool) : Host.Outcome (State × List HostSight) Fault Refusal :=
  match s.raced r with
  | .next (t, m, seen) =>
    let u := { s with mem := m.mem, opsReady := m.opsReady }.abandonFrom (s.merge t r m) m.begun
    .next (if platform then u.platformReset else u.ctrlReset, seen)
  | .fault e => .fault e
  | .refused e => .refused e

end Sys2Proof.Machine
end

