-- ==== Sys2Proof/WellFormed.lean ====
section
/-! DEFINITION. When a command has legal operands: format ids below 26, blend modes below 9, operators below 12
(30_encoding R63, R65; 41_codec_formats R150; 44_blend R201, R202). Register indices, modifiers and immediates
are legal at every value (30_encoding R62, R64, R66). -/

namespace Sys2Proof

/-- A legal format id (30_encoding R63). -/
def legalFormat (f : BitVec 8) : Bool := f < 26#8

/-- A legal blend mode code (44_blend R201). -/
def legalMode (m : BitVec 4) : Bool := m < 9#4

/-- A legal composition operator code (44_blend R202). -/
def legalOp (o : BitVec 4) : Bool := o < 12#4

/-- The operands of a command are legal; a command that is not well formed raises `InvalidFormat` or `InvalidBlender`
(60_exceptions R267, R268). -/
def Instr.wellFormed : Instr → Bool
  | .endList => true
  | .span _ _ _ => true
  | .ldp _ f _ => legalFormat f
  | .stp _ f _ => legalFormat f
  | .ldv _ _ => true
  | .stv _ _ => true
  | .unpack _ _ f => legalFormat f
  | .unpacks _ _ f => legalFormat f
  | .pack _ _ f => legalFormat f
  | .packs _ _ f => legalFormat f
  | .cvtpx _ _ fdst fsrc => legalFormat fdst && legalFormat fsrc
  | .mkpx _ f _ => legalFormat f
  | .parsehex _ _ => true
  | .tovec4 _ _ f _ => legalFormat f
  | .fromvec4 _ _ f _ => legalFormat f
  | .convert _ _ fdst fsrc => legalFormat fdst && legalFormat fsrc
  | .packplanes _ _ _ _ f => legalFormat f
  | .unpackplanes _ _ _ _ f => legalFormat f
  | .setbl mode op => legalMode mode && legalOp op
  | .blendpx _ _ _ _ => true
  | .blend _ _ _ fdst fsrc _ => legalFormat fdst && legalFormat fsrc
  | .blenda _ _ _ _ fdst fsrc => legalFormat fdst && legalFormat fsrc
  | .fmtinfo f => legalFormat f
  | .mkinfo _ _ => true
  | .pxinfo _ _ => true
  | .rdci _ => true

end Sys2Proof
end

