-- ==== Sys2Proof/Safety.lean ====
section
/-! DEFINITION. The terms claims are stated in: what a fault leaves (60_exceptions R262), what a completed command leaves
(its frame), when a range of bytes exists, and the invariant of the machine. -/

namespace Sys2Proof.Machine

/-! ## Memory in claims -/

/-- The `n` bytes from `a` up fit the address space and are all in `MEM_VALID` (20_memory R47). -/
def ValidRange (s : State) (a n : Nat) : Prop := a + n ≤ 2 ^ 32 ∧ ∀ k, k < n → validAddr s.memValid (a + k) = true

/-- The ranges of `n` bytes at `a` and `m` bytes at `b` share no byte; an empty range shares none (20_memory R57). -/
def RangesDisjoint (a n b m : Nat) : Prop := n = 0 ∨ m = 0 ∨ a + n ≤ b ∨ b + m ≤ a

/-- Byte `k` of a value, bits `8k+7:8k` (20_memory R42). -/
def byteOf {w : Nat} (v : BitVec w) (k : Nat) : Byte := v.extractLsb' (8 * k) 8

/-- The addresses of `n` bytes from `a` up. -/
def InRange (a n x : Nat) : Prop := a ≤ x ∧ x < a + n

/-! ## Frames -/

/-- The registers of each file a command may write, and which control registers. -/
structure Changes where
  p : Option RegIdx := none
  v : Option RegIdx := none
  span : Option RegIdx := none
  blender : Bool := false
  opsReady : Bool := false
  ci : Bool := false
  status : Bool := false

/-- Everything but what `c` names and the bytes of memory `stored` is unchanged: the other registers of the three
files, `BLENDER`, `OPS_READY`, `CI`, `STATUS`, the fault registers, `MEM_VALID`, every other byte. -/
structure Frame (c : Changes) (stored : Nat → Prop) (s t : State) : Prop where
  pregs : ∀ i, c.p ≠ some i → t.preg i = s.preg i
  vregs : ∀ i, c.v ≠ some i → t.vreg i = s.vreg i
  sregs : ∀ i, c.span ≠ some i → t.sreg i = s.sreg i
  blender : c.blender = false → t.blender = s.blender
  opsReady : c.opsReady = false → t.opsReady = s.opsReady
  ci : c.ci = false → t.ci = s.ci
  status : c.status = false → t.status = s.status
  faultCode : t.faultCode = s.faultCode
  faultCp : t.faultCp = s.faultCp
  faultInfo : t.faultInfo = s.faultInfo
  memValid : t.memValid = s.memValid
  memory : ∀ a, ¬ stored a → t.readByte a = s.readByte a

/-- No byte of memory. -/
def noBytes : Nat → Prop := fun _ => False

/-- The command pointer has moved past the command: `cp + 16`, or past the top of the space where that does not fit 32
bits (10_state R15; log 5); one more command is counted (log 4). -/
structure Retired (s t : State) : Prop where
  inside : s.cp.toNat + 16 < 2 ^ 32 → t.cp.toNat = s.cp.toNat + 16 ∧ t.cpPastTop = s.cpPastTop
  top : 2 ^ 32 ≤ s.cp.toNat + 16 → t.cpPastTop = true
  counted : t.draws = s.draws + 1

/-! ## Faults -/

/-- `t` is `s` with a fault taken: the three fault registers and `STATUS.state` written, and nothing else changed, `cp`
and every byte of memory among it (60_exceptions R262). -/
structure FaultTaken (code : FaultCode) (info : Word) (s t : State) : Prop where
  code : t.faultCode = code
  atCp : t.faultCp = s.cp
  info : t.faultInfo = info
  stopped : t.status = .fault
  cp : t.cp = s.cp ∧ t.cpPastTop = s.cpPastTop
  pregs : ∀ i, t.preg i = s.preg i
  vregs : ∀ i, t.vreg i = s.vreg i
  sregs : ∀ i, t.sreg i = s.sreg i
  blender : t.blender = s.blender
  opsReady : t.opsReady = s.opsReady
  ci : t.ci = s.ci
  memory : ∀ a, t.readByte a = s.readByte a
  memValid : t.memValid = s.memValid
  uncounted : t.draws = s.draws

/-- Executing the command takes the fault. -/
def Faults (i : Instr) (s : State) (code : FaultCode) (info : Word) : Prop :=
  ∃ t, exec i s = .next t ∧ FaultTaken code info s t

/-! ## Operands of a command in claims -/

/-- The format ids a command names, with the bit that tells `fmt1` from `fmt0`, in the order they are judged
(30_encoding R73; 60_exceptions R267). -/
def Instr.formats : Instr → List (BitVec 8 × Bool)
  | .endList | .span _ _ _ | .ldv _ _ | .stv _ _ | .parsehex _ _ | .setbl _ _ | .blendpx _ _ _ _ | .mkinfo _ _
  | .pxinfo _ _ | .rdci _ => []
  | .ldp _ f _ | .stp _ f _ | .unpack _ _ f | .unpacks _ _ f | .pack _ _ f | .packs _ _ f | .mkpx _ f _
  | .tovec4 _ _ f _ | .fromvec4 _ _ f _ | .packplanes _ _ _ _ f | .unpackplanes _ _ _ _ f | .fmtinfo f => [(f, false)]
  | .cvtpx _ _ d s | .convert _ _ d s | .blend _ _ _ d s _ | .blenda _ _ _ _ d s => [(d, false), (s, true)]

/-- The information word of `InvalidFormat` (60_exceptions R267). -/
def formatInfo (f : BitVec 8 × Bool) : Word := BitVec.ofNat 32 (f.1.toNat + if f.2 then 0x100 else 0)

/-- A register a command reads: its file (0 = P, 1 = V, 2 = S) and its index (60_exceptions R273). -/
structure Source where
  file : Fin 3
  index : RegIdx
  deriving DecidableEq, Repr

/-- The registers a command reads, in field order; a bulk command reads every span it names (60_exceptions R273). -/
def Instr.sources : Instr → List Source
  | .endList | .span _ _ _ | .ldp _ _ _ | .ldv _ _ | .mkpx _ _ _ | .setbl _ _ | .fmtinfo _ | .pxinfo _ _ | .rdci _ => []
  | .stp ps _ _ => [⟨0, ps⟩]
  | .stv vs _ => [⟨1, vs⟩]
  | .unpack _ ps _ | .unpacks _ ps _ | .cvtpx _ ps _ _ => [⟨0, ps⟩]
  | .pack _ vs _ | .packs _ vs _ => [⟨1, vs⟩]
  | .parsehex _ st => [⟨2, st⟩]
  | .tovec4 d r _ _ | .fromvec4 d r _ _ | .convert d r _ _ => [⟨2, d⟩, ⟨2, r⟩]
  | .packplanes a r g b _ | .unpackplanes a r g b _ => [⟨2, a⟩, ⟨2, r⟩, ⟨2, g⟩, ⟨2, b⟩]
  | .blendpx _ b r _ => [⟨1, b⟩, ⟨1, r⟩]
  | .blend d b r _ _ _ => [⟨2, d⟩, ⟨2, b⟩, ⟨2, r⟩]
  | .blenda d b r a _ _ => [⟨2, d⟩, ⟨2, b⟩, ⟨2, r⟩, ⟨2, a⟩]
  | .mkinfo p _ => [⟨2, p⟩]

/-- The register has not been written since reset (10_state R13). -/
def State.isUnwritten (s : State) (r : Source) : Bool :=
  match r.file with
  | 0 => s.preg r.index == .unwritten
  | 1 => s.vreg r.index == .unwritten
  | 2 => s.sreg r.index == .unwritten

/-- The information word of `UnwrittenRegister` (60_exceptions R273). -/
def sourceInfo (r : Source) : Word := BitVec.ofNat 32 (16 * r.file.val + r.index.toNat)

/-! ## Spans, lengths and accesses of a command in claims -/

/-- A span register a bulk command names: its element size, and whether the command writes it (20_memory R43, R57). -/
structure SpanField where
  reg : RegIdx
  elem : Nat
  written : Bool
  deriving DecidableEq, Repr

/-- The spans of a bulk command in field order (43_bulk R182 to R186; 44_blend R231, R232). -/
def Instr.spanFields : Instr → List SpanField
  | .tovec4 d r f _ => [⟨d, 16, true⟩, ⟨r, idBytes f, false⟩]
  | .fromvec4 d r f _ => [⟨d, idBytes f, true⟩, ⟨r, 16, false⟩]
  | .convert d r fd fs => [⟨d, idBytes fd, true⟩, ⟨r, idBytes fs, false⟩]
  | .packplanes d r g b f => [⟨d, idBytes f, true⟩, ⟨r, 1, false⟩, ⟨g, 1, false⟩, ⟨b, 1, false⟩]
  | .unpackplanes a r g b f => [⟨a, idBytes f, false⟩, ⟨r, 1, true⟩, ⟨g, 1, true⟩, ⟨b, 1, true⟩]
  | .blend d b r fd fs _ => [⟨d, idBytes fd, true⟩, ⟨b, idBytes fd, false⟩, ⟨r, idBytes fs, false⟩]
  | .blenda d b r a fd fs =>
    [⟨d, idBytes fd, true⟩, ⟨b, idBytes fd, false⟩, ⟨r, idBytes fs, false⟩, ⟨a, 4, false⟩]
  | .endList | .span _ _ _ | .ldp _ _ _ | .stp _ _ _ | .ldv _ _ | .stv _ _ | .unpack _ _ _ | .unpacks _ _ _
  | .pack _ _ _ | .packs _ _ _ | .cvtpx _ _ _ _ | .mkpx _ _ _ | .parsehex _ _ | .setbl _ _ | .blendpx _ _ _ _
  | .fmtinfo _ | .mkinfo _ _ | .pxinfo _ _ | .rdci _ => []

/-- The base and the size in bytes of a span field (20_memory R43). -/
def State.extent (s : State) (u : SpanField) : Word × Nat :=
  ((s.spanVal u.reg).base, (s.spanVal u.reg).len.toNat * u.elem)

/-- The bytes of data a command accesses, one range for the single access of a scalar command, one for every span, in
field order (60_exceptions R265). -/
def Instr.accesses (s : State) (i : Instr) : List (Word × Nat) :=
  match i with
  | .ldp _ f addr | .stp _ f addr => [(addr, idBytes f)]
  | .ldv _ addr | .stv _ addr => [(addr, 16)]
  | .parsehex _ st => [((s.spanVal st).base, (s.spanVal st).len.toNat)]
  | .mkinfo p _ => [((s.spanVal p).base, (s.spanVal p).len.toNat * 4)]
  | .tovec4 _ _ _ _ | .fromvec4 _ _ _ _ | .convert _ _ _ _ | .packplanes _ _ _ _ _ | .unpackplanes _ _ _ _ _
  | .blend _ _ _ _ _ _ | .blenda _ _ _ _ _ _ => (Instr.spanFields i).map s.extent
  | .endList | .span _ _ _ | .unpack _ _ _ | .unpacks _ _ _ | .pack _ _ _ | .packs _ _ _ | .cvtpx _ _ _ _
  | .mkpx _ _ _ | .setbl _ _ | .blendpx _ _ _ _ | .fmtinfo _ | .pxinfo _ _ | .rdci _ => []

/-- The first of some lengths that differs from a reference (60_exceptions R269). -/
def firstDifferent (ref : Word) (lens : List Word) : Option Word := lens.find? (· != ref)

/-- The length of the pixel span where the planes cannot carry it (60_exceptions R269). -/
def planeMisfit (short long pixels : Word) : Option Word := if short.toNat ≤ long.toNat then none else some pixels

/-- The offending length of a bulk command, none where its length conditions hold (60_exceptions R269). -/
def Instr.badLength (s : State) (i : Instr) : Option Word :=
  let len (r : RegIdx) : Word := (s.spanVal r).len
  match i with
  | .tovec4 d r _ _ | .fromvec4 d r _ _ | .convert d r _ _ => firstDifferent (len d) [len r]
  | .blend d b r _ _ _ => firstDifferent (len d) [len b, len r]
  | .blenda d b r a _ _ => firstDifferent (len d) [len b, len r, len a]
  | .packplanes d r g b _ => (firstDifferent (len r) [len g, len b]).or (planeMisfit (len r) (len d) (len d))
  | .unpackplanes a r g b _ => (firstDifferent (len r) [len g, len b]).or (planeMisfit (len a) (len r) (len a))
  | .endList | .span _ _ _ | .ldp _ _ _ | .stp _ _ _ | .ldv _ _ | .stv _ _ | .unpack _ _ _ | .unpacks _ _ _
  | .pack _ _ _ | .packs _ _ _ | .cvtpx _ _ _ _ | .mkpx _ _ _ | .parsehex _ _ | .setbl _ _ | .blendpx _ _ _ _
  | .fmtinfo _ | .mkinfo _ _ | .pxinfo _ _ | .rdci _ => none

/-- A command whose destination may be its backdrop (20_memory R57). -/
def Instr.mayBeInPlace : Instr → Bool
  | .blend _ _ _ _ _ _ | .blenda _ _ _ _ _ _ => true
  | .endList | .span _ _ _ | .ldp _ _ _ | .stp _ _ _ | .ldv _ _ | .stv _ _ | .unpack _ _ _ | .unpacks _ _ _
  | .pack _ _ _ | .packs _ _ _ | .cvtpx _ _ _ _ | .mkpx _ _ _ | .parsehex _ _ | .tovec4 _ _ _ _ | .fromvec4 _ _ _ _
  | .convert _ _ _ _ | .packplanes _ _ _ _ _ | .unpackplanes _ _ _ _ _ | .setbl _ _ | .blendpx _ _ _ _ | .fmtinfo _
  | .mkinfo _ _ | .pxinfo _ _ | .rdci _ => false

/-- The spans at field positions `a` and `b` break the aliasing rule: the command writes the first, the two share a
byte, and they are not the destination and the backdrop of a blend at one base (20_memory R57; 60_exceptions R272). -/
def OverlapAt (s : State) (i : Instr) (a b : Nat) : Prop :=
  ∃ u v, (Instr.spanFields i)[a]? = some u ∧ (Instr.spanFields i)[b]? = some v ∧ u.written = true ∧ a ≠ b ∧
    ¬ RangesDisjoint (s.extent u).1.toNat (s.extent u).2 (s.extent v).1.toNat (s.extent v).2 ∧
    ¬ (Instr.mayBeInPlace i = true ∧ a = 0 ∧ b = 1 ∧ (s.extent u).1 = (s.extent v).1)

/-- The pair (a, b) is examined no later than (c, d): written spans in field order, each against every other in field
order (60_exceptions R272). -/
def PairNotAfter (a b c d : Nat) : Prop := a < c ∨ (a = c ∧ b ≤ d)

/-- What is wrong with the bytes of one access: its base where the extent passes `2^32`, else the lowest address that
does not exist (60_exceptions R265). -/
def BadAccess (s : State) (r : Word × Nat) (info : Word) : Prop :=
  (2 ^ 32 < r.1.toNat + r.2 ∧ info = r.1) ∨
    (r.1.toNat + r.2 ≤ 2 ^ 32 ∧ r.1.toNat ≤ info.toNat ∧ info.toNat < r.1.toNat + r.2 ∧
      validAddr s.memValid info.toNat = false ∧
      ∀ a, r.1.toNat ≤ a → a < info.toNat → validAddr s.memValid a = true)

/-- Steps 3 and 4 of the checks pass: legal fields, and every register the command reads has been written
(60_exceptions R274). -/
def SourcesReady (s : State) (i : Instr) : Prop :=
  i.wellFormed = true ∧ ∀ r ∈ Instr.sources i, s.isUnwritten r = false

/-- Steps 3 to 5 pass: the length conditions too, and `MKINFO` has at most sixteen entries (60_exceptions R274). -/
def LengthsReady (s : State) (i : Instr) : Prop :=
  SourcesReady s i ∧ Instr.badLength s i = none ∧ ∀ p bpp, i = .mkinfo p bpp → (s.spanVal p).len.toNat ≤ 16

/-! ## Values in claims -/

/-- A canonical vector as the 128 bits of its sixteen bytes: x lowest, w highest (20_memory R44). -/
def Vec4.word (v : Vec4) : BitVec 128 := v.w ++ v.z ++ v.y ++ v.x

/-- Element `i`, `z` bytes wide, of the span at `base` holds a value's bytes, lowest first (20_memory R42, R43). -/
def ElementHolds {w : Nat} (t : State) (base : Word) (z i : Nat) (v : BitVec w) : Prop :=
  ∀ k, k < z → t.readByte (base.toNat + i * z + k) = byteOf v k

/-- The bits of `OPS_READY` of the formats are set and no other bit changes (43_bulk R181). -/
def OpsTouched (fs : List Fmt) (s t : State) : Prop :=
  ∀ k, t.opsReady.getLsbD k = (s.opsReady.getLsbD k || fs.any (fun f => Fmt.id f == k))

/-- `c` is a hexadecimal digit of value `d`, either case (42_scalar_codec R171). -/
def IsHexDigit (c : Byte) (d : Nat) : Prop :=
  (0x30 ≤ c.toNat ∧ c.toNat ≤ 0x39 ∧ c.toNat = 0x30 + d) ∨ (0x41 ≤ c.toNat ∧ c.toNat ≤ 0x46 ∧ c.toNat + 10 = 0x41 + d) ∨
    (0x61 ≤ c.toNat ∧ c.toNat ≤ 0x66 ∧ c.toNat + 10 = 0x61 + d)

/-- The bytes of the text in a span after an optional leading number sign are the `n` characters from `skip` on
(42_scalar_codec R171). -/
def HexText (s : State) (sp : Span) (skip n : Nat) : Prop :=
  sp.len.toNat = skip + n ∧
    ((skip = 1 ∧ s.readByte sp.base.toNat = 0x23) ∨
      (skip = 0 ∧ (sp.len.toNat = 0 ∨ s.readByte sp.base.toNat ≠ 0x23)))

/-- The lengths of a hexadecimal pixel (42_scalar_codec R171). -/
def HexLength (n : Nat) : Prop := n = 3 ∨ n = 4 ∨ n = 6 ∨ n = 8

/-- Component `c` of a pixel spelled by the digits `d`: red, green, blue, alpha (42_scalar_codec R171). -/
def hexComponent (d : List Nat) (c : Nat) : Nat :=
  if c = 3 ∧ (d.length = 3 ∨ d.length = 6) then 255
  else if d.length ≤ 4 then d.getD c 0 * 17
  else d.getD (2 * c) 0 * 16 + d.getD (2 * c + 1) 0

/-- A binary32 that is neither an infinity nor a NaN (40_canonical_model R80). -/
def F32.isFinite (x : F32) : Bool := F32.magnitude x < 0x7F800000

/-- The exact value of a finite binary32 (40_canonical_model R80). -/
def F32.value (x : F32) : ℚ := (F32.signedSignificand x : ℚ) * (2 : ℚ) ^ (F32.exponent x)

/-- `r` is `x` rounded to nearest, ties to even: no finite binary32 is nearer, and where another value is as near the
significand of `r` is even (40_canonical_model R81). -/
def NearestTo (x : ℚ) (r : F32) : Prop :=
  ∀ c : F32, F32.isFinite c = true →
    |F32.value r - x| ≤ |F32.value c - x| ∧
      (|F32.value r - x| = |F32.value c - x| → F32.value c ≠ F32.value r → F32.significand r % 2 = 0)

/-- `r` is the exact `x` rounded as binary32 is: nearest and finite below the overflow threshold 2^128 - 2^103, which
lies half a quantum above the largest finite value, the infinity of the sign from there on (40_canonical_model R81). -/
def RoundsTo (x : ℚ) (r : F32) : Prop :=
  (|x| < 2 ^ 128 - 2 ^ 103 → F32.isFinite r = true ∧ NearestTo x r) ∧
    (2 ^ 128 - 2 ^ 103 ≤ x → r = 0x7F800000) ∧ (x ≤ -(2 ^ 128 - 2 ^ 103) → r = 0xFF800000)

/-- The exponent field of a binary16 pattern (40_canonical_model R96). -/
def halfExponent (h : BitVec 16) : Nat := h.toNat / 2 ^ 10 % 2 ^ 5

/-- The exact value of a finite binary16: sign, five bits of exponent, ten of fraction (40_canonical_model R96). -/
def halfValue (h : BitVec 16) : ℚ :=
  (if h.getLsbD 15 then -1 else 1) *
    (if halfExponent h = 0 then (h.toNat % 2 ^ 10 : Nat) * (2 : ℚ) ^ (-24 : Int)
      else (h.toNat % 2 ^ 10 + 2 ^ 10 : Nat) * (2 : ℚ) ^ ((halfExponent h : Int) - 25))

/-- `p` is `x` rounded to binary16, to nearest, ties to even: finite, no finite binary16 is nearer, and where another value
is as near the last bit of `p` is 0 (40_canonical_model R96). -/
def NearestHalf (x : ℚ) (p : BitVec 16) : Prop :=
  halfExponent p ≠ 31 ∧ ∀ h : BitVec 16, halfExponent h ≠ 31 →
    |halfValue p - x| ≤ |halfValue h - x| ∧
      (|halfValue p - x| = |halfValue h - x| → halfValue h ≠ halfValue p → p.getLsbD 0 = false)

/-- The packed value fits its format, and no field is one of the codes that do not survive a round trip: the most
negative signed code, a half infinity or NaN (40_canonical_model R107). -/
def RoundTrips (f : Fmt) (p : Pixel) : Prop :=
  p.toNat < 2 ^ Fmt.bits f ∧ ∀ fld ∈ Fmt.fields f,
    (fld.kind = .signed → p.toNat / 2 ^ fld.lo % 2 ^ fld.width ≠ 2 ^ (fld.width - 1)) ∧
      (fld.kind = .half → p.toNat / 2 ^ (fld.lo + 10) % 2 ^ 5 ≠ 31)

/-! ## What a command may write -/

/-- The registers a command writes where it completes (10_state R13, the table of files; R19 to R21). -/
def Instr.writes : Instr → Changes
  | .endList => { status := true }
  | .span d _ _ => { span := some d }
  | .ldp d _ _ | .pack d _ _ | .packs d _ _ | .cvtpx d _ _ _ | .mkpx d _ _ | .parsehex d _ | .pxinfo d _ | .rdci d =>
    { p := some d }
  | .ldv d _ | .unpack d _ _ | .unpacks d _ _ | .blendpx d _ _ _ => { v := some d }
  | .tovec4 _ _ _ _ | .fromvec4 _ _ _ _ | .convert _ _ _ _ | .packplanes _ _ _ _ _ | .unpackplanes _ _ _ _ _
  | .blend _ _ _ _ _ _ | .blenda _ _ _ _ _ _ => { opsReady := true }
  | .setbl _ _ => { blender := true }
  | .fmtinfo _ | .mkinfo _ _ => { ci := true }
  | .stp _ _ _ | .stv _ _ => {}

/-- The byte may be changed by the command: it lies in the bytes of the store of a scalar command, in a span the command
writes, or in the source span of `FROMVEC4` (20_memory R58). -/
def MayStore (s : State) (i : Instr) (a : Nat) : Prop :=
  (∃ ps f addr, i = .stp ps f addr ∧ InRange addr.toNat (idBytes f) a) ∨
    (∃ vs addr, i = .stv vs addr ∧ InRange addr.toNat 16 a) ∨
    (∃ u ∈ Instr.spanFields i, u.written = true ∧ InRange (s.extent u).1.toNat (s.extent u).2 a) ∨
    (∃ d r f m, i = .fromvec4 d r f m ∧ InRange (s.spanVal r).base.toNat ((s.spanVal r).len.toNat * 16) a)

/-! ## The invariant -/

/-- A descriptor that can exist: at most sixteen components, slots past the count zero, and the precisions and the
padding make up the pixel (10_state R21). -/
def CompInfo.ok (c : CompInfo) : Prop :=
  c.count.toNat ≤ 16 ∧ (∀ k : Fin 16, c.count.toNat ≤ k.val → c.prec[k.val] = 0) ∧
    (c.prec.toList.map BitVec.toNat).sum + c.padding.toNat = c.bpp.toNat

/-- What every step keeps, from every state: the memory's canonical form, the zero bits of `OPS_READY`
(10_state R20), the descriptor's invariant (R21), the fault registers zero until a fault and set by it (R18), and a
command pointer past the top only in RUN and FAULT (R15). -/
structure Inv (s : State) : Prop where
  memory : Memory.wf s.mem = true
  opsReady : s.opsReady.toNat < 2 ^ 26
  ci : s.ci.ok
  noFault : s.status ≠ .fault → s.faultCode = .noFault ∧ s.faultCp = 0 ∧ s.faultInfo = 0
  fault : s.status = .fault → s.faultCode ≠ .noFault
  cpTop : s.cpPastTop = true → s.status = .run ∨ s.status = .fault

end Sys2Proof.Machine
end

