-- ==== Sys2Proof/Certificates/Slice0/Obligations.lean ====
section
/-! DEFINITION. The statements for the provers. Each docstring names the rule of spec/ it formalises; `∃ d : Draws` stands
for the free words of `draw` (00_scope R8), so a statement holds whatever they are. -/

section

open Sys2Proof Sys2Proof.Machine

/-! ## The machine -/

/-- 20_memory R50, R56; 30_encoding R60: in RUN, where sixteen bytes at `cp` exist and decode to `i`, the step is `i`. -/
def Obligations.StepRunsTheDecodedCommand : Prop :=
  ∀ (s : State) (i : Instr), s.status = .run → s.cpPastTop = false → ValidRange s s.cp.toNat 16 →
    decodeBytes ((List.range 16).map fun k => s.readByte (s.cp.toNat + k)) = .ok i → step s = exec i s

/-- 70_reset R304; 60_exceptions R262, R277; 46_control_metadata R240: outside RUN a step changes nothing. -/
def Obligations.StoppedEngineKeepsItsState : Prop := ∀ s : State, s.status ≠ .run → step s = .next s

/-- 30_encoding R60, R61, R67: every command, at every operand value, is read back from its word and from its bytes. -/
def Obligations.DecodeReadsBackTheEncoding : Prop :=
  ∀ i : Instr, decode (encode i) = .ok i ∧ decodeBytes (encodeBytes i) = .ok i ∧ (encodeBytes i).length = 16

/-- 30_encoding R68, R69: a word decodes to `i` exactly when it is the encoding of `i`, so no bit is read loosely; and it is
the command of a row exactly when `I & mask = match`. -/
def Obligations.OnlyItsEncodingDecodesToACommand : Prop :=
  (∀ (c : Command) (i : Instr), decode c = .ok i ↔ encode i = c) ∧
  ∀ (c : Command) (r : OpcodeRow), r ∈ opcodeRows →
    (c &&& r.uses.mask = r.opcode.setWidth 128 ↔ ∃ i, decode c = .ok i ∧ (Instr.fields i).opcode = r.opcode)

/-- 30_encoding R60 to R67, the worked encodings: words of the spec decode to the commands it gives them. -/
def Obligations.WorkedEncodingsDecode : Prop :=
  decode 0x00000000000000000000000000000000 = .ok .endList ∧
  decode 0x00000004000020000000000000000101 = .ok (.span 1 0x2000 4) ∧
  decode 0x00000000000010000000000700000002 = .ok (.ldp 0 7 0x1000) ∧
  decode 0x00000000000000000000000700000210 = .ok (.unpack 2 0 7) ∧
  decode 0x00000000000000000000070C00000114 = .ok (.cvtpx 1 0 12 7) ∧
  decode 0x00000000000000000000000703000120 = .ok (.tovec4 1 0 7 3) ∧
  decode 0x00000000000000000041000000000030 = .ok (.setbl 1 4) ∧
  decode 0x000000003F0000000000070700032232 = .ok (.blend 2 2 3 7 7 0x3F000000) ∧
  decode 0x00000000000000000000000500765423 = .ok (.packplanes 4 5 6 7 5)

/-- 60_exceptions R266: a word that is no command raises `IllegalInstruction` with W0. -/
def Obligations.WordsThatAreNoCommandAreIllegal : Prop :=
  ∀ s : State, s.status = .run → s.cpPastTop = false → ValidRange s s.cp.toNat 16 →
    (∀ i, encode i ≠ BitVec.ofNat 128 (s.readLE s.cp.toNat 16)) →
    ∃ t, step s = .next t ∧ FaultTaken .illegalInstruction (BitVec.ofNat 32 (s.readLE s.cp.toNat 4)) s t

/-- 60_exceptions R264: `FetchFault` with `cp` where sixteen bytes do not fit, else with the lowest missing byte. The
case `cpPastTop` is the model's picture of a `cp` past the top (log 5). -/
def Obligations.UnfetchableCommandsFault : Prop :=
  ∀ s : State, s.status = .run →
    ((s.cpPastTop = true ∨ 2 ^ 32 - 16 < s.cp.toNat) → ∃ t, step s = .next t ∧ FaultTaken .fetchFault s.cp s t) ∧
    (∀ a : Word, s.cpPastTop = false → s.cp.toNat ≤ 2 ^ 32 - 16 → s.cp.toNat ≤ a.toNat → a.toNat < s.cp.toNat + 16 →
      validAddr s.memValid a.toNat = false →
      (∀ b, s.cp.toNat ≤ b → b < a.toNat → validAddr s.memValid b = true) →
      ∃ t, step s = .next t ∧ FaultTaken .fetchFault a s t)

/-- 10_state R18, R20, R21; 20_memory R40 (addresses below 2^32): every step keeps the invariant, from every state that
has it. Two of its clauses are the model's choices and no rule's: the canonical form of the memory list (log 2) and where
`cpPastTop` may be true (log 5). -/
def Obligations.EveryStepKeepsTheInvariant : Prop := ∀ s t : State, Inv s → step s = .next t → Inv t

/-- The invariant holds right after reset (10_state R29). -/
def Obligations.ResetMeetsTheInvariant : Prop := Inv State.reset

/-- 60_exceptions R261, R262, R282; 10_state R15: a command ends in one of three ways and no other: it retires, it is
`END` and halts, or it takes one of the listed faults with nothing else changed. A step always has a next state.
The clauses of `Retired` past the top of the space and on the count are the model's choice (logs 4 and 5). -/
def Obligations.EveryCommandRetiresHaltsOrFaults : Prop :=
  (∀ (i : Instr) (s : State), ∃ t, exec i s = .next t ∧
    ((i ≠ .endList ∧ Retired s t ∧ t.status = s.status) ∨
      (i = .endList ∧ t.status = .halted ∧ t.cp = s.cp) ∨
      ∃ code info, code ≠ FaultCode.noFault ∧ FaultTaken code info s t)) ∧
  ∀ s : State, ∃ t, step s = .next t

/-- 10_state R13 (the table of files), R16, R19 to R21; 20_memory R58; 70_reset R296: a command that takes no fault
changes the registers it names as destinations and the bytes it may store, and nothing else. -/
def Obligations.EveryCommandKeepsItsFrame : Prop :=
  ∀ (i : Instr) (s t : State), exec i s = .next t → t.status ≠ .fault →
    Frame (Instr.writes i) (MayStore s i) s t

/-- 10_state R20; 43_bulk R181: no step clears a bit of `OPS_READY`, and only a bulk command sets one. -/
def Obligations.OpsReadyOnlyGrows : Prop :=
  (∀ (s t : State) (k : Nat), step s = .next t → s.opsReady.getLsbD k = true → t.opsReady.getLsbD k = true) ∧
  ∀ (i : Instr) (s t : State), exec i s = .next t → Instr.spanFields i = [] → t.opsReady = s.opsReady

/-- 70_reset R290; 10_state R20, R24, R29: what a reset leaves, whether it comes between two commands (`ctrlReset`,
`platformReset`) or in the middle of one (`abandonCommand`, `abandonPlatform`); between two commands every byte of memory
stays, and `CTRL.RESET` keeps `OPS_READY`. `MEM_VALID` and `cpPastTop`, false after every reset, are fields of the model's own
(logs 3 and 5). -/
def Obligations.ResetsLeaveTheResetState : Prop :=
  ∀ s : State,
    (∀ t ∈ [s.ctrlReset, s.platformReset, s.abandonCommand, s.abandonPlatform],
      (∀ i, t.preg i = .unwritten ∧ t.vreg i = .unwritten ∧ t.sreg i = .unwritten) ∧ t.cp = 0 ∧ t.cpPastTop = false ∧ t.status = .idle ∧
      t.faultCode = .noFault ∧ t.faultCp = 0 ∧ t.faultInfo = 0 ∧ Blender.word t.blender = 0x00000010 ∧
      t.ci.count = 0 ∧ t.ci.bpp = 0 ∧ t.ci.padding = 0 ∧ (∀ k : Fin 16, t.ci.prec[k.val] = 0) ∧
      t.memValid = s.memValid) ∧
    (∀ a, s.ctrlReset.readByte a = s.readByte a ∧ s.platformReset.readByte a = s.readByte a) ∧
    s.ctrlReset.opsReady = s.opsReady ∧ s.platformReset.opsReady = 0 ∧ s.abandonPlatform.opsReady = 0 ∧
    (∀ v : Word, v.getLsbD 1 = true → s.writeCtrl v = s.ctrlReset)

/-- 70_reset R290; 43_bulk R180, R181; 10_state R20, in the model's reading of a reset in the middle of a command (log 11,
DEDUCED): every byte has its old value or the one the abandoned command gives it; `CTRL.RESET` leaves of `OPS_READY` the
old bits and any of those the command sets, all of them where a byte is new; the platform's reset clears it. -/
def Obligations.AbandonedCommandsLeaveOldOrNewBytes : Prop :=
  ∀ s t : State, step s = .next t →
    (∀ r ∈ [s.abandonCommand, s.abandonPlatform], ∀ a, r.readByte a = s.readByte a ∨ r.readByte a = t.readByte a) ∧
    (∀ k, s.opsReady.getLsbD k = true → s.abandonCommand.opsReady.getLsbD k = true) ∧
    (∀ k, s.abandonCommand.opsReady.getLsbD k = true → t.opsReady.getLsbD k = true) ∧
    ((∀ a, s.abandonCommand.readByte a = s.readByte a) ∨ s.abandonCommand.opsReady = t.opsReady) ∧
    s.abandonPlatform.opsReady = 0

/-- 10_state R24: `START` sets RUN from IDLE and HALTED with every other register kept, and does nothing in RUN and
FAULT; `CP` is written outside RUN only; host writes at offsets 0x00 and 0x08 have these two effects. That a write of `CP` makes `cpPastTop` false is the model's choice (log 5). -/
def Obligations.HostStartsAndPointsTheEngine : Prop :=
  ∀ (s : State) (v : Word),
    s.hostWrite 0x00 v = .next (s.writeCtrl v) ∧ s.hostWrite 0x08 v = .next (s.writeCp v) ∧
    (v.getLsbD 0 = true → v.getLsbD 1 = false → s.status = .idle ∨ s.status = .halted →
      s.writeCtrl v = { s with status := .run }) ∧
    (v.getLsbD 1 = false → (v.getLsbD 0 = false ∨ s.status = .run ∨ s.status = .fault) → s.writeCtrl v = s) ∧
    (s.status = .run → s.writeCp v = s) ∧
    (s.status ≠ .run → s.writeCp v = { s with cp := v, cpPastTop := false })

/-- 10_state R17 to R21, R23; 60_exceptions R260: the words the host reads, field by field. -/
def Obligations.HostReadsTheRegisterMap : Prop :=
  ∀ s : State,
    s.hostRead 0x00 = some 0 ∧
    s.hostRead 0x04 = some (match s.status with | .idle => 0 | .run => 1 | .halted => 2 | .fault => 3) ∧
    s.hostRead 0x08 = some s.cp ∧
    s.hostRead 0x0C = some (match s.faultCode with
      | .noFault => 0 | .fetchFault => 1 | .illegalInstruction => 2 | .invalidFormat => 3 | .invalidBlender => 4
      | .unwrittenRegister => 5 | .lengthMismatch => 6 | .spanOverlap => 7 | .accessFault => 8 | .malformedHex => 9
      | .infoIndexRange => 10 | .infoInvalid => 11) ∧
    s.hostRead 0x10 = some s.faultCp ∧ s.hostRead 0x14 = some s.faultInfo ∧ s.hostRead 0x18 = some s.opsReady ∧
    (∃ w, s.hostRead 0x1C = some w ∧
      w.toNat = (BlendMode.code s.blender.mode).toNat + 16 * (CompOp.code s.blender.op).toNat) ∧
    (∃ w, s.hostRead 0x20 = some w ∧ w.toNat = s.ci.count.toNat + 2 ^ 8 * s.ci.bpp.toNat) ∧
    (∃ w, s.hostRead 0x24 = some w ∧ w.toNat = s.ci.padding.toNat) ∧
    ∀ k : Fin 4, ∃ w, s.hostRead (0x28 + 4 * k.val) = some w ∧
      ∀ j : Fin 4, w.extractLsb' (8 * j.val) 8 = s.ci.prec[4 * k.val + j.val]

/-- 20_memory R42: reads are little-endian sums of bytes, and a store puts byte `k` of the value at `addr + k`. -/
def Obligations.MemoryIsLittleEndian : Prop :=
  ∀ (s : State) (a n v : Nat),
    s.readLE a n = ((List.range n).map fun k => (s.readByte (a + k)).toNat * 256 ^ k).sum ∧
    (a + n ≤ 2 ^ 32 →
      (∀ k, k < n → (s.writeLE a n v).readByte (a + k) = BitVec.ofNat 8 (v / 256 ^ k)) ∧
      (∀ x, ¬ InRange a n x → (s.writeLE a n v).readByte x = s.readByte x))

/-! ## Control and operand movement -/

/-- 46_control_metadata R240: `END` halts; `cp` keeps its address; nothing else changes; the next step fetches
nothing; `START` without a new `CP` is back at the same `END`. -/
def Obligations.EndHaltsTheEngine : Prop :=
  ∀ s : State, ∃ t, exec .endList s = .next t ∧ t.status = .halted ∧ t.cp = s.cp ∧ t.cpPastTop = s.cpPastTop ∧
    t.draws = s.draws ∧ Frame { status := true } noBytes s t ∧ step t = .next t ∧
    t.start.status = .run ∧ t.start.cp = s.cp

/-- 42_scalar_codec R160: `SPAN` writes both fields of its register, at every base and length, and checks nothing.
The clauses of `Retired` past the top of the space and on the count are the model's choice (logs 4 and 5). -/
def Obligations.SpanWritesItsRegister : Prop :=
  ∀ (s : State) (sd : RegIdx) (base len : Word), ∃ t, exec (.span sd base len) s = .next t ∧
    t.sreg sd = .holds { base := base, len := len } ∧ Retired s t ∧ Frame { span := some sd } noBytes s t

/-- 42_scalar_codec R161: `LDP` loads `bytes(f)` bytes, little-endian, zero-extended.
The clauses of `Retired` past the top of the space and on the count are the model's choice (logs 4 and 5). -/
def Obligations.LdpLoadsAPixel : Prop :=
  ∀ (s : State) (pd : RegIdx) (f : BitVec 8) (addr : Word) (fmt : Fmt),
    Fmt.ofId? f = some fmt → ValidRange s addr.toNat (Fmt.bytes fmt) →
    ∃ t p, exec (.ldp pd f addr) s = .next t ∧ t.preg pd = .holds p ∧
      (∀ k, k < 16 → byteOf p k = if k < Fmt.bytes fmt then s.readByte (addr.toNat + k) else 0) ∧
      Retired s t ∧ Frame { p := some pd } noBytes s t

/-- 42_scalar_codec R162: `STP` stores the low `bytes(f)` bytes of its register and no other byte.
The clauses of `Retired` past the top of the space and on the count are the model's choice (logs 4 and 5). -/
def Obligations.StpStoresAPixel : Prop :=
  ∀ (s : State) (ps : RegIdx) (f : BitVec 8) (addr : Word) (fmt : Fmt) (p : Pixel),
    Fmt.ofId? f = some fmt → s.preg ps = .holds p → ValidRange s addr.toNat (Fmt.bytes fmt) →
    ∃ t, exec (.stp ps f addr) s = .next t ∧
      (∀ k, k < Fmt.bytes fmt → t.readByte (addr.toNat + k) = byteOf p k) ∧
      Retired s t ∧ Frame {} (InRange addr.toNat (Fmt.bytes fmt)) s t

/-- 42_scalar_codec R163; 20_memory R44: `LDV` loads x, y, z, w from offsets 0, 4, 8, 12, any bit patterns.
The clauses of `Retired` past the top of the space and on the count are the model's choice (logs 4 and 5). -/
def Obligations.LdvLoadsAVector : Prop :=
  ∀ (s : State) (vd : RegIdx) (addr : Word), ValidRange s addr.toNat 16 →
    ∃ t v, exec (.ldv vd addr) s = .next t ∧ t.vreg vd = .holds v ∧
      (∀ k, k < 4 → byteOf v.x k = s.readByte (addr.toNat + k) ∧ byteOf v.y k = s.readByte (addr.toNat + 4 + k) ∧
        byteOf v.z k = s.readByte (addr.toNat + 8 + k) ∧ byteOf v.w k = s.readByte (addr.toNat + 12 + k)) ∧
      Retired s t ∧ Frame { v := some vd } noBytes s t

/-- 42_scalar_codec R164; 20_memory R44: `STV` stores the four bit patterns at offsets 0, 4, 8, 12.
The clauses of `Retired` past the top of the space and on the count are the model's choice (logs 4 and 5). -/
def Obligations.StvStoresAVector : Prop :=
  ∀ (s : State) (vs : RegIdx) (addr : Word) (v : Vec4), s.vreg vs = .holds v → ValidRange s addr.toNat 16 →
    ∃ t, exec (.stv vs addr) s = .next t ∧
      (∀ k, k < 4 → t.readByte (addr.toNat + k) = byteOf v.x k ∧ t.readByte (addr.toNat + 4 + k) = byteOf v.y k ∧
        t.readByte (addr.toNat + 8 + k) = byteOf v.z k ∧ t.readByte (addr.toNat + 12 + k) = byteOf v.w k) ∧
      Retired s t ∧ Frame {} (InRange addr.toNat 16) s t

/-! ## The codec, one pixel at a time -/

/-- 42_scalar_codec R165, R166: `UNPACK` and `UNPACKS` give the native and the scaled vector of the low `bits(f)` bits;
the bits above are ignored.
The clauses of `Retired` past the top of the space and on the count are the model's choice (logs 4 and 5). -/
def Obligations.UnpackGivesTheVector : Prop :=
  ∀ (s : State) (vd ps : RegIdx) (f : BitVec 8) (fmt : Fmt) (p : Pixel),
    Fmt.ofId? f = some fmt → s.preg ps = .holds p →
    (∃ t d, exec (.unpack vd ps f) s = .next t ∧
      t.vreg vd = .holds (toCanonical d fmt (BitVec.ofNat 128 (p.toNat % 2 ^ Fmt.bits fmt))) ∧
      Retired s t ∧ Frame { v := some vd } noBytes s t) ∧
    (∃ t d, exec (.unpacks vd ps f) s = .next t ∧
      t.vreg vd = .holds (toScaled d fmt (BitVec.ofNat 128 (p.toNat % 2 ^ Fmt.bits fmt))) ∧
      Retired s t ∧ Frame { v := some vd } noBytes s t)

/-- 42_scalar_codec R167, R168; 10_state R10: `PACK` and `PACKS` give the packed value, zero above `bits(f)`.
The clauses of `Retired` past the top of the space and on the count are the model's choice (logs 4 and 5). -/
def Obligations.PackGivesThePixel : Prop :=
  ∀ (s : State) (pd vs : RegIdx) (f : BitVec 8) (fmt : Fmt) (v : Vec4),
    Fmt.ofId? f = some fmt → s.vreg vs = .holds v →
    (∃ t d, exec (.pack pd vs f) s = .next t ∧ t.preg pd = .holds (fromCanonical d fmt v) ∧
      (fromCanonical d fmt v).toNat < 2 ^ Fmt.bits fmt ∧ Retired s t ∧ Frame { p := some pd } noBytes s t) ∧
    (∃ t d, exec (.packs pd vs f) s = .next t ∧ t.preg pd = .holds (fromScaled d fmt v) ∧
      (fromScaled d fmt v).toNat < 2 ^ Fmt.bits fmt ∧ Retired s t ∧ Frame { p := some pd } noBytes s t)

/-- 42_scalar_codec R169, R172; 40_canonical_model R91: `CVTPX` converts through the scaled vector.
The clauses of `Retired` past the top of the space and on the count are the model's choice (logs 4 and 5). -/
def Obligations.CvtpxConvertsThroughTheScaledVector : Prop :=
  ∀ (s : State) (pd ps : RegIdx) (fdst fsrc : BitVec 8) (dfmt sfmt : Fmt) (p : Pixel),
    Fmt.ofId? fdst = some dfmt → Fmt.ofId? fsrc = some sfmt → s.preg ps = .holds p →
    ∃ t du dp q, exec (.cvtpx pd ps fdst fsrc) s = .next t ∧ t.preg pd = .holds q ∧
      q = fromScaled dp dfmt (toScaled du sfmt (BitVec.ofNat 128 (p.toNat % 2 ^ Fmt.bits sfmt))) ∧
      q.toNat < 2 ^ Fmt.bits dfmt ∧ Retired s t ∧ Frame { p := some pd } noBytes s t

/-- 42_scalar_codec R170: `MKPX` converts its immediate as an RGBA32 value; with RGBA32 the result is the immediate.
The clauses of `Retired` past the top of the space and on the count are the model's choice (logs 4 and 5). -/
def Obligations.MkpxBuildsAPixel : Prop :=
  ∀ (s : State) (pd : RegIdx) (f : BitVec 8) (rgba : Word) (fmt : Fmt), Fmt.ofId? f = some fmt →
    ∃ t du dp q, exec (.mkpx pd f rgba) s = .next t ∧ t.preg pd = .holds q ∧
      q = fromScaled dp fmt (toScaled du .rgba32 (rgba.setWidth 128)) ∧ (fmt = .rgba32 → q = rgba.setWidth 128) ∧
      Retired s t ∧ Frame { p := some pd } noBytes s t

/-- 42_scalar_codec R171: a text of 3, 4, 6 or 8 hexadecimal digits after an optional number sign is a pixel.
The clauses of `Retired` past the top of the space and on the count are the model's choice (logs 4 and 5). -/
def Obligations.ParsehexReadsThePixel : Prop :=
  ∀ (s : State) (pd st : RegIdx) (text : Span) (skip : Nat) (digits : List Nat),
    s.sreg st = .holds text → ValidRange s text.base.toNat text.len.toNat → HexText s text skip digits.length →
    HexLength digits.length →
    (∀ k (hk : k < digits.length), IsHexDigit (s.readByte (text.base.toNat + skip + k)) digits[k]) →
    ∃ t p, exec (.parsehex pd st) s = .next t ∧ t.preg pd = .holds p ∧
      (∀ c, c < 16 → byteOf p c = BitVec.ofNat 8 (if c < 4 then hexComponent digits c else 0)) ∧
      Retired s t ∧ Frame { p := some pd } noBytes s t

/-! ## Bulk commands -/

/-- 43_bulk R182; 40_canonical_model R102; 20_memory R44: `TOVEC4` stores each element's vector.
The clauses of `Retired` past the top of the space and on the count are the model's choice (logs 4 and 5). -/
def Obligations.Tovec4StoresVectors : Prop :=
  ∀ (s : State) (sdst ssrc : RegIdx) (f : BitVec 8) (m : BitVec 3) (fmt : Fmt) (dst src : Span),
    Fmt.ofId? f = some fmt → s.sreg sdst = .holds dst → s.sreg ssrc = .holds src → src.len = dst.len →
    RangesDisjoint dst.base.toNat (dst.len.toNat * 16) src.base.toNat (src.len.toNat * Fmt.bytes fmt) →
    ValidRange s dst.base.toNat (dst.len.toNat * 16) →
    ValidRange s src.base.toNat (src.len.toNat * Fmt.bytes fmt) →
    ∃ t, exec (.tovec4 sdst ssrc f m) s = .next t ∧
      (∀ i, i < dst.len.toNat → ∃ du da, ElementHolds t dst.base 16 i
        (Vec4.word (toVector4Elem du da fmt (s.readPixel (src.base.toNat + i * Fmt.bytes fmt) (Fmt.bytes fmt)) m))) ∧
      OpsTouched [fmt] s t ∧ Retired s t ∧
      Frame { opsReady := true } (InRange dst.base.toNat (dst.len.toNat * 16)) s t

/-- 43_bulk R183; 40_canonical_model R103; 20_memory R58: `FROMVEC4` packs the vectors as they were before the command;
it may change its destination and the bytes of its source, about which nothing more is said.
The clauses of `Retired` past the top of the space and on the count are the model's choice (logs 4 and 5). -/
def Obligations.Fromvec4StoresPixels : Prop :=
  ∀ (s : State) (sdst ssrc : RegIdx) (f : BitVec 8) (m : BitVec 3) (fmt : Fmt) (dst src : Span),
    Fmt.ofId? f = some fmt → s.sreg sdst = .holds dst → s.sreg ssrc = .holds src → src.len = dst.len →
    RangesDisjoint dst.base.toNat (dst.len.toNat * Fmt.bytes fmt) src.base.toNat (src.len.toNat * 16) →
    ValidRange s dst.base.toNat (dst.len.toNat * Fmt.bytes fmt) →
    ValidRange s src.base.toNat (src.len.toNat * 16) →
    ∃ t, exec (.fromvec4 sdst ssrc f m) s = .next t ∧
      (∀ i, i < dst.len.toNat → ∃ da dp, ElementHolds t dst.base (Fmt.bytes fmt) i
        (fromVector4Elem da dp fmt (s.readVec4 (src.base.toNat + i * 16)) m)) ∧
      OpsTouched [fmt] s t ∧ Retired s t ∧
      Frame { opsReady := true } (fun a => InRange dst.base.toNat (dst.len.toNat * Fmt.bytes fmt) a ∨
        InRange src.base.toNat (src.len.toNat * 16) a) s t

/-- 43_bulk R184: `CONVERT` stores for each element what `CVTPX` gives for the same pixel.
The clauses of `Retired` past the top of the space and on the count are the model's choice (logs 4 and 5). -/
def Obligations.ConvertStoresPixels : Prop :=
  ∀ (s : State) (sdst ssrc : RegIdx) (fdst fsrc : BitVec 8) (dfmt sfmt : Fmt) (dst src : Span),
    Fmt.ofId? fdst = some dfmt → Fmt.ofId? fsrc = some sfmt → s.sreg sdst = .holds dst → s.sreg ssrc = .holds src →
    src.len = dst.len →
    RangesDisjoint dst.base.toNat (dst.len.toNat * Fmt.bytes dfmt) src.base.toNat (src.len.toNat * Fmt.bytes sfmt) →
    ValidRange s dst.base.toNat (dst.len.toNat * Fmt.bytes dfmt) →
    ValidRange s src.base.toNat (src.len.toNat * Fmt.bytes sfmt) →
    ∃ t, exec (.convert sdst ssrc fdst fsrc) s = .next t ∧
      (∀ i, i < dst.len.toNat → ∃ du dp, ElementHolds t dst.base (Fmt.bytes dfmt) i
        (fromScaled dp dfmt
          (toScaled du sfmt (s.readPixel (src.base.toNat + i * Fmt.bytes sfmt) (Fmt.bytes sfmt))))) ∧
      OpsTouched [dfmt, sfmt] s t ∧ Retired s t ∧
      Frame { opsReady := true } (InRange dst.base.toNat (dst.len.toNat * Fmt.bytes dfmt)) s t

/-- 43_bulk R185: `PACKPLANES` packs one sample of each plane per element; the destination's further elements are
valid and unchanged.
The clauses of `Retired` past the top of the space and on the count are the model's choice (logs 4 and 5). -/
def Obligations.PackplanesPacksSamples : Prop :=
  ∀ (s : State) (sdst sr sg sb : RegIdx) (f : BitVec 8) (fmt : Fmt) (dst r g b : Span),
    Fmt.ofId? f = some fmt → s.sreg sdst = .holds dst → s.sreg sr = .holds r → s.sreg sg = .holds g →
    s.sreg sb = .holds b → g.len = r.len → b.len = r.len → r.len.toNat ≤ dst.len.toNat →
    (∀ x, x ∈ [r, g, b] → ValidRange s x.base.toNat x.len.toNat ∧
      RangesDisjoint dst.base.toNat (dst.len.toNat * Fmt.bytes fmt) x.base.toNat x.len.toNat) →
    ValidRange s dst.base.toNat (dst.len.toNat * Fmt.bytes fmt) →
    ∃ t, exec (.packplanes sdst sr sg sb f) s = .next t ∧
      (∀ i, i < r.len.toNat → ∃ du dp, ElementHolds t dst.base (Fmt.bytes fmt) i
        (fromScaled dp fmt (toScaled du .rgb24 (BitVec.ofNat 128 ((s.readByte (r.base.toNat + i)).toNat
          + 2 ^ 8 * (s.readByte (g.base.toNat + i)).toNat + 2 ^ 16 * (s.readByte (b.base.toNat + i)).toNat))))) ∧
      OpsTouched [fmt] s t ∧ Retired s t ∧
      Frame { opsReady := true } (InRange dst.base.toNat (r.len.toNat * Fmt.bytes fmt)) s t

/-- 43_bulk R186: `UNPACKPLANES` splits each pixel's RGB24 value over the three planes; the planes' further samples are
unchanged.
The clauses of `Retired` past the top of the space and on the count are the model's choice (logs 4 and 5). -/
def Obligations.UnpackplanesSplitsPixels : Prop :=
  ∀ (s : State) (ssrc sr sg sb : RegIdx) (f : BitVec 8) (fmt : Fmt) (src r g b : Span),
    Fmt.ofId? f = some fmt → s.sreg ssrc = .holds src → s.sreg sr = .holds r → s.sreg sg = .holds g →
    s.sreg sb = .holds b → g.len = r.len → b.len = r.len → src.len.toNat ≤ r.len.toNat →
    (∀ x, x ∈ [r, g, b] → ValidRange s x.base.toNat x.len.toNat ∧
      RangesDisjoint x.base.toNat x.len.toNat src.base.toNat (src.len.toNat * Fmt.bytes fmt)) →
    RangesDisjoint r.base.toNat r.len.toNat g.base.toNat g.len.toNat →
    RangesDisjoint r.base.toNat r.len.toNat b.base.toNat b.len.toNat →
    RangesDisjoint g.base.toNat g.len.toNat b.base.toNat b.len.toNat →
    ValidRange s src.base.toNat (src.len.toNat * Fmt.bytes fmt) →
    ∃ t, exec (.unpackplanes ssrc sr sg sb f) s = .next t ∧
      (∀ i, i < src.len.toNat → ∃ du dp, ∃ q : Pixel,
        q = fromScaled dp .rgb24
          (toScaled du fmt (s.readPixel (src.base.toNat + i * Fmt.bytes fmt) (Fmt.bytes fmt))) ∧
        t.readByte (r.base.toNat + i) = byteOf q 0 ∧ t.readByte (g.base.toNat + i) = byteOf q 1 ∧
        t.readByte (b.base.toNat + i) = byteOf q 2) ∧
      OpsTouched [fmt] s t ∧ Retired s t ∧
      Frame { opsReady := true } (fun a => InRange r.base.toNat src.len.toNat a ∨
        InRange g.base.toNat src.len.toNat a ∨ InRange b.base.toNat src.len.toNat a) s t

/-! ## Blending -/

/-- 44_blend R229, R201, R202; 60_exceptions R268: `SETBL` with legal codes selects the mode and the operator of the codes;
an illegal mode, or a legal mode with an illegal operator, raises `InvalidBlender` and leaves `BLENDER`.
The clauses of `Retired` past the top of the space and on the count are the model's choice (logs 4 and 5). -/
def Obligations.SetblSelectsTheBlender : Prop :=
  ∀ (s : State) (mode op : BitVec 4),
    (mode.toNat < 9 → op.toNat < 12 → ∃ t, exec (.setbl mode op) s = .next t ∧
      BlendMode.code t.blender.mode = mode ∧ CompOp.code t.blender.op = op ∧
      (Blender.word t.blender).toNat = mode.toNat + 16 * op.toNat ∧ Retired s t ∧
      Frame { blender := true } noBytes s t) ∧
    (9 ≤ mode.toNat → Faults (.setbl mode op) s .invalidBlender (BitVec.ofNat 32 mode.toNat)) ∧
    (mode.toNat < 9 → 12 ≤ op.toNat →
      Faults (.setbl mode op) s .invalidBlender (BitVec.ofNat 32 (16 + op.toNat)))

/-- 44_blend R230: `BLENDPX` blends two vector registers with the current blender; its destination may be either.
The clauses of `Retired` past the top of the space and on the count are the model's choice (logs 4 and 5). -/
def Obligations.BlendpxBlendsTwoVectors : Prop :=
  ∀ (s : State) (vd vb vs : RegIdx) (amount : F32) (b src : Vec4), s.vreg vb = .holds b → s.vreg vs = .holds src →
    ∃ t d, exec (.blendpx vd vb vs amount) s = .next t ∧
      t.vreg vd = .holds (blendPixel d s.blender b src amount) ∧ Retired s t ∧ Frame { v := some vd } noBytes s t

/-- 44_blend R231; 20_memory R57: `BLEND` composes each element at one opacity; the destination may be the backdrop.
The clauses of `Retired` past the top of the space and on the count are the model's choice (logs 4 and 5). -/
def Obligations.BlendStoresComposedPixels : Prop :=
  ∀ (s : State) (sdst sbg ssrc : RegIdx) (fdst fsrc : BitVec 8) (amount : F32) (dfmt sfmt : Fmt) (dst bg src : Span),
    Fmt.ofId? fdst = some dfmt → Fmt.ofId? fsrc = some sfmt → s.sreg sdst = .holds dst → s.sreg sbg = .holds bg →
    s.sreg ssrc = .holds src → bg.len = dst.len → src.len = dst.len →
    (bg.base = dst.base ∨
      RangesDisjoint dst.base.toNat (dst.len.toNat * Fmt.bytes dfmt) bg.base.toNat (bg.len.toNat * Fmt.bytes dfmt)) →
    RangesDisjoint dst.base.toNat (dst.len.toNat * Fmt.bytes dfmt) src.base.toNat (src.len.toNat * Fmt.bytes sfmt) →
    ValidRange s dst.base.toNat (dst.len.toNat * Fmt.bytes dfmt) →
    ValidRange s bg.base.toNat (bg.len.toNat * Fmt.bytes dfmt) →
    ValidRange s src.base.toNat (src.len.toNat * Fmt.bytes sfmt) →
    ∃ t, exec (.blend sdst sbg ssrc fdst fsrc amount) s = .next t ∧
      (∀ i, i < dst.len.toNat → ∃ db ds da dp, ElementHolds t dst.base (Fmt.bytes dfmt) i
        (fromScaled dp dfmt (blendPixel da s.blender
          (toScaled db dfmt (s.readPixel (bg.base.toNat + i * Fmt.bytes dfmt) (Fmt.bytes dfmt)))
          (toScaled ds sfmt (s.readPixel (src.base.toNat + i * Fmt.bytes sfmt) (Fmt.bytes sfmt))) amount))) ∧
      OpsTouched [dfmt, sfmt] s t ∧ Retired s t ∧
      Frame { opsReady := true } (InRange dst.base.toNat (dst.len.toNat * Fmt.bytes dfmt)) s t

/-- 44_blend R232; 20_memory R44: `BLENDA` composes each element at the opacity of its own entry of the opacity span.
The clauses of `Retired` past the top of the space and on the count are the model's choice (logs 4 and 5). -/
def Obligations.BlendaStoresComposedPixels : Prop :=
  ∀ (s : State) (sdst sbg ssrc samt : RegIdx) (fdst fsrc : BitVec 8) (dfmt sfmt : Fmt) (dst bg src amt : Span),
    Fmt.ofId? fdst = some dfmt → Fmt.ofId? fsrc = some sfmt → s.sreg sdst = .holds dst → s.sreg sbg = .holds bg →
    s.sreg ssrc = .holds src → s.sreg samt = .holds amt → bg.len = dst.len → src.len = dst.len →
    amt.len = dst.len →
    (bg.base = dst.base ∨
      RangesDisjoint dst.base.toNat (dst.len.toNat * Fmt.bytes dfmt) bg.base.toNat (bg.len.toNat * Fmt.bytes dfmt)) →
    RangesDisjoint dst.base.toNat (dst.len.toNat * Fmt.bytes dfmt) src.base.toNat (src.len.toNat * Fmt.bytes sfmt) →
    RangesDisjoint dst.base.toNat (dst.len.toNat * Fmt.bytes dfmt) amt.base.toNat (amt.len.toNat * 4) →
    ValidRange s dst.base.toNat (dst.len.toNat * Fmt.bytes dfmt) →
    ValidRange s bg.base.toNat (bg.len.toNat * Fmt.bytes dfmt) →
    ValidRange s src.base.toNat (src.len.toNat * Fmt.bytes sfmt) → ValidRange s amt.base.toNat (amt.len.toNat * 4) →
    ∃ t, exec (.blenda sdst sbg ssrc samt fdst fsrc) s = .next t ∧
      (∀ i, i < dst.len.toNat → ∃ db ds da dp, ElementHolds t dst.base (Fmt.bytes dfmt) i
        (fromScaled dp dfmt (blendPixel da s.blender
          (toScaled db dfmt (s.readPixel (bg.base.toNat + i * Fmt.bytes dfmt) (Fmt.bytes dfmt)))
          (toScaled ds sfmt (s.readPixel (src.base.toNat + i * Fmt.bytes sfmt) (Fmt.bytes sfmt)))
          (s.readF32 (amt.base.toNat + i * 4))))) ∧
      OpsTouched [dfmt, sfmt] s t ∧ Retired s t ∧
      Frame { opsReady := true } (InRange dst.base.toNat (dst.len.toNat * Fmt.bytes dfmt)) s t

/-- 44_blend R203 to R211, R215, R214, R228: for a source alpha that is neither a NaN nor zero after the opacity, the
final alpha and the colour of the nine mixing operators, with the weights of the table. -/
def Obligations.MixingOperatorsFollowTheTable : Prop :=
  ∀ (d : Draws) (mode : BlendMode) (b s : Vec4) (amount : F32), F32.isNaN amount = false → F32.isNaN s.w = false →
    F32.isZero (fmul s.w (fclamp amount F32.zero F32.one)) = false →
    let sa := fmul s.w (fclamp amount F32.zero F32.one)
    let p := fmul b.w sa
    let bo := fsub b.w p
    let so := fsub sa p
    ∀ row ∈ [(CompOp.srcOver, p, bo, so), (.srcIn, p, F32.zero, F32.zero), (.srcOut, F32.zero, F32.zero, so),
      (.srcAtop, p, bo, F32.zero), (.destOver, F32.zero, b.w, so), (.destIn, F32.zero, p, F32.zero),
      (.destOut, F32.zero, bo, F32.zero), (.destAtop, F32.zero, p, so), (.xor, F32.zero, bo, so)],
    let a := fadd (fadd row.2.1 row.2.2.1) row.2.2.2
    let colour (bc sc : F32) : F32 :=
      fdiv (fadd (fadd (fmul (modeFn mode bc sc) row.2.1) (fmul bc row.2.2.1)) (fmul sc row.2.2.2)) a
    let r := blendPixel d { mode := mode, op := row.1 } b s amount
    (F32.isZero a = true → r = { x := 0, y := 0, z := 0, w := 0 }) ∧
    (F32.isZero a = false → F32.isNaN a = false → r.w = a ∧
      (F32.isNaN (colour b.x s.x) = false → r.x = colour b.x s.x) ∧
      (F32.isNaN (colour b.y s.y) = false → r.y = colour b.y s.y) ∧
      (F32.isNaN (colour b.z s.z) = false → r.z = colour b.z s.z))

/-- 44_blend R227: `Clear` is always four zeros, at zero or NaN opacity and for NaN inputs too. -/
def Obligations.ClearIsAlwaysZero : Prop :=
  ∀ (d : Draws) (mode : BlendMode) (b s : Vec4) (amount : F32),
    blendPixel d { mode := mode, op := .clear } b s amount = { x := 0, y := 0, z := 0, w := 0 }

/-- 44_blend R213, R216, R221, R233: where the source alpha scaled by the opacity is +0 or -0 the backdrop comes back bit
for bit under every operator but `Clear`, so for an alpha of zero and, with a finite alpha, for an opacity of zero or
below; `Src` is the source with its alpha scaled, the source itself at opacity 1; `Dest` is the backdrop. -/
def Obligations.OpacityIdentitiesHold : Prop :=
  ∀ (d : Draws) (mode : BlendMode) (b s : Vec4) (amount : F32), F32.isNaN amount = false → F32.isNaN s.w = false →
    let sa := fmul s.w (fclamp amount F32.zero F32.one)
    (F32.isZero sa = true → ∀ op, op ≠ .clear → blendPixel d { mode := mode, op := op } b s amount = b) ∧
    (F32.isZero s.w = true → F32.isZero sa = true) ∧
    (F32.isFinite s.w = true → F32.isZero amount = true ∨ F32.lt amount F32.zero = true → F32.isZero sa = true) ∧
    (F32.isZero sa = false → F32.isNaN sa = false →
      blendPixel d { mode := mode, op := .src } b s amount = { x := s.x, y := s.y, z := s.z, w := sa }) ∧
    (amount = F32.one → sa = s.w) ∧
    blendPixel d { mode := mode, op := .dest } b s amount = b

/-- 44_blend R203 to R211: the nine blend functions, Overlay and HardLight with their operands swapped, Multiply with a
white backdrop; and what `fmin` and `fmax` are for operands that are no NaN, with the second of equal operands
(40_canonical_model R83). -/
def Obligations.BlendFunctionsAreTheListed : Prop :=
  ∀ b s : F32,
    modeFn .normal b s = s ∧ modeFn .multiply b s = fmul b s ∧
    modeFn .screen b s = fsub F32.one (fmul (fsub F32.one b) (fsub F32.one s)) ∧
    modeFn .darken b s = fmin b s ∧ modeFn .lighten b s = fmax b s ∧ modeFn .overlay b s = modeFn .hardLight s b ∧
    (F32.isNaN b = false → F32.order b ≤ 0x3F000000 → modeFn .overlay b s = fmul (fmul F32.two b) s) ∧
    (F32.isNaN b = false → 0x3F000000 < F32.order b →
      modeFn .overlay b s = fsub F32.one (fmul (fmul F32.two (fsub F32.one s)) (fsub F32.one b))) ∧
    modeFn .add b s = fmin F32.one (fadd b s) ∧ modeFn .subtract b s = fmax F32.zero (fsub b s) ∧
    (F32.isNaN s = false → modeFn .multiply F32.one s = s) ∧
    (F32.isNaN b = false → F32.isNaN s = false →
      fmin b s = (if F32.order b < F32.order s then b else s) ∧ fmax b s = (if F32.order s < F32.order b then b else s))

/-! ## Metadata -/

/-- 46_control_metadata R241; 41_codec_formats R123: `FMTINFO` loads the descriptor of a format.
The clauses of `Retired` past the top of the space and on the count are the model's choice (logs 4 and 5). -/
def Obligations.FmtinfoLoadsTheDescriptor : Prop :=
  ∀ (s : State) (f : BitVec 8) (fmt : Fmt), Fmt.ofId? f = some fmt →
    ∃ t, exec (.fmtinfo f) s = .next t ∧ t.ci.count.toNat = (Fmt.fields fmt).length ∧
      t.ci.bpp.toNat = 8 * Fmt.bytes fmt ∧ t.ci.padding = 0 ∧
      (∀ k : Fin 16, (t.ci.prec[k.val]).toNat = (((Fmt.fields fmt)[k.val]?).map Field.width).getD 0) ∧
      ((Fmt.fields fmt).map Field.width).sum = 8 * Fmt.bytes fmt ∧ t.opsReady = s.opsReady ∧
      Retired s t ∧ Frame { ci := true } noBytes s t

/-- 46_control_metadata R242: `MKINFO` builds a descriptor of its entries; the padding is what the entries leave.
The clauses of `Retired` past the top of the space and on the count are the model's choice (logs 4 and 5). -/
def Obligations.MkinfoBuildsTheDescriptor : Prop :=
  ∀ (s : State) (sprec : RegIdx) (bpp : Word) (sp : Span),
    s.sreg sprec = .holds sp → sp.len.toNat ≤ 16 → ValidRange s sp.base.toNat (sp.len.toNat * 4) →
    (∀ i, i < sp.len.toNat → s.readLE (sp.base.toNat + 4 * i) 4 ≤ 255) → bpp.toNat ≤ 65535 →
    ((List.range sp.len.toNat).map fun i => s.readLE (sp.base.toNat + 4 * i) 4).sum ≤ bpp.toNat →
    ∃ t, exec (.mkinfo sprec bpp) s = .next t ∧ t.ci.count.toNat = sp.len.toNat ∧ t.ci.bpp.toNat = bpp.toNat ∧
      t.ci.padding.toNat + ((List.range sp.len.toNat).map fun i => s.readLE (sp.base.toNat + 4 * i) 4).sum = bpp.toNat ∧
      (∀ k : Fin 16, (t.ci.prec[k.val]).toNat =
        if k.val < sp.len.toNat then s.readLE (sp.base.toNat + 4 * k.val) 4 else 0) ∧
      Retired s t ∧ Frame { ci := true } noBytes s t

/-- 46_control_metadata R243; 60_exceptions R271: `PXINFO` reads the precision of a component below `count`, and raises
`InfoIndexRange` with the index otherwise.
The clauses of `Retired` past the top of the space and on the count are the model's choice (logs 4 and 5). -/
def Obligations.PxinfoReadsAPrecision : Prop :=
  ∀ (s : State) (pd : RegIdx) (idx : Word), s.ci.ok →
    (∀ k : Fin 16, idx.toNat = k.val → k.val < s.ci.count.toNat →
      ∃ t, exec (.pxinfo pd idx) s = .next t ∧ t.preg pd = .holds ((s.ci.prec[k.val]).setWidth 128) ∧
        Retired s t ∧ Frame { p := some pd } noBytes s t) ∧
    (s.ci.count.toNat ≤ idx.toNat → Faults (.pxinfo pd idx) s .infoIndexRange idx)

/-- 46_control_metadata R244: `RDCI` reads count, bits per pixel and padding at bits 0, 8 and 24.
The clauses of `Retired` past the top of the space and on the count are the model's choice (logs 4 and 5). -/
def Obligations.RdciReadsTheHeader : Prop :=
  ∀ (s : State) (pd : RegIdx), ∃ t p, exec (.rdci pd) s = .next t ∧ t.preg pd = .holds p ∧
    p.toNat = s.ci.count.toNat + 2 ^ 8 * s.ci.bpp.toNat + 2 ^ 24 * s.ci.padding.toNat ∧
    Retired s t ∧ Frame { p := some pd } noBytes s t

/-! ## The faults of the commands, in the order of 60_exceptions R274 -/

/-- 60_exceptions R267; 41_codec_formats R150: the first illegal format field, `fmt0` before `fmt1`. -/
def Obligations.IllegalFormatsFault : Prop :=
  ∀ (i : Instr) (s : State) (g : BitVec 8 × Bool),
    (Instr.formats i).find? (fun h => decide (26 ≤ h.1.toNat)) = some g → Faults i s .invalidFormat (formatInfo g)

/-- 60_exceptions R273, R274 step 4: the first unwritten source register in field order. -/
def Obligations.UnwrittenSourcesFault : Prop :=
  ∀ (i : Instr) (s : State) (r : Source), i.wellFormed = true →
    (Instr.sources i).find? (fun q => s.isUnwritten q) = some r → Faults i s .unwrittenRegister (sourceInfo r)

/-- 60_exceptions R269, R274 step 5: a broken length condition, with the offending length. -/
def Obligations.MismatchedLengthsFault : Prop :=
  ∀ (i : Instr) (s : State) (len : Word), SourcesReady s i → Instr.badLength s i = some len →
    Faults i s .lengthMismatch len

/-- 60_exceptions R272, R274 step 6: the first overlapping pair of spans, written spans first. -/
def Obligations.OverlappingSpansFault : Prop :=
  ∀ (i : Instr) (s : State) (a b : Nat), LengthsReady s i → OverlapAt s i a b →
    (∀ c d, OverlapAt s i c d → PairNotAfter a b c d) → Faults i s .spanOverlap (BitVec.ofNat 32 (a + 16 * b))

/-- 60_exceptions R265, R274 step 7; 20_memory R47: the first access, in field order, some byte of which does not exist,
or whose extent passes the top of the address space. -/
def Obligations.MissingBytesFault : Prop :=
  ∀ (i : Instr) (s : State) (k : Nat) (r : Word × Nat) (info : Word), LengthsReady s i →
    (∀ a b, ¬ OverlapAt s i a b) → (Instr.accesses s i)[k]? = some r → BadAccess s r info →
    (∀ (j : Nat) (q : Word × Nat), j < k → (Instr.accesses s i)[j]? = some q → ValidRange s q.1.toNat q.2) →
    Faults i s .accessFault info

/-- 60_exceptions R270: a text of another length, or the first character that is no digit. -/
def Obligations.MalformedTextsFault : Prop :=
  ∀ (s : State) (pd st : RegIdx) (text : Span) (skip n : Nat), s.sreg st = .holds text →
    ValidRange s text.base.toNat text.len.toNat → HexText s text skip n →
    (¬ HexLength n → Faults (.parsehex pd st) s .malformedHex text.len) ∧
    (∀ k, HexLength n → k < n → (∀ d, ¬ IsHexDigit (s.readByte (text.base.toNat + skip + k)) d) →
      (∀ j, j < k → ∃ d, IsHexDigit (s.readByte (text.base.toNat + skip + j)) d) →
      Faults (.parsehex pd st) s .malformedHex (BitVec.ofNat 32 (skip + k)))

/-- 60_exceptions R275; 46_control_metadata R242: too many entries, the first entry above 255, a pixel too small or too
large. -/
def Obligations.InvalidDescriptorsFault : Prop :=
  ∀ (s : State) (sprec : RegIdx) (bpp : Word) (sp : Span), s.sreg sprec = .holds sp →
    (16 < sp.len.toNat → Faults (.mkinfo sprec bpp) s .infoInvalid sp.len) ∧
    (sp.len.toNat ≤ 16 → ValidRange s sp.base.toNat (sp.len.toNat * 4) →
      (∀ i, i < sp.len.toNat → 255 < s.readLE (sp.base.toNat + 4 * i) 4 →
        (∀ j, j < i → s.readLE (sp.base.toNat + 4 * j) 4 ≤ 255) →
        Faults (.mkinfo sprec bpp) s .infoInvalid (BitVec.ofNat 32 (0x100 + i))) ∧
      ((∀ i, i < sp.len.toNat → s.readLE (sp.base.toNat + 4 * i) 4 ≤ 255) →
        (65535 < bpp.toNat ∨
          bpp.toNat < ((List.range sp.len.toNat).map fun i => s.readLE (sp.base.toNat + 4 * i) 4).sum) →
        Faults (.mkinfo sprec bpp) s .infoInvalid 0x200))

/-! ## The codec and the numbers -/

/-- 41_codec_formats R122; 40_canonical_model R94 to R98, R106: every field of a packed value holds the code its law gives,
and no bit stands outside the fields; the laws for a component that is no NaN, a half code within ±65504 being the nearest
binary16, ties to even, with the component's sign; the scaled flavour of the signed formats packs `c * 2 - 1`, and of the
others is the native one. -/
def Obligations.PackedFieldsHoldTheirCodes : Prop :=
  ∀ (d : Draws) (f : Fmt) (v : Vec4),
    (fromCanonical d f v).toNat < 2 ^ Fmt.bits f ∧
    (∀ fld ∈ Fmt.fields f,
      let c := v.component fld.channel
      let u := d (Channel.slot fld.channel)
      let raw := (fromCanonical d f v).toNat / 2 ^ fld.lo % 2 ^ fld.width
      (fld.kind = .unsigned → raw = (packU u c fld.width).toNat) ∧
      (fld.kind = .luminance → raw = (packL u v.x v.y v.z fld.width).toNat) ∧
      (fld.kind = .signed → raw = (packS u c fld.width).toNat) ∧
      (fld.kind = .half → raw = (packH u c).toNat) ∧ (fld.kind = .float → raw = c.toNat)) ∧
    (∀ (u : BitVec 32) (c : F32) (w : Nat), F32.isNaN c = false →
      packU u c w = BitVec.ofInt w (roundHaz (fmul (fclamp c F32.zero F32.one) (i2f (2 ^ w - 1 : Nat)))) ∧
      packS u c w = BitVec.ofInt w (roundHaz (fmul (fclamp c F32.negOne F32.one) (i2f (2 ^ (w - 1) - 1 : Nat)))) ∧
      packH u c = toBinary16 (fclamp c 0xC77FE000 0x477FE000)) ∧
    (∀ (u : BitVec 32) (c : F32), F32.isFinite c = true → |F32.value c| ≤ 65504 →
      NearestHalf (F32.value c) (packH u c) ∧ (packH u c).getLsbD 15 = F32.sign c) ∧
    (∀ (u : BitVec 32) (r g b : F32) (w : Nat), F32.isNaN r = false → F32.isNaN g = false → F32.isNaN b = false →
      packL u r g b w = packU u (fadd (fadd (fmul 0x3E59B3D0 (fclamp r F32.zero F32.one))
        (fmul 0x3F371759 (fclamp g F32.zero F32.one))) (fmul 0x3D93DD98 (fclamp b F32.zero F32.one))) w) ∧
    ((∀ fld ∈ Fmt.fields f, fld.kind = .signed) →
      let down (c : F32) : F32 := fsub (fmul c F32.two) F32.one
      fromScaled d f v = fromCanonical d f { x := down v.x, y := down v.y, z := down v.z, w := down v.w }) ∧
    ((∀ fld ∈ Fmt.fields f, fld.kind ≠ .signed) → fromScaled d f v = fromCanonical d f v)

/-- 41_codec_formats R121; 40_canonical_model R93 to R98, R106: every field's value is read into its component, luminance
into all three colours; a component without a field is 0, alpha 1, in both flavours; the scaled flavour of a signed field
is `(c + 1) / 2`, and of the other formats is the native one. A half pattern unpacks to the binary32 of its value and sign,
an infinity to that infinity, a NaN to a NaN. -/
def Obligations.UnpackedComponentsReadTheirFields : Prop :=
  ∀ (d : Draws) (f : Fmt) (p : Pixel),
    let v := toCanonical d f p
    (∀ fld ∈ Fmt.fields f,
      let raw := p.extractLsb' fld.lo fld.width
      (fld.kind = .unsigned → v.component fld.channel = fdiv (i2f raw.toNat) (i2f (2 ^ fld.width - 1 : Nat))) ∧
      (fld.kind = .signed → v.component fld.channel = fdiv (i2f raw.toInt) (i2f (2 ^ (fld.width - 1) - 1 : Nat)) ∧
        (toScaled d f p).component fld.channel = fdiv (fadd (v.component fld.channel) F32.one) F32.two) ∧
      (fld.kind = .half → v.component fld.channel =
        unpackH (d (Channel.slot fld.channel)) (p.extractLsb' fld.lo 16)) ∧
      (fld.kind = .float → v.component fld.channel = p.extractLsb' fld.lo 32) ∧
      (fld.kind = .luminance → v.x = fdiv (i2f raw.toNat) (i2f (2 ^ fld.width - 1 : Nat)) ∧ v.y = v.x ∧ v.z = v.x)) ∧
    (∀ w ∈ [v, toScaled d f p],
      ((∀ fld ∈ Fmt.fields f, fld.channel ≠ .red ∧ fld.channel ≠ .luma) → w.x = F32.zero) ∧
      ((∀ fld ∈ Fmt.fields f, fld.channel ≠ .green ∧ fld.channel ≠ .luma) → w.y = F32.zero) ∧
      ((∀ fld ∈ Fmt.fields f, fld.channel ≠ .blue ∧ fld.channel ≠ .luma) → w.z = F32.zero) ∧
      ((∀ fld ∈ Fmt.fields f, fld.channel ≠ .alpha) → w.w = F32.one)) ∧
    ((∀ fld ∈ Fmt.fields f, fld.kind ≠ .signed) → toScaled d f p = v) ∧
    ∀ (u : BitVec 32) (h : BitVec 16),
      (halfExponent h ≠ 31 → F32.isFinite (unpackH u h) = true ∧ F32.value (unpackH u h) = halfValue h ∧
        F32.sign (unpackH u h) = h.getLsbD 15) ∧
      (h.toNat % 2 ^ 15 = 0x7C00 → unpackH u h = if h.getLsbD 15 then 0xFF800000 else 0x7F800000) ∧
      (0x7C00 < h.toNat % 2 ^ 15 → F32.isNaN (unpackH u h) = true)

/-- 40_canonical_model R107: packing what was unpacked gives the packed value back, in both flavours. -/
def Obligations.UnpackThenPackIsTheIdentity : Prop :=
  ∀ (du dp : Draws) (f : Fmt) (p : Pixel), RoundTrips f p →
    fromCanonical dp f (toCanonical du f p) = p ∧ fromScaled dp f (toScaled du f p) = p

/-- 40_canonical_model R87, R92, R94, R95, R96, R108: a component at or beyond the end of its range packs to the extreme
code, and a signed code is never the most negative one, for a NaN neither. -/
def Obligations.PackedCodesAreLegalAndClamped : Prop :=
  ∀ (u : BitVec 32) (v : F32),
    (∀ w ∈ [8, 16],
      -(2 ^ (w - 1) - 1) ≤ (packS u v w).toInt ∧ (packS u v w).toInt ≤ 2 ^ (w - 1) - 1) ∧
    (F32.isNaN v = false →
      (∀ w ∈ [1, 2, 4, 5, 6, 8, 10, 16],
        (F32.order F32.one ≤ F32.order v → (packU u v w).toNat = 2 ^ w - 1) ∧
        (F32.order v ≤ 0 → (packU u v w).toNat = 0)) ∧
      (∀ w ∈ [8, 16],
        (F32.order F32.one ≤ F32.order v → (packS u v w).toInt = 2 ^ (w - 1) - 1) ∧
        (F32.order v ≤ F32.order F32.negOne → (packS u v w).toInt = -(2 ^ (w - 1) - 1))) ∧
      (F32.order halfMax ≤ F32.order v → packH u v = 0x7BFF) ∧
      (F32.order v ≤ F32.order halfMin → packH u v = 0xFBFF))

/-- 40_canonical_model R85: `round_haz` is the floor of the magnitude plus one half, with the sign. -/
def Obligations.RoundHazRoundsHalfAway : Prop :=
  ∀ x : F32, F32.isFinite x = true →
    roundHaz x = (if F32.sign x then -1 else 1) * ⌊|F32.value x| + 1 / 2⌋

/-- 40_canonical_model R81, R82, R86, R88: for finite operands the sum, the difference, the product and, by a divisor that is no
zero, the quotient are the exact rational rounded to nearest, ties to even: finite where it is below 2^128 - 2^103 in
magnitude, the infinity of its sign from there on; the sign of a product or quotient, and of a sum or difference that is
zero; a quotient by zero. With a NaN operand the result is a NaN; with an infinity it is that of IEEE 754, a NaN where the
operation is invalid (R88). `i2f` is exact on the integers the spec passes to it (R86). -/
def Obligations.ArithmeticRoundsToNearestEven : Prop :=
  (∀ a b : F32, F32.isFinite a = true → F32.isFinite b = true →
    RoundsTo (F32.value a + F32.value b) (fadd a b) ∧ RoundsTo (F32.value a - F32.value b) (fsub a b) ∧
    RoundsTo (F32.value a * F32.value b) (fmul a b) ∧
    (F32.isZero b = false → RoundsTo (F32.value a / F32.value b) (fdiv a b)) ∧
    (F32.value a + F32.value b = 0 → F32.sign (fadd a b) = (F32.sign a && F32.sign b)) ∧
    (F32.value a - F32.value b = 0 → F32.sign (fsub a b) = (F32.sign a && !F32.sign b)) ∧
    F32.sign (fmul a b) = (F32.sign a != F32.sign b) ∧
    (F32.isZero b = false → F32.sign (fdiv a b) = (F32.sign a != F32.sign b)) ∧
    (F32.isZero b = true → F32.isZero a = true → F32.isNaN (fdiv a b) = true) ∧
    (F32.isZero b = true → F32.isZero a = false →
      fdiv a b = if F32.sign a = F32.sign b then 0x7F800000 else 0xFF800000)) ∧
  (∀ a b : F32, F32.isNaN a = true ∨ F32.isNaN b = true →
    ∀ op ∈ [fadd, fsub, fmul, fdiv], F32.isNaN (op a b) = true) ∧
  (∀ a b : F32, F32.isInf a = true → F32.isNaN b = false →
    let inf (neg : Bool) : F32 := if neg then 0xFF800000 else 0x7F800000
    (if F32.isInf b = true ∧ F32.sign a ≠ F32.sign b then F32.isNaN (fadd a b) = true ∧ F32.isNaN (fadd b a) = true
      else fadd a b = a ∧ fadd b a = a) ∧
    (if F32.isInf b = true ∧ F32.sign a = F32.sign b then F32.isNaN (fsub a b) = true else fsub a b = a) ∧
    (F32.isInf b = false → fsub b a = inf (!F32.sign a)) ∧
    (if F32.isZero b = true then F32.isNaN (fmul a b) = true ∧ F32.isNaN (fmul b a) = true
      else fmul a b = inf (F32.sign a != F32.sign b) ∧ fmul b a = inf (F32.sign a != F32.sign b)) ∧
    (if F32.isInf b = true then F32.isNaN (fdiv a b) = true else fdiv a b = inf (F32.sign a != F32.sign b)) ∧
    (F32.isInf b = false → fdiv b a = if F32.sign a = F32.sign b then 0x00000000 else 0x80000000)) ∧
  ∀ n : Int, |n| ≤ 65535 → F32.isFinite (i2f n) = true ∧ F32.value (i2f n) = n

/-- 40_canonical_model R100, P2 and P3: the two companding functions take 0 to 0 and 1 to 1, stay in [0,1] there and are
monotone; nothing else is assumed of them, the sign of a zero result neither (log 9). -/
def Obligations.CompandingKeepsTheUnitRange : Prop :=
  ∀ g ∈ [srgbExpand, srgbCompress],
    F32.isZero (g F32.zero) = true ∧ F32.isZero (g F32.negZero) = true ∧ g F32.one = F32.one ∧
    (∀ c, F32.isNaN c = false → 0 ≤ F32.order c → F32.order c ≤ F32.order F32.one →
      F32.isNaN (g c) = false ∧ 0 ≤ F32.order (g c) ∧ F32.order (g c) ≤ F32.order F32.one) ∧
    ∀ c e, F32.isNaN c = false → F32.isNaN e = false → 0 ≤ F32.order c → F32.order c ≤ F32.order e →
      F32.order e ≤ F32.order F32.one → F32.order (g c) ≤ F32.order (g e)

/-- 40_canonical_model R99, R101, R102, R103, with R81 and R87 for NaNs: forward, the flavour of the unpacked vector,
expansion, then the product with alpha; backward, the quotient by an alpha that is no zero, then compression, then the
flavour packed. Each component is stated where nothing it is computed from is a NaN; a product that is one is a NaN. -/
def Obligations.ModifiersApplyInOrder : Prop :=
  ∀ (du da dp : Draws) (f : Fmt) (p : Pixel) (v : Vec4) (m : BitVec 3),
    let u := if m &&& 5 = 0 then toCanonical du f p else toScaled du f p
    let e (c : F32) : F32 := if m.getLsbD 2 then srgbExpand c else c
    let r := toVector4Elem du da f p m
    let q (c : F32) : F32 := if m.getLsbD 1 && !F32.isZero v.w then fdiv c v.w else c
    let k (c : F32) : F32 := if m.getLsbD 2 then srgbCompress c else c
    let packed (x : Vec4) : Pixel := if m &&& 5 = 0 then fromCanonical dp f x else fromScaled dp f x
    r.w = u.w ∧ (m &&& 6 = 0 → r = u) ∧
    (∀ g ∈ [Vec4.x, Vec4.y, Vec4.z], F32.isNaN (g u) = false →
      (m.getLsbD 1 = false → g r = e (g u)) ∧
      (m.getLsbD 1 = true → F32.isNaN u.w = false → F32.isNaN (e (g u)) = false →
        (F32.isNaN (fmul (e (g u)) u.w) = false → g r = fmul (e (g u)) u.w) ∧
        (F32.isNaN (fmul (e (g u)) u.w) = true → F32.isNaN (g r) = true))) ∧
    (m &&& 6 = 0 → fromVector4Elem da dp f v m = packed v) ∧
    ((∀ g ∈ [Vec4.x, Vec4.y, Vec4.z], F32.isNaN (g v) = false ∧ F32.isNaN (q (g v)) = false) →
      fromVector4Elem da dp f v m = packed { x := k (q v.x), y := k (q v.y), z := k (q v.z), w := v.w })

end
end

