-- ==== Sys2Proof/Laws/State.lean ====
section
/-! SUPPORT. What each state update leaves of each field: one lemma per field per update. -/

namespace Sys2Proof.Machine

/-! ## `setP` (10_state R10) -/

@[simp] theorem setP_pregs (s : State) (i : RegIdx) (v : Pixel) : (s.setP i v).pregs = s.pregs.set i.toNat (.holds v) i.isLt := rfl
@[simp] theorem setP_vregs (s : State) (i : RegIdx) (v : Pixel) : (s.setP i v).vregs = s.vregs := rfl
@[simp] theorem setP_sregs (s : State) (i : RegIdx) (v : Pixel) : (s.setP i v).sregs = s.sregs := rfl
@[simp] theorem setP_cp (s : State) (i : RegIdx) (v : Pixel) : (s.setP i v).cp = s.cp := rfl
@[simp] theorem setP_cpPastTop (s : State) (i : RegIdx) (v : Pixel) : (s.setP i v).cpPastTop = s.cpPastTop := rfl
@[simp] theorem setP_status (s : State) (i : RegIdx) (v : Pixel) : (s.setP i v).status = s.status := rfl
@[simp] theorem setP_faultCode (s : State) (i : RegIdx) (v : Pixel) : (s.setP i v).faultCode = s.faultCode := rfl
@[simp] theorem setP_faultCp (s : State) (i : RegIdx) (v : Pixel) : (s.setP i v).faultCp = s.faultCp := rfl
@[simp] theorem setP_faultInfo (s : State) (i : RegIdx) (v : Pixel) : (s.setP i v).faultInfo = s.faultInfo := rfl
@[simp] theorem setP_blender (s : State) (i : RegIdx) (v : Pixel) : (s.setP i v).blender = s.blender := rfl
@[simp] theorem setP_opsReady (s : State) (i : RegIdx) (v : Pixel) : (s.setP i v).opsReady = s.opsReady := rfl
@[simp] theorem setP_ci (s : State) (i : RegIdx) (v : Pixel) : (s.setP i v).ci = s.ci := rfl
@[simp] theorem setP_mem (s : State) (i : RegIdx) (v : Pixel) : (s.setP i v).mem = s.mem := rfl
@[simp] theorem setP_memValid (s : State) (i : RegIdx) (v : Pixel) : (s.setP i v).memValid = s.memValid := rfl
@[simp] theorem setP_draws (s : State) (i : RegIdx) (v : Pixel) : (s.setP i v).draws = s.draws := rfl

/-! ## `setV` (10_state R11) -/

@[simp] theorem setV_pregs (s : State) (i : RegIdx) (v : Vec4) : (s.setV i v).pregs = s.pregs := rfl
@[simp] theorem setV_vregs (s : State) (i : RegIdx) (v : Vec4) : (s.setV i v).vregs = s.vregs.set i.toNat (.holds v) i.isLt := rfl
@[simp] theorem setV_sregs (s : State) (i : RegIdx) (v : Vec4) : (s.setV i v).sregs = s.sregs := rfl
@[simp] theorem setV_cp (s : State) (i : RegIdx) (v : Vec4) : (s.setV i v).cp = s.cp := rfl
@[simp] theorem setV_cpPastTop (s : State) (i : RegIdx) (v : Vec4) : (s.setV i v).cpPastTop = s.cpPastTop := rfl
@[simp] theorem setV_status (s : State) (i : RegIdx) (v : Vec4) : (s.setV i v).status = s.status := rfl
@[simp] theorem setV_faultCode (s : State) (i : RegIdx) (v : Vec4) : (s.setV i v).faultCode = s.faultCode := rfl
@[simp] theorem setV_faultCp (s : State) (i : RegIdx) (v : Vec4) : (s.setV i v).faultCp = s.faultCp := rfl
@[simp] theorem setV_faultInfo (s : State) (i : RegIdx) (v : Vec4) : (s.setV i v).faultInfo = s.faultInfo := rfl
@[simp] theorem setV_blender (s : State) (i : RegIdx) (v : Vec4) : (s.setV i v).blender = s.blender := rfl
@[simp] theorem setV_opsReady (s : State) (i : RegIdx) (v : Vec4) : (s.setV i v).opsReady = s.opsReady := rfl
@[simp] theorem setV_ci (s : State) (i : RegIdx) (v : Vec4) : (s.setV i v).ci = s.ci := rfl
@[simp] theorem setV_mem (s : State) (i : RegIdx) (v : Vec4) : (s.setV i v).mem = s.mem := rfl
@[simp] theorem setV_memValid (s : State) (i : RegIdx) (v : Vec4) : (s.setV i v).memValid = s.memValid := rfl
@[simp] theorem setV_draws (s : State) (i : RegIdx) (v : Vec4) : (s.setV i v).draws = s.draws := rfl

/-! ## `setS` (10_state R12) -/

@[simp] theorem setS_pregs (s : State) (i : RegIdx) (v : Span) : (s.setS i v).pregs = s.pregs := rfl
@[simp] theorem setS_vregs (s : State) (i : RegIdx) (v : Span) : (s.setS i v).vregs = s.vregs := rfl
@[simp] theorem setS_sregs (s : State) (i : RegIdx) (v : Span) : (s.setS i v).sregs = s.sregs.set i.toNat (.holds v) i.isLt := rfl
@[simp] theorem setS_cp (s : State) (i : RegIdx) (v : Span) : (s.setS i v).cp = s.cp := rfl
@[simp] theorem setS_cpPastTop (s : State) (i : RegIdx) (v : Span) : (s.setS i v).cpPastTop = s.cpPastTop := rfl
@[simp] theorem setS_status (s : State) (i : RegIdx) (v : Span) : (s.setS i v).status = s.status := rfl
@[simp] theorem setS_faultCode (s : State) (i : RegIdx) (v : Span) : (s.setS i v).faultCode = s.faultCode := rfl
@[simp] theorem setS_faultCp (s : State) (i : RegIdx) (v : Span) : (s.setS i v).faultCp = s.faultCp := rfl
@[simp] theorem setS_faultInfo (s : State) (i : RegIdx) (v : Span) : (s.setS i v).faultInfo = s.faultInfo := rfl
@[simp] theorem setS_blender (s : State) (i : RegIdx) (v : Span) : (s.setS i v).blender = s.blender := rfl
@[simp] theorem setS_opsReady (s : State) (i : RegIdx) (v : Span) : (s.setS i v).opsReady = s.opsReady := rfl
@[simp] theorem setS_ci (s : State) (i : RegIdx) (v : Span) : (s.setS i v).ci = s.ci := rfl
@[simp] theorem setS_mem (s : State) (i : RegIdx) (v : Span) : (s.setS i v).mem = s.mem := rfl
@[simp] theorem setS_memValid (s : State) (i : RegIdx) (v : Span) : (s.setS i v).memValid = s.memValid := rfl
@[simp] theorem setS_draws (s : State) (i : RegIdx) (v : Span) : (s.setS i v).draws = s.draws := rfl

/-! ## `writeBytes` (20_memory R42) -/

@[simp] theorem writeBytes_pregs (s : State) (a : Nat) (bs : List Byte) : (s.writeBytes a bs).pregs = s.pregs := rfl
@[simp] theorem writeBytes_vregs (s : State) (a : Nat) (bs : List Byte) : (s.writeBytes a bs).vregs = s.vregs := rfl
@[simp] theorem writeBytes_sregs (s : State) (a : Nat) (bs : List Byte) : (s.writeBytes a bs).sregs = s.sregs := rfl
@[simp] theorem writeBytes_cp (s : State) (a : Nat) (bs : List Byte) : (s.writeBytes a bs).cp = s.cp := rfl
@[simp] theorem writeBytes_cpPastTop (s : State) (a : Nat) (bs : List Byte) : (s.writeBytes a bs).cpPastTop = s.cpPastTop := rfl
@[simp] theorem writeBytes_status (s : State) (a : Nat) (bs : List Byte) : (s.writeBytes a bs).status = s.status := rfl
@[simp] theorem writeBytes_faultCode (s : State) (a : Nat) (bs : List Byte) : (s.writeBytes a bs).faultCode = s.faultCode := rfl
@[simp] theorem writeBytes_faultCp (s : State) (a : Nat) (bs : List Byte) : (s.writeBytes a bs).faultCp = s.faultCp := rfl
@[simp] theorem writeBytes_faultInfo (s : State) (a : Nat) (bs : List Byte) : (s.writeBytes a bs).faultInfo = s.faultInfo := rfl
@[simp] theorem writeBytes_blender (s : State) (a : Nat) (bs : List Byte) : (s.writeBytes a bs).blender = s.blender := rfl
@[simp] theorem writeBytes_opsReady (s : State) (a : Nat) (bs : List Byte) : (s.writeBytes a bs).opsReady = s.opsReady := rfl
@[simp] theorem writeBytes_ci (s : State) (a : Nat) (bs : List Byte) : (s.writeBytes a bs).ci = s.ci := rfl
@[simp] theorem writeBytes_mem (s : State) (a : Nat) (bs : List Byte) : (s.writeBytes a bs).mem = memWriteBytes s.mem a bs := rfl
@[simp] theorem writeBytes_memValid (s : State) (a : Nat) (bs : List Byte) : (s.writeBytes a bs).memValid = s.memValid := rfl
@[simp] theorem writeBytes_draws (s : State) (a : Nat) (bs : List Byte) : (s.writeBytes a bs).draws = s.draws := rfl

/-! ## `touch` (43_bulk R181) -/

@[simp] theorem touch_pregs (s : State) (f : Fmt) : (s.touch f).pregs = s.pregs := rfl
@[simp] theorem touch_vregs (s : State) (f : Fmt) : (s.touch f).vregs = s.vregs := rfl
@[simp] theorem touch_sregs (s : State) (f : Fmt) : (s.touch f).sregs = s.sregs := rfl
@[simp] theorem touch_cp (s : State) (f : Fmt) : (s.touch f).cp = s.cp := rfl
@[simp] theorem touch_cpPastTop (s : State) (f : Fmt) : (s.touch f).cpPastTop = s.cpPastTop := rfl
@[simp] theorem touch_status (s : State) (f : Fmt) : (s.touch f).status = s.status := rfl
@[simp] theorem touch_faultCode (s : State) (f : Fmt) : (s.touch f).faultCode = s.faultCode := rfl
@[simp] theorem touch_faultCp (s : State) (f : Fmt) : (s.touch f).faultCp = s.faultCp := rfl
@[simp] theorem touch_faultInfo (s : State) (f : Fmt) : (s.touch f).faultInfo = s.faultInfo := rfl
@[simp] theorem touch_blender (s : State) (f : Fmt) : (s.touch f).blender = s.blender := rfl
@[simp] theorem touch_opsReady (s : State) (f : Fmt) : (s.touch f).opsReady = s.opsReady ||| (1#32 <<< Fmt.id f) := rfl
@[simp] theorem touch_ci (s : State) (f : Fmt) : (s.touch f).ci = s.ci := rfl
@[simp] theorem touch_mem (s : State) (f : Fmt) : (s.touch f).mem = s.mem := rfl
@[simp] theorem touch_memValid (s : State) (f : Fmt) : (s.touch f).memValid = s.memValid := rfl
@[simp] theorem touch_draws (s : State) (f : Fmt) : (s.touch f).draws = s.draws := rfl

/-! ## `takeFault` (60_exceptions R262) -/

@[simp] theorem takeFault_pregs (s : State) (r : FaultRequest) : (s.takeFault r).pregs = s.pregs := rfl
@[simp] theorem takeFault_vregs (s : State) (r : FaultRequest) : (s.takeFault r).vregs = s.vregs := rfl
@[simp] theorem takeFault_sregs (s : State) (r : FaultRequest) : (s.takeFault r).sregs = s.sregs := rfl
@[simp] theorem takeFault_cp (s : State) (r : FaultRequest) : (s.takeFault r).cp = s.cp := rfl
@[simp] theorem takeFault_cpPastTop (s : State) (r : FaultRequest) : (s.takeFault r).cpPastTop = s.cpPastTop := rfl
@[simp] theorem takeFault_status (s : State) (r : FaultRequest) : (s.takeFault r).status = .fault := rfl
@[simp] theorem takeFault_faultCode (s : State) (r : FaultRequest) : (s.takeFault r).faultCode = r.code := rfl
@[simp] theorem takeFault_faultCp (s : State) (r : FaultRequest) : (s.takeFault r).faultCp = s.cp := rfl
@[simp] theorem takeFault_faultInfo (s : State) (r : FaultRequest) : (s.takeFault r).faultInfo = r.info := rfl
@[simp] theorem takeFault_blender (s : State) (r : FaultRequest) : (s.takeFault r).blender = s.blender := rfl
@[simp] theorem takeFault_opsReady (s : State) (r : FaultRequest) : (s.takeFault r).opsReady = s.opsReady := rfl
@[simp] theorem takeFault_ci (s : State) (r : FaultRequest) : (s.takeFault r).ci = s.ci := rfl
@[simp] theorem takeFault_mem (s : State) (r : FaultRequest) : (s.takeFault r).mem = s.mem := rfl
@[simp] theorem takeFault_memValid (s : State) (r : FaultRequest) : (s.takeFault r).memValid = s.memValid := rfl
@[simp] theorem takeFault_draws (s : State) (r : FaultRequest) : (s.takeFault r).draws = s.draws := rfl

/-! ## `ctrlReset` (70_reset R290) -/

@[simp] theorem ctrlReset_pregs (s : State)  : (s.ctrlReset).pregs = Vector.replicate 16 .unwritten := rfl
@[simp] theorem ctrlReset_vregs (s : State)  : (s.ctrlReset).vregs = Vector.replicate 16 .unwritten := rfl
@[simp] theorem ctrlReset_sregs (s : State)  : (s.ctrlReset).sregs = Vector.replicate 16 .unwritten := rfl
@[simp] theorem ctrlReset_cp (s : State)  : (s.ctrlReset).cp = 0 := rfl
@[simp] theorem ctrlReset_cpPastTop (s : State)  : (s.ctrlReset).cpPastTop = false := rfl
@[simp] theorem ctrlReset_status (s : State)  : (s.ctrlReset).status = .idle := rfl
@[simp] theorem ctrlReset_faultCode (s : State)  : (s.ctrlReset).faultCode = .noFault := rfl
@[simp] theorem ctrlReset_faultCp (s : State)  : (s.ctrlReset).faultCp = 0 := rfl
@[simp] theorem ctrlReset_faultInfo (s : State)  : (s.ctrlReset).faultInfo = 0 := rfl
@[simp] theorem ctrlReset_blender (s : State)  : (s.ctrlReset).blender = Blender.reset := rfl
@[simp] theorem ctrlReset_opsReady (s : State)  : (s.ctrlReset).opsReady = s.opsReady := rfl
@[simp] theorem ctrlReset_ci (s : State)  : (s.ctrlReset).ci = CompInfo.empty := rfl
@[simp] theorem ctrlReset_mem (s : State)  : (s.ctrlReset).mem = s.mem := rfl
@[simp] theorem ctrlReset_memValid (s : State)  : (s.ctrlReset).memValid = s.memValid := rfl
@[simp] theorem ctrlReset_draws (s : State)  : (s.ctrlReset).draws = s.draws := rfl

/-! ## `platformReset` (70_reset R290) -/

@[simp] theorem platformReset_pregs (s : State)  : (s.platformReset).pregs = Vector.replicate 16 .unwritten := rfl
@[simp] theorem platformReset_vregs (s : State)  : (s.platformReset).vregs = Vector.replicate 16 .unwritten := rfl
@[simp] theorem platformReset_sregs (s : State)  : (s.platformReset).sregs = Vector.replicate 16 .unwritten := rfl
@[simp] theorem platformReset_cp (s : State)  : (s.platformReset).cp = 0 := rfl
@[simp] theorem platformReset_cpPastTop (s : State)  : (s.platformReset).cpPastTop = false := rfl
@[simp] theorem platformReset_status (s : State)  : (s.platformReset).status = .idle := rfl
@[simp] theorem platformReset_faultCode (s : State)  : (s.platformReset).faultCode = .noFault := rfl
@[simp] theorem platformReset_faultCp (s : State)  : (s.platformReset).faultCp = 0 := rfl
@[simp] theorem platformReset_faultInfo (s : State)  : (s.platformReset).faultInfo = 0 := rfl
@[simp] theorem platformReset_blender (s : State)  : (s.platformReset).blender = Blender.reset := rfl
@[simp] theorem platformReset_opsReady (s : State)  : (s.platformReset).opsReady = 0 := rfl
@[simp] theorem platformReset_ci (s : State)  : (s.platformReset).ci = CompInfo.empty := rfl
@[simp] theorem platformReset_mem (s : State)  : (s.platformReset).mem = s.mem := rfl
@[simp] theorem platformReset_memValid (s : State)  : (s.platformReset).memValid = s.memValid := rfl
@[simp] theorem platformReset_draws (s : State)  : (s.platformReset).draws = s.draws := rfl

/-! ## `abandonFrom` and `abandoned` (70_reset R290; log 11) -/

/-- An abandoned command had begun on its elements, with its bits set, or had written no byte (70_reset R290). -/
theorem abandonFrom_cases (s t : State) (begun : Bool) :
    s.abandonFrom t begun = { s with mem := mixedMemory s t.mem, opsReady := t.opsReady, draws := s.draws + 1 } ∨
      begun = false ∧ s.abandonFrom t begun = { s with
        opsReady := s.opsReady ||| (t.opsReady &&& Config.abandonedTouched s.draws), draws := s.draws + 1 } := by
  unfold State.abandonFrom
  split
  · exact .inl rfl
  · next h => exact .inr ⟨by cases begun <;> simp_all, rfl⟩

/-- What an abandoned command leaves differs from the state before it in memory, `OPS_READY` and the count alone. -/
theorem abandoned_eq (s : State) :
    s.abandoned = { s with mem := s.abandoned.mem, opsReady := s.abandoned.opsReady, draws := s.abandoned.draws } := by
  unfold State.abandoned
  split
  · next t _ => rcases abandonFrom_cases s t false with h | ⟨-, h⟩ <;> rw [h]
  · rfl
  · rfl

@[simp] theorem abandoned_pregs (s : State) : s.abandoned.pregs = s.pregs := by rw [abandoned_eq]
@[simp] theorem abandoned_vregs (s : State) : s.abandoned.vregs = s.vregs := by rw [abandoned_eq]
@[simp] theorem abandoned_sregs (s : State) : s.abandoned.sregs = s.sregs := by rw [abandoned_eq]
@[simp] theorem abandoned_cp (s : State) : s.abandoned.cp = s.cp := by rw [abandoned_eq]
@[simp] theorem abandoned_cpPastTop (s : State) : s.abandoned.cpPastTop = s.cpPastTop := by rw [abandoned_eq]
@[simp] theorem abandoned_status (s : State) : s.abandoned.status = s.status := by rw [abandoned_eq]
@[simp] theorem abandoned_faultCode (s : State) : s.abandoned.faultCode = s.faultCode := by rw [abandoned_eq]
@[simp] theorem abandoned_faultCp (s : State) : s.abandoned.faultCp = s.faultCp := by rw [abandoned_eq]
@[simp] theorem abandoned_faultInfo (s : State) : s.abandoned.faultInfo = s.faultInfo := by rw [abandoned_eq]
@[simp] theorem abandoned_blender (s : State) : s.abandoned.blender = s.blender := by rw [abandoned_eq]
@[simp] theorem abandoned_ci (s : State) : s.abandoned.ci = s.ci := by rw [abandoned_eq]
@[simp] theorem abandoned_memValid (s : State) : s.abandoned.memValid = s.memValid := by rw [abandoned_eq]

/-- As `abandonFrom_cases`, of the command at `cp`. -/
theorem abandoned_cases (s t : State) (h : step s = .next t) :
    (s.abandoned.mem = mixedMemory s t.mem ∧ s.abandoned.opsReady = t.opsReady) ∨
      (s.abandoned.mem = s.mem ∧
        s.abandoned.opsReady = s.opsReady ||| (t.opsReady &&& Config.abandonedTouched s.draws)) := by
  unfold State.abandoned
  rw [h]
  rcases abandonFrom_cases s t false with h | ⟨-, h⟩ <;> simp [h]

/-! ## `placeCommand` (log 14) -/

@[simp] theorem placeCommand_pregs (s : State) (c : Command) : (s.placeCommand c).pregs = s.pregs := rfl
@[simp] theorem placeCommand_vregs (s : State) (c : Command) : (s.placeCommand c).vregs = s.vregs := rfl
@[simp] theorem placeCommand_sregs (s : State) (c : Command) : (s.placeCommand c).sregs = s.sregs := rfl
@[simp] theorem placeCommand_cp (s : State) (c : Command) : (s.placeCommand c).cp = s.placeAddr := rfl
@[simp] theorem placeCommand_cpPastTop (s : State) (c : Command) : (s.placeCommand c).cpPastTop = false := rfl
@[simp] theorem placeCommand_status (s : State) (c : Command) : (s.placeCommand c).status = .run := rfl
@[simp] theorem placeCommand_faultCode (s : State) (c : Command) : (s.placeCommand c).faultCode = s.faultCode := rfl
@[simp] theorem placeCommand_faultCp (s : State) (c : Command) : (s.placeCommand c).faultCp = s.faultCp := rfl
@[simp] theorem placeCommand_faultInfo (s : State) (c : Command) : (s.placeCommand c).faultInfo = s.faultInfo := rfl
@[simp] theorem placeCommand_blender (s : State) (c : Command) : (s.placeCommand c).blender = s.blender := rfl
@[simp] theorem placeCommand_opsReady (s : State) (c : Command) : (s.placeCommand c).opsReady = s.opsReady := rfl
@[simp] theorem placeCommand_ci (s : State) (c : Command) : (s.placeCommand c).ci = s.ci := rfl
@[simp] theorem placeCommand_mem (s : State) (c : Command) : (s.placeCommand c).mem = memWriteBytes s.mem s.placeAddr.toNat (leBytes 16 c.toNat) := rfl
@[simp] theorem placeCommand_memValid (s : State) (c : Command) : (s.placeCommand c).memValid = withCommandRegion s.memValid s.placeAddr.toNat := rfl
@[simp] theorem placeCommand_draws (s : State) (c : Command) : (s.placeCommand c).draws = s.draws := rfl

/-! ## `retire` (10_state R15) -/

@[simp] theorem retire_pregs (s : State) : s.retire.pregs = s.pregs := by unfold State.retire; split <;> rfl
@[simp] theorem retire_vregs (s : State) : s.retire.vregs = s.vregs := by unfold State.retire; split <;> rfl
@[simp] theorem retire_sregs (s : State) : s.retire.sregs = s.sregs := by unfold State.retire; split <;> rfl
@[simp] theorem retire_status (s : State) : s.retire.status = s.status := by unfold State.retire; split <;> rfl
@[simp] theorem retire_faultCode (s : State) : s.retire.faultCode = s.faultCode := by unfold State.retire; split <;> rfl
@[simp] theorem retire_faultCp (s : State) : s.retire.faultCp = s.faultCp := by unfold State.retire; split <;> rfl
@[simp] theorem retire_faultInfo (s : State) : s.retire.faultInfo = s.faultInfo := by unfold State.retire; split <;> rfl
@[simp] theorem retire_blender (s : State) : s.retire.blender = s.blender := by unfold State.retire; split <;> rfl
@[simp] theorem retire_opsReady (s : State) : s.retire.opsReady = s.opsReady := by unfold State.retire; split <;> rfl
@[simp] theorem retire_ci (s : State) : s.retire.ci = s.ci := by unfold State.retire; split <;> rfl
@[simp] theorem retire_mem (s : State) : s.retire.mem = s.mem := by unfold State.retire; split <;> rfl
@[simp] theorem retire_memValid (s : State) : s.retire.memValid = s.memValid := by unfold State.retire; split <;> rfl
@[simp] theorem retire_draws (s : State) : s.retire.draws = s.draws + 1 := by unfold State.retire; split <;> rfl

/-- Inside the space `cp` moves on by 16 (10_state R15). -/
theorem retire_inside (s : State) (h : s.cp.toNat + 16 < 2 ^ 32) :
    s.retire.cp = s.cp + 16 ∧ s.retire.cpPastTop = s.cpPastTop := by
  unfold State.retire; rw [if_pos h]; exact ⟨rfl, rfl⟩

/-- Past the last command that fits, `cp` has left the space (10_state R15; log 5). -/
theorem retire_top (s : State) (h : 2 ^ 32 ≤ s.cp.toNat + 16) : s.retire.cpPastTop = true := by
  unfold State.retire; rw [if_neg (by omega)]

end Sys2Proof.Machine
end

