-- ==== Sys2Proof/Laws/Memory.lean ====
section
/-! SUPPORT. The laws of memory: a read after a write, the bytes a write leaves alone, the canonical form, and the byte
order (20_memory R42). -/

namespace Sys2Proof.Machine

/-! ## One byte -/

/-- The keys of a memory. -/
def memKeys (m : List Host.Cell) : List Nat := m.map Prod.fst

theorem memFind?_insert_same (m : List Host.Cell) (a : Nat) (b : Byte) : memFind? (memInsert m a b) a = some b := by
  induction m with
  | nil => simp [memInsert, memFind?]
  | cons c rest ih =>
    obtain ⟨k, x⟩ := c
    unfold memInsert
    split
    · simp [memFind?]
    · split
      · simp [memFind?]
      · next h1 h2 => simp [memFind?, ih, Ne.symm h2]

theorem memFind?_insert_other (m : List Host.Cell) (a c : Nat) (b : Byte) (h : c ≠ a) :
    memFind? (memInsert m a b) c = memFind? m c := by
  induction m with
  | nil => simp [memInsert, memFind?, Ne.symm h]
  | cons d rest ih =>
    obtain ⟨k, x⟩ := d
    unfold memInsert
    split
    · simp [memFind?, Ne.symm h]
    · split
      · next h1 h2 => subst h2; simp [memFind?, Ne.symm h]
      · simp [memFind?, ih]

/-- A read after a write to the same address gives the byte written (20_memory R42). -/
theorem memRead_write_same (m : List Host.Cell) (a : Nat) (b : Byte) (h : a < 2 ^ 32) :
    memRead (memWrite m a b) a = b := by
  rw [memRead, memWrite, if_pos h, memFind?_insert_same, Option.getD_some]

/-- A write leaves every other byte alone (20_memory R42). -/
theorem memRead_write_other (m : List Host.Cell) (a c : Nat) (b : Byte) (h : c ≠ a) :
    memRead (memWrite m a b) c = memRead m c := by
  unfold memRead memWrite
  split
  · rw [memFind?_insert_other m a c b h]
  · rfl

/-! ## Many bytes -/

/-- Writing bytes at rising addresses leaves every byte outside them alone. -/
theorem memRead_writeBytes_outside (bs : List Byte) (m : List Host.Cell) (a c : Nat) (h : ¬ InRange a bs.length c) :
    memRead (memWriteBytes m a bs) c = memRead m c := by
  induction bs generalizing m a with
  | nil => rfl
  | cons b bs ih =>
    simp only [InRange, List.length_cons] at h
    rw [memWriteBytes, ih (memWrite m a b) (a + 1) (by simp only [InRange]; omega),
      memRead_write_other m a c b (by omega)]

/-- Byte `k` of the bytes written stands at address `a + k`. -/
theorem memRead_writeBytes_inside (bs : List Byte) (m : List Host.Cell) (a k : Nat) (h : k < bs.length)
    (fits : a + bs.length ≤ 2 ^ 32) : memRead (memWriteBytes m a bs) (a + k) = bs[k] := by
  induction bs generalizing m a k with
  | nil => simp at h
  | cons b bs ih =>
    simp only [List.length_cons] at h fits
    cases k with
    | zero =>
      rw [memWriteBytes, memRead_writeBytes_outside bs _ _ _ (by simp only [InRange]; omega)]
      exact memRead_write_same m a b (by omega)
    | succ k =>
      rw [memWriteBytes, show a + (k + 1) = a + 1 + k by omega, ih (memWrite m a b) (a + 1) k (by omega) (by omega)]
      rfl

@[simp] theorem memReadBytes_length (m : List Host.Cell) (a n : Nat) : (memReadBytes m a n).length = n := by
  induction n generalizing a with
  | zero => rfl
  | succ n ih => simp [memReadBytes, ih]

/-- Byte `k` of the bytes at `a` is the byte at `a + k`. -/
theorem memReadBytes_getElem (m : List Host.Cell) (a n k : Nat) (h : k < n) :
    (memReadBytes m a n)[k]'(by simpa using h) = memRead m (a + k) := by
  induction n generalizing a k with
  | zero => omega
  | succ n ih =>
    cases k with
    | zero => rfl
    | succ k => simpa [memReadBytes, Nat.add_assoc, Nat.add_comm 1 k] using ih (a + 1) k (by omega)

/-! ## The canonical form -/

theorem memInsert_keys (m : List Host.Cell) (a k : Nat) (b : Byte) (h : k ∈ memKeys (memInsert m a b)) :
    k = a ∨ k ∈ memKeys m := by
  induction m with
  | nil => simpa [memInsert, memKeys] using h
  | cons c rest ih =>
    obtain ⟨j, x⟩ := c
    unfold memInsert at h
    split at h
    · simpa [memKeys] using h
    · split at h
      · simp only [memKeys, List.map_cons, List.mem_cons] at h ⊢
        tauto
      · simp only [memKeys, List.map_cons, List.mem_cons] at h ⊢ ih
        rcases h with h | h
        · exact .inr (.inl h)
        · rcases ih h with h | h
          · exact .inl h
          · exact .inr (.inr h)

theorem memInsert_rising (m : List Host.Cell) (a : Nat) (b : Byte) (h : (memKeys m).Pairwise (· < ·)) :
    (memKeys (memInsert m a b)).Pairwise (· < ·) := by
  induction m with
  | nil => simp [memInsert, memKeys]
  | cons c rest ih =>
    obtain ⟨k, x⟩ := c
    have hk : (∀ j ∈ memKeys rest, k < j) ∧ (memKeys rest).Pairwise (· < ·) := by
      simpa [memKeys] using h
    unfold memInsert
    split
    · next hlt =>
      change (a :: k :: memKeys rest).Pairwise (· < ·)
      refine List.pairwise_cons.2 ⟨?_, List.pairwise_cons.2 hk⟩
      intro j hj
      rcases List.mem_cons.1 hj with rfl | hj
      · exact hlt
      · exact Nat.lt_trans hlt (hk.1 j hj)
    · split
      · next h1 h2 => subst h2; exact List.pairwise_cons.2 hk
      · next h1 h2 =>
        refine List.pairwise_cons.2 ⟨?_, ih hk.2⟩
        intro j hj
        rcases memInsert_keys rest a j b hj with rfl | hj
        · omega
        · exact hk.1 j hj

/-- What the canonical form says. -/
theorem memory_wf_iff (m : List Host.Cell) :
    Memory.wf m = true ↔ (memKeys m).Pairwise (· < ·) ∧ ∀ k ∈ memKeys m, k < 2 ^ 32 := by
  simp [Memory.wf, memKeys]

/-- A write keeps the canonical form. -/
theorem memWrite_wf (m : List Host.Cell) (a : Nat) (b : Byte) (h : Memory.wf m = true) :
    Memory.wf (memWrite m a b) = true := by
  unfold memWrite
  split
  · next ha =>
    rw [memory_wf_iff] at h ⊢
    refine ⟨memInsert_rising m a b h.1, fun k hk => ?_⟩
    rcases memInsert_keys m a k b hk with rfl | hk
    · exact ha
    · exact h.2 k hk
  · exact h

/-- Writing any bytes anywhere keeps the canonical form. -/
theorem memWriteBytes_wf (bs : List Byte) (m : List Host.Cell) (a : Nat) (h : Memory.wf m = true) :
    Memory.wf (memWriteBytes m a bs) = true := by
  induction bs generalizing m a with
  | nil => exact h
  | cons b bs ih => exact ih (memWrite m a b) (a + 1) (memWrite_wf m a b h)

/-- New values at the listed addresses keep the canonical form. -/
theorem memMap_wf (m : List Host.Cell) (f : Host.Cell → Byte) (h : Memory.wf m = true) :
    Memory.wf (m.map fun c => (c.1, f c)) = true := by
  have hk : memKeys (m.map fun c => (c.1, f c)) = memKeys m := by simp [memKeys, Function.comp_def]
  rw [memory_wf_iff] at h ⊢
  rwa [hk]

/-- A listed byte after new values at the listed addresses; the addresses that are not listed stay so. -/
theorem memFind?_map (m : List Host.Cell) (f : Host.Cell → Byte) (a : Nat) :
    memFind? (m.map fun c => (c.1, f c)) a = (memFind? m a).map fun b => f (a, b) := by
  induction m with
  | nil => rfl
  | cons c rest ih =>
    obtain ⟨k, b⟩ := c
    simp only [List.map_cons, memFind?]
    split
    · next h => subst h; rfl
    · exact ih

/-- The memory an abandoned command leaves has the canonical form of the command's own (70_reset R290). -/
theorem mixedMemory_wf (s : State) (m : List Host.Cell) (h : Memory.wf m = true) :
    Memory.wf (mixedMemory s m) = true := memMap_wf m _ h

/-- A byte of the memory an abandoned command leaves: the one before it or the one it gives (70_reset R290). -/
theorem memRead_mixedMemory (s t : State) (a : Nat) :
    memRead (mixedMemory s t.mem) a = s.readByte a ∨ memRead (mixedMemory s t.mem) a = t.readByte a := by
  unfold mixedMemory State.readByte memRead
  rw [memFind?_map]
  cases memFind? t.mem a with
  | none => exact .inr rfl
  | some b =>
    by_cases h : Config.abandonedByteIsNew s.draws a = true
    · exact .inr (by simp [h])
    · exact .inl (by simp [h])

/-! ## Byte order (20_memory R42) -/

@[simp] theorem leBytes_length (n v : Nat) : (leBytes n v).length = n := by
  induction n generalizing v with
  | zero => rfl
  | succ n ih => simp [leBytes, ih]

/-- Byte `k` of the little-endian bytes of `v` is bits `8k+7:8k`. -/
theorem leBytes_getElem (n v k : Nat) (h : k < n) :
    (leBytes n v)[k]'(by simpa using h) = BitVec.ofNat 8 (v / 2 ^ (8 * k)) := by
  induction n generalizing v k with
  | zero => omega
  | succ n ih =>
    cases k with
    | zero => simp [leBytes]
    | succ k =>
      simp only [leBytes, List.getElem_cons_succ]
      rw [ih (v / 256) k (by omega), Nat.div_div_eq_div_mul, show 256 * 2 ^ (8 * k) = 2 ^ (8 * (k + 1)) by
        rw [show 8 * (k + 1) = 8 + 8 * k by omega, Nat.pow_add]]

/-- The little-endian value of `n` bytes is below `2 ^ (8n)`. -/
theorem leValue_lt (bs : List Byte) : leValue bs < 2 ^ (8 * bs.length) := by
  induction bs with
  | nil => simp [leValue]
  | cons b bs ih =>
    have hb := b.isLt
    simp only [leValue, List.length_cons]
    rw [show 8 * (bs.length + 1) = 8 + 8 * bs.length by omega, Nat.pow_add]
    omega

/-- Reading back the little-endian bytes of `v` gives `v` modulo `2 ^ (8n)`. -/
theorem leValue_leBytes (n v : Nat) : leValue (leBytes n v) = v % 2 ^ (8 * n) := by
  induction n generalizing v with
  | zero => simp [leBytes, leValue, Nat.mod_one]
  | succ n ih =>
    simp only [leBytes, leValue, ih, BitVec.toNat_ofNat]
    rw [show 8 * (n + 1) = 8 + 8 * n by omega, Nat.pow_add, Nat.mod_mul]

/-- Byte `k` of a little-endian value is byte `k` of the bytes. -/
theorem leValue_byte (bs : List Byte) (k : Nat) (h : k < bs.length) :
    BitVec.ofNat 8 (leValue bs / 2 ^ (8 * k)) = bs[k] := by
  induction bs generalizing k with
  | nil => simp at h
  | cons b bs ih =>
    have hb := b.isLt
    cases k with
    | zero =>
      apply BitVec.eq_of_toNat_eq
      simp [leValue]
      omega
    | succ k =>
      simp only [List.length_cons, List.getElem_cons_succ] at h ⊢
      rw [← ih k (by omega), show 8 * (k + 1) = 8 + 8 * k by omega, Nat.pow_add, ← Nat.div_div_eq_div_mul,
        show leValue (b :: bs) / 2 ^ 8 = leValue bs by simp only [leValue]; omega]

end Sys2Proof.Machine
end

