-- ==== Sys2Proof/Laws/PerInstr.lean ====
section
/-! SUPPORT. Laws stated once for every command: the row of the opcode map that a command's opcode selects admits its
fields and builds the command back from them (30_encoding R67, R68). -/

namespace Sys2Proof.Laws.RowBuildsBack

/-- The opcode of the command selects a row, the row admits the command's fields, and builds the command from them
(30_encoding R67, R68). -/
def Statement (i : Instr) : Prop :=
  ∃ r, opcodeRows.find? (fun r => r.opcode == (Instr.fields i).opcode) = some r ∧
    r.uses.admits (Instr.fields i) = true ∧ r.build (Instr.fields i) = i

theorem endList : Statement .endList := ⟨_, rfl, rfl, rfl⟩

theorem span (sd : RegIdx) (base len : Word) :
    Statement (.span sd base len) := ⟨_, rfl, rfl, rfl⟩

theorem ldp (pd : RegIdx) (f : BitVec 8) (addr : Word) :
    Statement (.ldp pd f addr) := ⟨_, rfl, rfl, rfl⟩

theorem stp (ps : RegIdx) (f : BitVec 8) (addr : Word) :
    Statement (.stp ps f addr) := ⟨_, rfl, rfl, rfl⟩

theorem ldv (vd : RegIdx) (addr : Word) :
    Statement (.ldv vd addr) := ⟨_, rfl, rfl, rfl⟩

theorem stv (vs : RegIdx) (addr : Word) :
    Statement (.stv vs addr) := ⟨_, rfl, rfl, rfl⟩

theorem unpack (vd ps : RegIdx) (f : BitVec 8) :
    Statement (.unpack vd ps f) := ⟨_, rfl, rfl, rfl⟩

theorem unpacks (vd ps : RegIdx) (f : BitVec 8) :
    Statement (.unpacks vd ps f) := ⟨_, rfl, rfl, rfl⟩

theorem pack (pd vs : RegIdx) (f : BitVec 8) :
    Statement (.pack pd vs f) := ⟨_, rfl, rfl, rfl⟩

theorem packs (pd vs : RegIdx) (f : BitVec 8) :
    Statement (.packs pd vs f) := ⟨_, rfl, rfl, rfl⟩

theorem cvtpx (pd ps : RegIdx) (fdst fsrc : BitVec 8) :
    Statement (.cvtpx pd ps fdst fsrc) := ⟨_, rfl, rfl, rfl⟩

theorem mkpx (pd : RegIdx) (f : BitVec 8) (rgba : Word) :
    Statement (.mkpx pd f rgba) := ⟨_, rfl, rfl, rfl⟩

theorem parsehex (pd stext : RegIdx) :
    Statement (.parsehex pd stext) := ⟨_, rfl, rfl, rfl⟩

theorem tovec4 (sdst ssrc : RegIdx) (f : BitVec 8) (m : BitVec 3) :
    Statement (.tovec4 sdst ssrc f m) := ⟨_, rfl, rfl, rfl⟩

theorem fromvec4 (sdst ssrc : RegIdx) (f : BitVec 8) (m : BitVec 3) :
    Statement (.fromvec4 sdst ssrc f m) := ⟨_, rfl, rfl, rfl⟩

theorem convert (sdst ssrc : RegIdx) (fdst fsrc : BitVec 8) :
    Statement (.convert sdst ssrc fdst fsrc) := ⟨_, rfl, rfl, rfl⟩

theorem packplanes (sdst sr sg sb : RegIdx) (f : BitVec 8) :
    Statement (.packplanes sdst sr sg sb f) := ⟨_, rfl, rfl, rfl⟩

theorem unpackplanes (ssrc sr sg sb : RegIdx) (f : BitVec 8) :
    Statement (.unpackplanes ssrc sr sg sb f) := ⟨_, rfl, rfl, rfl⟩

theorem setbl (mode op : BitVec 4) :
    Statement (.setbl mode op) := ⟨_, rfl, rfl, rfl⟩

theorem blendpx (vd vb vs : RegIdx) (amount : F32) :
    Statement (.blendpx vd vb vs amount) := ⟨_, rfl, rfl, rfl⟩

theorem blend (sdst sbg ssrc : RegIdx) (fdst fsrc : BitVec 8) (amount : F32) :
    Statement (.blend sdst sbg ssrc fdst fsrc amount) := ⟨_, rfl, rfl, rfl⟩

theorem blenda (sdst sbg ssrc samt : RegIdx) (fdst fsrc : BitVec 8) :
    Statement (.blenda sdst sbg ssrc samt fdst fsrc) := ⟨_, rfl, rfl, rfl⟩

theorem fmtinfo (f : BitVec 8) :
    Statement (.fmtinfo f) := ⟨_, rfl, rfl, rfl⟩

theorem mkinfo (sprec : RegIdx) (bpp : Word) :
    Statement (.mkinfo sprec bpp) := ⟨_, rfl, rfl, rfl⟩

theorem pxinfo (pd : RegIdx) (idx : Word) :
    Statement (.pxinfo pd idx) := ⟨_, rfl, rfl, rfl⟩

theorem rdci (pd : RegIdx) :
    Statement (.rdci pd) := ⟨_, rfl, rfl, rfl⟩

end Sys2Proof.Laws.RowBuildsBack
end

