-- ==== Sys2Proof/Laws/Decoding.lean ====
section
/-! SUPPORT. The fields of a command and its word: no field loses a bit (30_encoding R61). -/

namespace Sys2Proof

/-- The fields read from the word of some fields are those fields (30_encoding R61). -/
theorem ofCommand_toCommand (f : Fields) : Fields.ofCommand f.toCommand = f := by
  obtain ⟨a, b, c, d, e, g, h, i, j, k, l, m, n, o⟩ := f
  simp only [Fields.ofCommand, Fields.toCommand, Fields.mk.injEq]
  refine ⟨?_, ?_, ?_, ?_, ?_, ?_, ?_, ?_, ?_, ?_, ?_, ?_, ?_, ?_⟩ <;>
  · ext i hi
    rw [BitVec.getElem_extractLsb']
    repeat rw [BitVec.getLsbD_append]
    repeat (first | rw [if_pos (by omega)] | rw [if_neg (by omega)])
    rw [← BitVec.getLsbD_eq_getElem]
    congr 1
    try omega

/-- The opcode of a command stands in the low byte of its word (30_encoding R60, R61). -/
theorem encode_opcode (i : Instr) : (encode i).extractLsb' 0 8 = (Instr.fields i).opcode :=
  congrArg Fields.opcode (ofCommand_toCommand (Instr.fields i))

end Sys2Proof
end

