-- ==== Sys2Proof/Laws/Formats.lean ====
section
/-! SUPPORT. What the modifiers do to one component: with no NaN among its operands, with a NaN, with an invalid
operation (40_canonical_model R81, R87, R100, R101). -/

namespace Sys2Proof.Machine

@[simp] theorem signedZero_isZero (neg : Bool) : F32.isZero (F32.signedZero neg) = true := by revert neg; decide

/-- A free NaN is a NaN (40_canonical_model R96). -/
@[simp] theorem drawNaN_isNaN (u : BitVec 32) : F32.isNaN (drawNaN u) = true := by
  have : F32.fraction u < 2 ^ 23 := Nat.mod_lt _ (by decide)
  simp only [F32.isNaN, drawNaN, F32.ofMagnitude, F32.magnitude, decide_eq_true_eq, BitVec.toNat_ofNat]
  split <;> split <;> omega

/-- Companding of a component that is no NaN is the function's result, whatever that is (R100 P1). -/
theorem compandComponent_of_not_nan (g : F32 → F32) (u : BitVec 32) {c : F32} (h : F32.isNaN c = false) :
    compandComponent g u c = g c := by simp [compandComponent, h]

/-- A product or quotient that is no NaN stands (R101). -/
theorem alphaComponent_of_not_nan (op : F32 → F32 → F32) (u : BitVec 32) {alpha c : F32} (hc : F32.isNaN c = false)
    (ha : F32.isNaN alpha = false) (hr : F32.isNaN (op c alpha) = false) :
    alphaComponent op alpha u c = op c alpha := by simp [alphaComponent, hc, ha, hr]

/-- An invalid operation on operands that are no NaN gives a NaN (R81). -/
theorem alphaComponent_invalid (op : F32 → F32 → F32) (u : BitVec 32) {alpha c : F32} (hc : F32.isNaN c = false)
    (ha : F32.isNaN alpha = false) (hr : F32.isNaN (op c alpha) = true) :
    F32.isNaN (alphaComponent op alpha u c) = true := by simp [alphaComponent, hc, ha, hr]

@[simp] theorem mapColour_w (d : Draws) (slot : Nat) (f : BitVec 32 → F32 → F32) (v : Vec4) :
    (v.mapColour d slot f).w = v.w := rfl

/-- The modifiers never change alpha (R100, R101). -/
@[simp] theorem unpremultiply_w (d : Draws) (v : Vec4) : (unpremultiply d v).w = v.w := by
  unfold unpremultiply; split <;> rfl

end Sys2Proof.Machine
end

