-- ==== Sys2Proof/Laws/Ops.lean ====
section
/-! SUPPORT. What each shared operation does, said once: the validity guard, the register files, the guards of
the bulk commands, the end of a command, fault entry. -/

namespace Sys2Proof.Machine

/-! ## Which addresses exist (20_memory R41, R47) -/

theorem validAddr_iff (rs : List Region) (a : Nat) :
    validAddr rs a = true ↔ ∃ r ∈ rs, r.base ≤ a ∧ a < r.base + r.size := by
  simp [validAddr, Region.covers, List.any_eq_true]

/-- There is an address that does not exist above any address. -/
theorem exists_invalid (rs : List Region) (a : Nat) : ∃ x, a ≤ x ∧ validAddr rs x = false := by
  refine ⟨a + (rs.map fun r => r.base + r.size).sum, by omega, ?_⟩
  rw [Bool.eq_false_iff, ne_eq, validAddr_iff]
  rintro ⟨r, hr, -, hlt⟩
  have := List.le_sum_of_mem (List.mem_map_of_mem (f := fun r : Region => r.base + r.size) hr)
  omega

/-- `firstInvalid` is the lowest address from `a` up that does not exist. -/
theorem firstInvalid_spec (rs : List Region) (a : Nat) :
    a ≤ firstInvalid rs a ∧ validAddr rs (firstInvalid rs a) = false ∧
      ∀ x, a ≤ x → x < firstInvalid rs a → validAddr rs x = true := by
  classical
  let y := Nat.find (exists_invalid rs a)
  obtain ⟨hay, hy⟩ : a ≤ y ∧ validAddr rs y = false := Nat.find_spec (exists_invalid rs a)
  have hmin : ∀ x, x < y → a ≤ x → validAddr rs x = true := fun x hx hax => by
    have := Nat.find_min (exists_invalid rs a) hx
    simpa [hax] using this
  have hcand : y ∈ (a :: rs.map (fun r => r.base + r.size)).filter (fun x => a ≤ x && !validAddr rs x) := by
    refine List.mem_filter.2 ⟨?_, by simp [hay, hy]⟩
    rcases Nat.eq_or_lt_of_le hay with h | h
    · rw [← h]; exact List.mem_cons_self
    · obtain ⟨r, hr, h1, h2⟩ := (validAddr_iff rs (y - 1)).1 (hmin (y - 1) (by omega) (by omega))
      have hnot : ¬ (r.base ≤ y ∧ y < r.base + r.size) := fun hc =>
        absurd ((validAddr_iff rs y).2 ⟨r, hr, hc⟩) (by simp [hy])
      exact List.mem_cons_of_mem _ (List.mem_map.2 ⟨r, hr, by omega⟩)
  obtain ⟨m, hm⟩ : ∃ m, ((a :: rs.map (fun r => r.base + r.size)).filter
      (fun x => a ≤ x && !validAddr rs x)).min? = some m := by
    cases h : ((a :: rs.map (fun r => r.base + r.size)).filter (fun x => a ≤ x && !validAddr rs x)).min? with
    | none => rw [List.min?_eq_none_iff] at h; rw [h] at hcand; simp at hcand
    | some m => exact ⟨m, rfl⟩
  obtain ⟨hmem, hle⟩ := List.min?_eq_some_iff.1 hm
  have hP : a ≤ m ∧ validAddr rs m = false := by simpa using (List.mem_filter.1 hmem).2
  have hmy : m = y := le_antisymm (hle y hcand) (by
    by_contra hlt
    have := hmin m (by omega) hP.1
    simp [hP.2] at this)
  have : firstInvalid rs a = y := by rw [firstInvalid, hm, ← hmy]; rfl
  rw [this]
  exact ⟨hay, hy, fun x hax hx => hmin x hx hax⟩

/-- The range from `a` up holds no invalid address exactly when the first invalid one is past it. -/
theorem firstInvalid_ge_iff (rs : List Region) (a n : Nat) :
    a + n ≤ firstInvalid rs a ↔ ∀ k, k < n → validAddr rs (a + k) = true := by
  obtain ⟨h1, h2, h3⟩ := firstInvalid_spec rs a
  constructor
  · intro h k hk
    exact h3 _ (by omega) (by omega)
  · intro h
    by_contra hlt
    have := h (firstInvalid rs a - a) (by omega)
    rw [show a + (firstInvalid rs a - a) = firstInvalid rs a by omega, h2] at this
    exact absurd this (by simp)

/-- The validity guard passes exactly on the ranges that exist (20_memory R47). -/
theorem checkExtent_ok_iff (s : State) (base : Word) (n : Nat) :
    s.checkExtent base n = .ok () ↔ ValidRange s base.toNat n := by
  unfold State.checkExtent ValidRange raise
  rw [← firstInvalid_ge_iff]
  split
  · simp; omega
  · split
    · simp; omega
    · simp; omega

/-- What the validity guard raises (60_exceptions R265). -/
theorem checkExtent_cases (s : State) (base : Word) (n : Nat) :
    (s.checkExtent base n = .ok () ∧ ValidRange s base.toNat n) ∨
    (2 ^ 32 < base.toNat + n ∧ s.checkExtent base n = raise .accessFault base) ∨
    (base.toNat + n ≤ 2 ^ 32 ∧ firstInvalid s.memValid base.toNat < base.toNat + n ∧
      s.checkExtent base n = raise .accessFault (BitVec.ofNat 32 (firstInvalid s.memValid base.toNat))) := by
  by_cases hok : s.checkExtent base n = .ok ()
  · exact .inl ⟨hok, (checkExtent_ok_iff s base n).1 hok⟩
  · unfold State.checkExtent at hok ⊢
    split at hok
    · next h => exact .inr (.inl ⟨h, by rw [if_pos h]⟩)
    · next h =>
      split at hok
      · next h2 => exact .inr (.inr ⟨by omega, h2, by rw [if_neg h, if_pos h2]⟩)
      · exact absurd rfl hok

/-! ## Register files (10_state R10 to R13) -/

@[simp] theorem preg_setP_same (s : State) (i : RegIdx) (v : Pixel) : (s.setP i v).preg i = .holds v := by
  simp [State.preg]
theorem preg_setP_other (s : State) (i j : RegIdx) (v : Pixel) (h : j ≠ i) : (s.setP i v).preg j = s.preg j := by
  have : i.toNat ≠ j.toNat := fun e => h (BitVec.eq_of_toNat_eq e.symm)
  simp [State.preg, this]
@[simp] theorem vreg_setV_same (s : State) (i : RegIdx) (v : Vec4) : (s.setV i v).vreg i = .holds v := by
  simp [State.vreg]
theorem vreg_setV_other (s : State) (i j : RegIdx) (v : Vec4) (h : j ≠ i) : (s.setV i v).vreg j = s.vreg j := by
  have : i.toNat ≠ j.toNat := fun e => h (BitVec.eq_of_toNat_eq e.symm)
  simp [State.vreg, this]
@[simp] theorem sreg_setS_same (s : State) (i : RegIdx) (v : Span) : (s.setS i v).sreg i = .holds v := by
  simp [State.sreg]
theorem sreg_setS_other (s : State) (i j : RegIdx) (v : Span) (h : j ≠ i) : (s.setS i v).sreg j = s.sreg j := by
  have : i.toNat ≠ j.toNat := fun e => h (BitVec.eq_of_toNat_eq e.symm)
  simp [State.sreg, this]

/-- Two states with the same P file have the same P registers. -/
theorem preg_congr {s t : State} (h : t.pregs = s.pregs) (i : RegIdx) : t.preg i = s.preg i := by
  simp [State.preg, h]
/-- Two states with the same V file have the same V registers. -/
theorem vreg_congr {s t : State} (h : t.vregs = s.vregs) (i : RegIdx) : t.vreg i = s.vreg i := by
  simp [State.vreg, h]
/-- Two states with the same S file have the same S registers. -/
theorem sreg_congr {s t : State} (h : t.sregs = s.sregs) (i : RegIdx) : t.sreg i = s.sreg i := by
  simp [State.sreg, h]
/-- Two states with the same memory read the same bytes. -/
theorem readByte_congr {s t : State} (h : t.mem = s.mem) (a : Nat) : t.readByte a = s.readByte a := by
  simp [State.readByte, h]

/-- A written register reads as its value (10_state R13). -/
theorem readP_holds {s : State} {i : RegIdx} {v : Pixel} (h : s.preg i = .holds v) : s.readP i = .ok v := by
  simp [State.readP, h]
/-- A written register reads as its value (10_state R13). -/
theorem readV_holds {s : State} {i : RegIdx} {v : Vec4} (h : s.vreg i = .holds v) : s.readV i = .ok v := by
  simp [State.readV, h]
/-- A written register reads as its value (10_state R13). -/
theorem readS_holds {s : State} {i : RegIdx} {v : Span} (h : s.sreg i = .holds v) : s.readS i = .ok v := by
  simp [State.readS, h]

/-! ## Formats -/

/-- A format id that names a format passes its check (41_codec_formats R120). -/
theorem format0_ok {f : BitVec 8} {fmt : Fmt} (h : Fmt.ofId? f = some fmt) : format0 f = .ok fmt := by
  simp [format0, h]
/-- As `format0_ok`, for `fmt1`. -/
theorem format1_ok {f : BitVec 8} {fmt : Fmt} (h : Fmt.ofId? f = some fmt) : format1 f = .ok fmt := by
  simp [format1, h]

/-- The ids that name a format are those below 26 (41_codec_formats R150). -/
theorem ofId?_none_iff (f : BitVec 8) : Fmt.ofId? f = none ↔ legalFormat f = false := by
  simp [Fmt.ofId?, legalFormat, allFormats, BitVec.lt_def]

/-! ## The guards of the bulk commands (43_bulk R180) -/

@[simp] theorem sameLength_ok {sp ref : Span} (h : sp.len = ref.len) : sameLength sp ref = .ok () := by
  simp [sameLength, h]

/-- The spans are checked one after another in field order. -/
theorem checkSpans_ok_iff (s : State) (us : List SpanUse) :
    s.checkSpans us = .ok () ↔ ∀ u ∈ us, ValidRange s u.span.base.toNat u.bytes := by
  induction us with
  | nil => simp [State.checkSpans]
  | cons u us ih =>
    simp only [State.checkSpans, List.forall_mem_cons, ← checkExtent_ok_iff s u.span.base u.bytes, ← ih]
    cases h : s.checkExtent u.span.base u.bytes with
    | error e => simp [bind, Except.bind]
    | ok x => simp [bind, Except.bind]

/-- Two uses overlap exactly when their ranges share a byte (60_exceptions R272). -/
theorem overlaps_eq_false_iff (u v : SpanUse) :
    u.overlaps v = false ↔ RangesDisjoint u.span.base.toNat u.bytes v.span.base.toNat v.bytes := by
  simp only [SpanUse.overlaps, RangesDisjoint, Bool.and_eq_false_iff, decide_eq_false_iff_not]
  omega

/-- The pairs the aliasing rule compares (60_exceptions R272). -/
def Compared (inPlace : Bool) (us : List SpanUse) (i j : Nat) (u v : SpanUse) : Prop :=
  us[i]? = some u ∧ us[j]? = some v ∧ u.written = true ∧ i ≠ j ∧
    ¬ (inPlace = true ∧ i = 0 ∧ j = 1 ∧ u.span.base = v.span.base)

/-- The aliasing rule passes exactly when every written span is disjoint from every other one, the exempt pair apart
(20_memory R57). -/
theorem checkDisjoint_ok_iff (inPlace : Bool) (us : List SpanUse) :
    checkDisjoint inPlace us = .ok () ↔
      ∀ i j u v, Compared inPlace us i j u v →
        RangesDisjoint u.span.base.toNat u.bytes v.span.base.toNat v.bytes := by
  have key : checkDisjoint inPlace us = .ok () ↔ firstOverlap inPlace us = none := by
    unfold checkDisjoint raise
    split <;> simp_all
  rw [key]
  simp only [firstOverlap, List.head?_eq_none_iff, List.flatMap_eq_nil_iff, Prod.forall, List.mem_zipIdx_iff_getElem?]
  constructor
  · rintro h i j u v ⟨hu, hv, hw, hij, hex⟩
    rw [← overlaps_eq_false_iff]
    have h1 := h u i hu
    rw [if_pos hw, List.map_eq_nil_iff, List.filter_eq_nil_iff] at h1
    have h2 := h1 (v, j) (List.mem_zipIdx_iff_getElem?.2 hv)
    by_contra hov
    apply h2
    have hov' : u.overlaps v = true := by simpa using hov
    simp only [hov', Bool.and_true, Bool.and_eq_true, bne_iff_ne, ne_eq, Bool.not_eq_true']
    refine ⟨Ne.symm hij, ?_⟩
    rw [Bool.eq_false_iff]
    intro hc
    simp only [Bool.and_eq_true, beq_iff_eq] at hc
    exact hex ⟨hc.1.1.1, hc.1.1.2, hc.1.2, hc.2⟩
  · intro h u i hu
    split
    · next hw =>
      rw [List.map_eq_nil_iff, List.filter_eq_nil_iff]
      rintro ⟨v, j⟩ hv hc
      have hv' := List.mem_zipIdx_iff_getElem?.1 hv
      simp only [Bool.and_eq_true, bne_iff_ne, ne_eq, Bool.not_eq_true'] at hc
      have hd := h i j u v ⟨hu, hv', hw, fun e => hc.1.1 e.symm, fun hx => by
        obtain ⟨h1, h2, h3, h4⟩ := hx
        have := hc.2
        simp [h1, h2, h3, h4] at this⟩
      rw [← overlaps_eq_false_iff] at hd
      rw [hd] at hc
      exact absurd hc.1.2 (by simp)
    · rfl

/-- Positions of the aliasing rule in the order they are examined: the first component, then the second. -/
def PairBefore (p q : Nat × Nat) : Prop := p.1 < q.1 ∨ (p.1 = q.1 ∧ p.2 < q.2)

theorem zipIdx_rising {α : Type} (l : List α) : (l.zipIdx).Pairwise (fun x y => x.2 < y.2) := by
  have h : ((l.zipIdx).map Prod.snd).Pairwise (· < ·) := by
    rw [List.zipIdx_map_snd]
    exact List.pairwise_lt_range'
  exact List.pairwise_map.1 h

/-- Among the overlapping pairs the aliasing rule reports the first (60_exceptions R272). -/
theorem checkDisjoint_first (inPlace : Bool) (us : List SpanUse) (a b : Nat) (u v : SpanUse)
    (h : Compared inPlace us a b u v)
    (hov : ¬ RangesDisjoint u.span.base.toNat u.bytes v.span.base.toNat v.bytes)
    (hmin : ∀ c d x y, Compared inPlace us c d x y →
      ¬ RangesDisjoint x.span.base.toNat x.bytes y.span.base.toNat y.bytes → a < c ∨ (a = c ∧ b ≤ d)) :
    checkDisjoint inPlace us = raise .spanOverlap (BitVec.ofNat 32 (a + 16 * b)) := by
  have hcmp : ∀ c d x y, (x, c) ∈ us.zipIdx → (y, d) ∈ us.zipIdx → x.written = true →
      (d != c && x.overlaps y && !(inPlace && c == 0 && d == 1 && x.span.base == y.span.base)) = true →
      Compared inPlace us c d x y ∧ ¬ RangesDisjoint x.span.base.toNat x.bytes y.span.base.toNat y.bytes := by
    intro c d x y hx hy hw hc
    simp only [Bool.and_eq_true, bne_iff_ne, ne_eq, Bool.not_eq_true'] at hc
    refine ⟨⟨List.mem_zipIdx_iff_getElem?.1 hx, List.mem_zipIdx_iff_getElem?.1 hy, hw, fun e => hc.1.1 e.symm,
      fun hex => ?_⟩, ?_⟩
    · obtain ⟨h1, h2, h3, h4⟩ := hex
      have := hc.2
      simp [h1, h2, h3, h4] at this
    · rw [← overlaps_eq_false_iff, hc.1.2]
      simp
  have hmem : firstOverlap inPlace us = some (a, b) := by
    obtain ⟨hu, hv, hw, hab, hex⟩ := h
    unfold firstOverlap
    dsimp only
    generalize hL : List.flatMap _ us.zipIdx = L
    have hin : (a, b) ∈ L := by
      rw [← hL, List.mem_flatMap]
      refine ⟨(u, a), List.mem_zipIdx_iff_getElem?.2 hu, ?_⟩
      simp only [hw, if_true, List.mem_map, List.mem_filter, Prod.mk.injEq, true_and]
      refine ⟨(v, b), ⟨List.mem_zipIdx_iff_getElem?.2 hv, ?_⟩, rfl⟩
      have hov' : u.overlaps v = true := by
        rw [← Bool.not_eq_false, overlaps_eq_false_iff]
        exact hov
      simp only [hov', Bool.and_true, Bool.and_eq_true, bne_iff_ne, ne_eq, Bool.not_eq_true', Bool.eq_false_iff]
      exact ⟨Ne.symm hab, fun hc => hex (by simpa [and_assoc] using hc)⟩
    have hall : ∀ p ∈ L, a < p.1 ∨ (a = p.1 ∧ b ≤ p.2) := by
      rintro ⟨c, d⟩ hp
      rw [← hL, List.mem_flatMap] at hp
      obtain ⟨⟨x, c'⟩, hx, hp⟩ := hp
      split at hp
      · next hxw =>
        simp only [List.mem_map, List.mem_filter, Prod.mk.injEq] at hp
        obtain ⟨⟨y, d'⟩, ⟨hy, hc⟩, rfl, rfl⟩ := hp
        obtain ⟨h1, h2⟩ := hcmp c' d' x y hx hy hxw hc
        exact hmin _ _ _ _ h1 h2
      · simp at hp
    have hsort : L.Pairwise PairBefore := by
      rw [← hL, List.pairwise_flatMap]
      constructor
      · rintro ⟨x, c⟩ -
        split
        · rw [List.pairwise_map]
          exact ((zipIdx_rising us).filter _).imp fun h => .inr ⟨rfl, h⟩
        · exact List.Pairwise.nil
      · refine (zipIdx_rising us).imp ?_
        rintro ⟨x, c⟩ ⟨y, d⟩ hcd p hp q hq
        have h1 : p.1 = c := by
          split at hp
          · obtain ⟨_, _, rfl⟩ := List.mem_map.1 hp; rfl
          · simp at hp
        have h2 : q.1 = d := by
          split at hq
          · obtain ⟨_, _, rfl⟩ := List.mem_map.1 hq; rfl
          · simp at hq
        exact .inl (by rw [h1, h2]; exact hcd)
    cases L with
    | nil => simp at hin
    | cons p rest =>
      rw [List.head?_cons]
      rcases List.mem_cons.1 hin with rfl | hr
      · rfl
      · have h1 := (List.pairwise_cons.1 hsort).1 _ hr
        have h2 := hall p List.mem_cons_self
        unfold PairBefore at h1
        exfalso
        omega
  unfold checkDisjoint
  rw [hmem]

/-- What the validity guard raises on a range with a missing byte or an extent past the top (60_exceptions R265). -/
theorem checkExtent_bad {s : State} {base info : Word} {n : Nat} (h : BadAccess s (base, n) info) :
    s.checkExtent base n = raise .accessFault info := by
  unfold State.checkExtent
  rcases h with ⟨h1, rfl⟩ | ⟨h1, h2, h3, h4, h5⟩
  · rw [if_pos h1]
  · have hf : firstInvalid s.memValid base.toNat = info.toNat := by
      obtain ⟨f1, f2, f3⟩ := firstInvalid_spec s.memValid base.toNat
      rcases Nat.lt_trichotomy (firstInvalid s.memValid base.toNat) info.toNat with hlt | heq | hgt
      · rw [h5 _ f1 hlt] at f2; simp at f2
      · exact heq
      · rw [f3 _ h2 hgt] at h4; simp at h4
    rw [if_neg (by simp only at h1; omega), hf, if_pos h3]
    simp

/-- The first span that fails the validity guard is the one reported (60_exceptions R265). -/
theorem checkSpans_first (s : State) (us : List SpanUse) (k : Nat) (u : SpanUse) (info : Word) (hk : us[k]? = some u)
    (hbad : BadAccess s (u.span.base, u.bytes) info)
    (hearlier : ∀ j v, j < k → us[j]? = some v → ValidRange s v.span.base.toNat v.bytes) :
    s.checkSpans us = raise .accessFault info := by
  induction us generalizing k with
  | nil => simp at hk
  | cons v us ih =>
    cases k with
    | zero =>
      simp only [List.getElem?_cons_zero, Option.some.injEq] at hk
      subst hk
      simp only [State.checkSpans, checkExtent_bad hbad]
      rfl
    | succ k =>
      have hv := hearlier 0 v (by omega) (by simp)
      simp only [State.checkSpans, (checkExtent_ok_iff s _ _).2 hv]
      exact ih k (by simpa using hk) fun j w hj hw => hearlier (j + 1) w (by omega) (by simpa using hw)

/-- The two guards pass exactly when the aliasing rule and the validity guard do (43_bulk R180). -/
theorem guardSpans_ok_iff (s : State) (inPlace : Bool) (us : List SpanUse) :
    s.guardSpans inPlace us = .ok () ↔ checkDisjoint inPlace us = .ok () ∧ s.checkSpans us = .ok () := by
  unfold State.guardSpans
  cases h : checkDisjoint inPlace us with
  | error e => simp [bind, Except.bind]
  | ok x => simp [bind, Except.bind]

/-! ## Element bytes -/

/-- Elements of `z` bytes each, laid end to end, are `n * z` bytes. -/
theorem elementBytes_length (n z : Nat) (f : Nat → List Byte) (h : ∀ i, (f i).length = z) :
    (elementBytes n f).length = n * z := by
  simp [elementBytes, List.length_flatMap, h]

/-- Byte `k` of element `i` stands at `i * z + k`. -/
theorem elementBytes_getElem? (n z : Nat) (f : Nat → List Byte) (h : ∀ i, (f i).length = z) (i k : Nat) (hi : i < n)
    (hk : k < z) : (elementBytes n f)[i * z + k]? = (f i)[k]? := by
  induction n with
  | zero => omega
  | succ n ih =>
    have hlen := elementBytes_length n z f h
    have hsplit : elementBytes (n + 1) f = elementBytes n f ++ f n := by
      simp [elementBytes, List.range_succ]
    rw [hsplit]
    rcases Nat.lt_or_ge i n with hlt | hge
    · have : i * z + k < n * z := by
        calc i * z + k < i * z + z := by omega
          _ = (i + 1) * z := by ring
          _ ≤ n * z := Nat.mul_le_mul_right z hlt
      rw [List.getElem?_append_left (by omega), ih hlt]
    · have hin : i = n := by omega
      subst hin
      rw [List.getElem?_append_right (by omega), hlen]
      congr 1
      omega

@[simp] theorem pixelBytes_length (f : Fmt) (p : Pixel) : (pixelBytes f p).length = Fmt.bytes f := by
  simp [pixelBytes]

@[simp] theorem vec4_toBytes_length (v : Vec4) : v.toBytes.length = 16 := by simp [Vec4.toBytes]

/-! ## The end of a command and fault entry -/

/-- `retire` moves the command pointer past the command (10_state R15). -/
theorem retired_retire {s t : State} (cp : t.cp = s.cp) (top : t.cpPastTop = s.cpPastTop) (draws : t.draws = s.draws) :
    Retired s t.retire where
  inside h := by
    obtain ⟨h1, h2⟩ := retire_inside t (by rw [cp]; exact h)
    refine ⟨?_, by rw [h2, top]⟩
    rw [h1, cp, BitVec.toNat_add]
    have : (16 : Word).toNat = 16 := rfl
    omega
  top h := retire_top t (by rw [cp]; exact h)
  counted := by rw [retire_draws, draws]

/-- Fault entry does what the rule says and nothing else (60_exceptions R262). -/
theorem faultTaken_takeFault (s : State) (r : FaultRequest) : FaultTaken r.code r.info s (s.takeFault r) where
  code := rfl
  atCp := rfl
  info := rfl
  stopped := rfl
  cp := ⟨rfl, rfl⟩
  pregs _ := rfl
  vregs _ := rfl
  sregs _ := rfl
  blender := rfl
  opsReady := rfl
  ci := rfl
  memory _ := rfl
  memValid := rfl
  uncounted := rfl

/-- A command ends in a next state: its effect, or the fault it raises (60_exceptions R261). -/
theorem complete_cases (s : State) (r : Except FaultRequest State) :
    (∃ t, r = .ok t ∧ complete s r = .next t) ∨ ∃ e, r = .error e ∧ complete s r = .next (s.takeFault e) := by
  cases r with
  | ok t => exact .inl ⟨t, rfl, rfl⟩
  | error e => exact .inr ⟨e, rfl, rfl⟩

end Sys2Proof.Machine
end

