-- ==== Sys2Proof/Laws/Frames.lean ====
section
/-! SUPPORT. The frame of each way a command writes the state: one register, bytes of memory, a control register, each
followed by the move to the next command. -/

namespace Sys2Proof.Machine

/-- Two frames one after the other: what neither may change stays. -/
theorem frame_trans {c : Changes} {p q : Nat → Prop} {s t u : State} (h : Frame c p s t) (k : Frame c q t u) :
    Frame c (fun a => p a ∨ q a) s u where
  pregs i hi := (k.pregs i hi).trans (h.pregs i hi)
  vregs i hi := (k.vregs i hi).trans (h.vregs i hi)
  sregs i hi := (k.sregs i hi).trans (h.sregs i hi)
  blender hc := (k.blender hc).trans (h.blender hc)
  opsReady hc := (k.opsReady hc).trans (h.opsReady hc)
  ci hc := (k.ci hc).trans (h.ci hc)
  status hc := (k.status hc).trans (h.status hc)
  faultCode := k.faultCode.trans h.faultCode
  faultCp := k.faultCp.trans h.faultCp
  faultInfo := k.faultInfo.trans h.faultInfo
  memValid := k.memValid.trans h.memValid
  memory a ha := (k.memory a fun hq => ha (.inr hq)).trans (h.memory a fun hp => ha (.inl hp))

/-- A frame that allows fewer bytes is a frame that allows more. -/
theorem frame_mono {c : Changes} {p q : Nat → Prop} {s t : State} (h : Frame c p s t) (hpq : ∀ a, p a → q a) :
    Frame c q s t :=
  { h with memory := fun a ha => h.memory a fun hp => ha (hpq a hp) }

/-- Moving to the next command changes nothing a frame speaks of (10_state R15). -/
theorem frame_retire {c : Changes} {p : Nat → Prop} {s t : State} (h : Frame c p s t) : Frame c p s t.retire where
  pregs i hi := (preg_congr (retire_pregs t) i).trans (h.pregs i hi)
  vregs i hi := (vreg_congr (retire_vregs t) i).trans (h.vregs i hi)
  sregs i hi := (sreg_congr (retire_sregs t) i).trans (h.sregs i hi)
  blender hc := (retire_blender t).trans (h.blender hc)
  opsReady hc := (retire_opsReady t).trans (h.opsReady hc)
  ci hc := (retire_ci t).trans (h.ci hc)
  status hc := (retire_status t).trans (h.status hc)
  faultCode := (retire_faultCode t).trans h.faultCode
  faultCp := (retire_faultCp t).trans h.faultCp
  faultInfo := (retire_faultInfo t).trans h.faultInfo
  memValid := (retire_memValid t).trans h.memValid
  memory a ha := (readByte_congr (retire_mem t) a).trans (h.memory a ha)

/-- Writing a P register changes that register alone. -/
theorem frame_setP (s : State) (i : RegIdx) (v : Pixel) : Frame { p := some i } noBytes s (s.setP i v) where
  pregs j hj := preg_setP_other s i j v fun e => hj (by rw [e])
  vregs _ _ := rfl
  sregs _ _ := rfl
  blender _ := rfl
  opsReady _ := rfl
  ci _ := rfl
  status _ := rfl
  faultCode := rfl
  faultCp := rfl
  faultInfo := rfl
  memValid := rfl
  memory _ _ := rfl

/-- Writing a V register changes that register alone. -/
theorem frame_setV (s : State) (i : RegIdx) (v : Vec4) : Frame { v := some i } noBytes s (s.setV i v) where
  pregs _ _ := rfl
  vregs j hj := vreg_setV_other s i j v fun e => hj (by rw [e])
  sregs _ _ := rfl
  blender _ := rfl
  opsReady _ := rfl
  ci _ := rfl
  status _ := rfl
  faultCode := rfl
  faultCp := rfl
  faultInfo := rfl
  memValid := rfl
  memory _ _ := rfl

/-- Writing an S register changes that register alone. -/
theorem frame_setS (s : State) (i : RegIdx) (v : Span) : Frame { span := some i } noBytes s (s.setS i v) where
  pregs _ _ := rfl
  vregs _ _ := rfl
  sregs j hj := sreg_setS_other s i j v fun e => hj (by rw [e])
  blender _ := rfl
  opsReady _ := rfl
  ci _ := rfl
  status _ := rfl
  faultCode := rfl
  faultCp := rfl
  faultInfo := rfl
  memValid := rfl
  memory _ _ := rfl

/-- Storing bytes changes those bytes alone (20_memory R42). -/
theorem frame_writeBytes (c : Changes) (s : State) (a : Nat) (bs : List Byte) :
    Frame c (InRange a bs.length) s (s.writeBytes a bs) where
  pregs _ _ := rfl
  vregs _ _ := rfl
  sregs _ _ := rfl
  blender _ := rfl
  opsReady _ := rfl
  ci _ := rfl
  status _ := rfl
  faultCode := rfl
  faultCp := rfl
  faultInfo := rfl
  memValid := rfl
  memory x hx := memRead_writeBytes_outside bs s.mem a x hx

/-- Setting a bit of `OPS_READY` changes that register alone (43_bulk R181). -/
theorem frame_touch {c : Changes} (hc : c.opsReady = true) {p : Nat → Prop} {s t : State} (h : Frame c p s t) (f : Fmt) :
    Frame c p s (t.touch f) :=
  { h with
    pregs := fun i hi => h.pregs i hi
    vregs := fun i hi => h.vregs i hi
    sregs := fun i hi => h.sregs i hi
    opsReady := fun h0 => by rw [hc] at h0; exact absurd h0 (by simp)
    memory := fun a ha => h.memory a ha }

/-- A byte inside stored bytes reads as the byte stored there (20_memory R42). -/
theorem readByte_writeBytes_inside (s : State) (a : Nat) (bs : List Byte) (k : Nat) (h : k < bs.length)
    (hi : a + bs.length ≤ 2 ^ 32) : (s.writeBytes a bs).readByte (a + k) = bs[k] :=
  memRead_writeBytes_inside bs s.mem a k h hi

/-- The bits of `OPS_READY` after a touch (43_bulk R181). -/
theorem touch_bit (s : State) (f : Fmt) (k : Nat) :
    (s.touch f).opsReady.getLsbD k = (s.opsReady.getLsbD k || (Fmt.id f == k)) := by
  have hid : Fmt.id f < 32 := by cases f <;> decide
  rw [touch_opsReady, BitVec.getLsbD_or, BitVec.getLsbD_shiftLeft]
  congr 1
  by_cases hk : Fmt.id f = k
  · subst hk; simp [hid]
  · have h1 : (1#32).getLsbD (k - Fmt.id f) = false ∨ k < Fmt.id f := by
      rcases Nat.lt_or_ge k (Fmt.id f) with h | h
      · exact .inr h
      · left
        have : k - Fmt.id f ≠ 0 := by omega
        simp [this]
    rcases h1 with h | h
    · simp [h, hk]
    · simp [h, hk]

end Sys2Proof.Machine
end

