-- ==== Sys2Proof/Laws/Race.lean ====
section
/-! SUPPORT. What a race can do: with no host access it is the step; a read sees one of the racing values; a byte ends
with the host's last value or the command's (20_memory R52, R53; 93 G5). -/

namespace Sys2Proof.Machine

/-- A command whose reads see the state it starts from is the command. -/
@[simp] theorem execSeeing_view (i : Instr) (s : State) : execSeeing s.view i s = exec i s := by cases i <;> rfl

/-! ## Memory under several stores -/

@[simp] theorem memStores_nil (m : List Host.Cell) : memStores m [] = m := rfl
@[simp] theorem memStores_cons (m : List Host.Cell) (w : Host.Cell) (ws : List Host.Cell) :
    memStores m (w :: ws) = memStores (memWrite m w.1 w.2) ws := rfl
@[simp] theorem seen_nil (s : State) (n : Nat → Nat) : s.seen [] n = s := rfl

/-- Stores keep the canonical form. -/
theorem memStores_wf (ws : List Host.Cell) (m : List Host.Cell) (h : Memory.wf m = true) :
    Memory.wf (memStores m ws) = true := by
  induction ws generalizing m with
  | nil => exact h
  | cons w ws ih => exact ih _ (memWrite_wf m w.1 w.2 h)

/-- Stores elsewhere leave a byte alone. -/
theorem memRead_memStores_other (ws : List Host.Cell) (m : List Host.Cell) (a : Nat) (h : ∀ w ∈ ws, w.1 ≠ a) :
    memRead (memStores m ws) a = memRead m a := by
  induction ws generalizing m with
  | nil => rfl
  | cons w ws ih =>
    rw [memStores_cons, ih _ fun v hv => h v (List.mem_cons_of_mem _ hv),
      memRead_write_other m _ _ _ (h w List.mem_cons_self).symm]

/-- What stores of one value to an address, among others, leave there. -/
theorem memRead_memStores_const (ws : List Host.Cell) (m : List Host.Cell) (a : Nat) (b : Byte) (ha : a < 2 ^ 32)
    (hv : ∀ w ∈ ws, w.1 = a → w.2 = b) (h : (∃ w ∈ ws, w.1 = a) ∨ memRead m a = b) :
    memRead (memStores m ws) a = b := by
  induction ws generalizing m with
  | nil =>
    rcases h with ⟨w, hw, -⟩ | h
    · simp at hw
    · exact h
  | cons w ws ih =>
    refine ih _ (fun v hm => hv v (List.mem_cons_of_mem _ hm)) ?_
    by_cases hw : w.1 = a
    · refine .inr ?_
      rw [← hv w List.mem_cons_self hw, ← hw]
      exact memRead_write_same m _ _ (hw ▸ ha)
    · rcases h with ⟨v, hm, hva⟩ | h
      · rcases List.mem_cons.1 hm with rfl | hm
        · exact absurd hva hw
        · exact .inl ⟨v, hm, hva⟩
      · exact .inr (by rw [memRead_write_other m _ _ _ (Ne.symm hw), h])

/-- A read in a race sees, of its address, the byte before the command or one of the host's stores to it: the last among
the first `n a` (20_memory R52). -/
theorem memRead_memSeen (m ws : List Host.Cell) (n : Nat → Nat) (a : Nat) (ha : a < 2 ^ 32) :
    memRead (memSeen m ws n) a = memRead (memStores m (ws.take (n a))) a := by
  unfold memSeen
  by_cases h : ∃ w ∈ ws, w.1 = a
  · refine memRead_memStores_const _ m a _ ha ?_ (.inl ?_)
    · rintro _ hv rfl
      obtain ⟨w, -, rfl⟩ := List.mem_map.1 hv
      rfl
    · obtain ⟨w, hw, rfl⟩ := h
      exact ⟨_, List.mem_map.2 ⟨w, hw, rfl⟩, rfl⟩
  · have h' : ∀ w ∈ ws, w.1 ≠ a := fun w hw e => h ⟨w, hw, e⟩
    rw [memRead_memStores_other _ m a fun w hw => h' w (List.mem_of_mem_take hw), memRead_memStores_other _ m a]
    intro v hv
    obtain ⟨w, hw, rfl⟩ := List.mem_map.1 hv
    exact h' w hw

/-! ## The race -/

/-- With no host access, a race is the step. -/
theorem race_nil (s : State) (r : Race) (h : r.acts = []) :
    s.race r = match step s with
      | .next t => .next (t, [])
      | .fault e => .fault e
      | .refused e => .refused e := by
  have hs : r.stores = [] := by simp [Race.stores, h]
  have hv : r.view s = s.view := by funext k i; simp [Race.view, hs]
  have hstep : s.racingStep r = step s := by
    unfold State.racingStep State.racingFetch step
    rw [hv, hs, seen_nil]
    cases s.status <;> try rfl
    cases s.fetch with
    | error e => rfl
    | ok i => exact execSeeing_view i s
  cases hc : step s <;>
    simp [State.race, State.raced, Race.missing, State.merge, h, hs, hstep, hc, State.acts]

/-- What one access can change of what the host has seen: bits of `OPS_READY` are only added, each the old state's or one
the command sets (10_state R20), and after a byte of the command all of those the command sets (43_bulk R180). -/
theorem act_opsReady (s t : State) (r : Race) (m : Amid) (x : HostAct) :
    ∃ w, (s.act t r m x).1.opsReady = m.opsReady ||| (t.opsReady &&& w) ∧
      ((s.act t r m x).1.begun = true → m.begun = true ∨ w = BitVec.allOnes 32) := by
  have hz : m.opsReady = m.opsReady ||| (t.opsReady &&& 0) := by simp
  have ho : m.opsReady ||| t.opsReady = m.opsReady ||| (t.opsReady &&& BitVec.allOnes 32) := by
    rw [BitVec.and_allOnes]
  unfold State.act Amid.seesStore
  split
  · exact ⟨0, hz, .inl⟩
  · split
    · split
      · exact ⟨_, ho, fun _ => .inr rfl⟩
      · exact ⟨_, ho, fun _ => .inr rfl⟩
    · exact ⟨0, hz, .inl⟩
  · next touched =>
    split
    · exact ⟨touched, rfl, .inl⟩
    · exact ⟨0, hz, .inl⟩

/-- What the host has seen at the end holds every bit it has seen before, and no bit but the old ones and those the
command sets; where it has seen a byte of the command, all of those (10_state R20; 43_bulk R180). -/
theorem acts_opsReady (s t : State) (r : Race) (xs : List HostAct) (m : Amid)
    (hm : m.begun = true → m.opsReady ||| t.opsReady = m.opsReady) :
    ∃ w, (s.acts t r m xs).1.opsReady = m.opsReady ||| (t.opsReady &&& w) ∧
      ((s.acts t r m xs).1.begun = true →
        (s.acts t r m xs).1.opsReady ||| t.opsReady = (s.acts t r m xs).1.opsReady) := by
  induction xs generalizing m with
  | nil => exact ⟨0, by simp [State.acts], hm⟩
  | cons x xs ih =>
    obtain ⟨w, hw, hb⟩ := act_opsReady s t r m x
    obtain ⟨w', hw', hb'⟩ := ih (s.act t r m x).1 fun h => by
      rcases hb h with h | rfl
      · rw [hw, ← hm h]
        ext k
        simp
        grind
      · rw [hw, BitVec.and_allOnes]
        ext k
        simp
    refine ⟨w ||| w', ?_, hb'⟩
    show (s.acts t r (s.act t r m x).1 xs).1.opsReady = _
    rw [hw', hw]
    ext k
    simp
    grind

/-- A byte after a race is the command's or what the host has seen and made there (20_memory R52; 93 G5). -/
theorem readByte_merge (s t : State) (r : Race) (m : Amid) (a : Nat) :
    (s.merge t r m).readByte a = t.readByte a ∨ (s.merge t r m).readByte a = memRead m.mem a := by
  unfold State.merge State.readByte
  dsimp only
  generalize (r.stores.filter fun w => r.hostKeeps s t m w.1) = ws
  by_cases ha : a < 2 ^ 32
  · by_cases hw : ∃ w ∈ ws, w.1 = a
    · obtain ⟨w, hw, rfl⟩ := hw
      refine .inr (memRead_memStores_const _ _ _ _ ha ?_ (.inl ⟨_, List.mem_map.2 ⟨w, hw, rfl⟩, rfl⟩))
      intro v hv e
      obtain ⟨x, -, rfl⟩ := List.mem_map.1 hv
      exact congrArg (memRead m.mem) e
    · refine .inl (memRead_memStores_other _ _ _ fun v hv e => hw ?_)
      obtain ⟨w, hm, rfl⟩ := List.mem_map.1 hv
      exact ⟨w, hm, e⟩
  · refine .inl ?_
    generalize t.mem = n
    induction ws generalizing n with
    | nil => rfl
    | cons w ws ih =>
      rw [List.map_cons, memStores_cons, ih]
      by_cases e : a = w.1
      · simp only [memWrite, ← e, if_neg ha]
      · exact memRead_write_other _ _ _ _ e

/-- A byte the host does not store to, after a race, is the command's. -/
theorem readByte_merge_other (s t : State) (r : Race) (m : Amid) (a : Nat) (h : ∀ w ∈ r.stores, w.1 ≠ a) :
    (s.merge t r m).readByte a = t.readByte a :=
  memRead_memStores_other _ _ _ fun v hv => by
    obtain ⟨w, hm, rfl⟩ := List.mem_map.1 hv
    exact h w (List.mem_filter.1 hm).1

/-- After a race and `CTRL.RESET` or the platform's reset every byte is what the host has seen and made there or what the
race gives it (70_reset R290). -/
theorem raceReset_readByte (s t : State) (r : Race) (platform : Bool) (m : Amid) (seen : List HostSight)
    (h : s.raced r = .next (t, m, seen)) :
    ∃ u, s.raceReset r platform = .next (u, seen) ∧
      ∀ a, u.readByte a = memRead m.mem a ∨ u.readByte a = (s.merge t r m).readByte a := by
  unfold State.raceReset
  rw [h]
  refine ⟨_, rfl, fun a => ?_⟩
  generalize hs : ({ s with mem := m.mem, opsReady := m.opsReady } : State) = s'
  have key : (s'.abandonFrom (s.merge t r m) m.begun).readByte a = memRead m.mem a ∨
      (s'.abandonFrom (s.merge t r m) m.begun).readByte a = (s.merge t r m).readByte a := by
    subst hs
    rcases abandonFrom_cases _ (s.merge t r m) m.begun with e | ⟨-, e⟩ <;> rw [e]
    · exact memRead_mixedMemory _ _ a
    · exact .inl rfl
  cases platform <;> exact key

/-- `CTRL.RESET` after a race drops no bit of `OPS_READY` that the host has seen set (10_state R20; 70_reset R290), where
the command drops none. -/
theorem raceReset_opsReady (s t : State) (r : Race) (m : Amid) (seen : List HostSight)
    (h : s.raced r = .next (t, m, seen)) (hm : m.opsReady ||| t.opsReady = t.opsReady) :
    ∃ u, s.raceReset r false = .next (u, seen) ∧ u.opsReady ||| m.opsReady = u.opsReady := by
  unfold State.raceReset
  rw [h]
  refine ⟨_, rfl, ?_⟩
  rw [if_neg (by decide), ctrlReset_opsReady]
  rcases abandonFrom_cases { s with mem := m.mem, opsReady := m.opsReady } (s.merge t r m) m.begun with e | ⟨-, e⟩ <;>
    rw [e]
  · show t.opsReady ||| m.opsReady = t.opsReady
    rw [BitVec.or_comm, hm]
  · ext k
    simp
    grind

/-- A race keeps the canonical form of the memory. -/
theorem merge_wf (s t : State) (r : Race) (m : Amid) (h : Memory.wf t.mem = true) :
    Memory.wf (s.merge t r m).mem = true := memStores_wf _ _ h

end Sys2Proof.Machine
end

