-- ==== Sys2Proof/Tests/Slice0.lean ====
section
/-! SUPPORT. The model's own tests: the smoke test of the well-formedness checks, words written out from the spec's encodings,
the spec's test vectors (95_test_vectors, 96_test_vectors_commands; the name of a vector stands in the docstring), and, for
every obligation with hypotheses, a theorem `witness_<obligation>` with values that meet them. -/

namespace Sys2Proof.Tests

-- one theorem after another: a hundred kernel evaluations side by side exhaust the threads
set_option Elab.async false

open Sys2Proof.Machine

/-! ## Well-formedness: each check refuses an ill-formed term -/

theorem test_wellFormed_format_field : Instr.wellFormed (.ldp 0 26 0) = false := by decide
theorem test_wellFormed_last_format : Instr.wellFormed (.ldp 0 25 0) = true := by decide
theorem test_wellFormed_fmt0 : Instr.wellFormed (.cvtpx 0 0 26 25) = false := by decide
theorem test_wellFormed_fmt1 : Instr.wellFormed (.cvtpx 0 0 25 26) = false := by decide
theorem test_wellFormed_mode : Instr.wellFormed (.setbl 9 11) = false := by decide
theorem test_wellFormed_operator : Instr.wellFormed (.setbl 8 12) = false := by decide
theorem test_wellFormed_blender : Instr.wellFormed (.setbl 8 11) = true := by decide

/-! ## Decoding: one word of the spec for every command (96_test_vectors_commands section 1, W3 W2 W1 W0) -/

theorem test_decode_end : decode 0x00000000000000000000000000000000 = .ok .endList := by decide
theorem test_decode_span : decode 0x00000004000020000000000000000101 = .ok (.span 1 0x2000 4) := by decide
theorem test_decode_ldp : decode 0x00000000000010010000001000000202 = .ok (.ldp 2 16 0x1001) := by decide
theorem test_decode_stp : decode 0x00000000000011000000000C00000103 = .ok (.stp 1 12 0x1100) := by decide
theorem test_decode_ldv : decode 0x00000000000012000000000000000104 = .ok (.ldv 1 0x1200) := by decide
theorem test_decode_stv : decode 0x00000000000013000000000000000305 = .ok (.stv 3 0x1300) := by decide
theorem test_decode_unpack : decode 0x00000000000000000000000700000310 = .ok (.unpack 3 0 7) := by decide
theorem test_decode_unpacks : decode 0x00000000000000000000001200000111 = .ok (.unpacks 1 0 18) := by decide
theorem test_decode_pack : decode 0x00000000000000000000000C00001112 = .ok (.pack 1 1 12) := by decide
theorem test_decode_packs : decode 0x00000000000000000000001300000013 = .ok (.packs 0 0 19) := by decide
theorem test_decode_cvtpx : decode 0x00000000000000000000070C00000114 = .ok (.cvtpx 1 0 12 7) := by decide
theorem test_decode_mkpx : decode 0x0000000080FF00400000001100000115 = .ok (.mkpx 1 17 0x80FF0040) := by decide
theorem test_decode_parsehex : decode 0x00000000000000000000000000000016 = .ok (.parsehex 0 0) := by decide
theorem test_decode_tovec4 : decode 0x00000000000000000000000703000120 = .ok (.tovec4 1 0 7 3) := by decide
theorem test_decode_fromvec4 : decode 0x00000000000000000000000702001021 = .ok (.fromvec4 0 1 7 2) := by decide
theorem test_decode_convert : decode 0x00000000000000000000070B00000122 = .ok (.convert 1 0 11 7) := by decide
theorem test_decode_packplanes : decode 0x00000000000000000000000500765423 = .ok (.packplanes 4 5 6 7 5) := by decide
theorem test_decode_unpackplanes : decode 0x00000000000000000000000700765424 = .ok (.unpackplanes 4 5 6 7 7) := by decide
theorem test_decode_setbl : decode 0x00000000000000000041000000000030 = .ok (.setbl 1 4) := by decide
theorem test_decode_blendpx : decode 0x000000003F0000000000000000010231 = .ok (.blendpx 2 0 1 0x3F000000) := by decide
theorem test_decode_blend : decode 0x000000003F0000000000070B00032132 = .ok (.blend 1 2 3 11 7 0x3F000000) := by decide
theorem test_decode_blenda : decode 0x00000000000000000000070700432233 = .ok (.blenda 2 2 3 4 7 7) := by decide
theorem test_decode_fmtinfo : decode 0x00000000000000000000000B00000040 = .ok (.fmtinfo 11) := by decide
theorem test_decode_mkinfo : decode 0x00000000000000100000000000000041 = .ok (.mkinfo 0 16) := by decide
theorem test_decode_pxinfo : decode 0x00000000000000030000000000000042 = .ok (.pxinfo 0 3) := by decide
theorem test_decode_rdci : decode 0x00000000000000000000000000000143 = .ok (.rdci 1) := by decide

/-- The bytes of `BLEND S2, S2, S3, RGBA32, RGBA32, 0.5` in memory (30_encoding section 6). -/
theorem test_decode_bytes : decodeBytes [0x32, 0x22, 0x03, 0x00, 0x07, 0x07, 0x00, 0x00, 0x00, 0x00, 0x00, 0x3F, 0x00, 0x00,
    0x00, 0x00] = .ok (.blend 2 2 3 7 7 0x3F000000) := by decide
theorem test_decodeTableWord : decodeTableWord 128 0x03000120 = some (.tovec4 1 0 0 3) := by decide
/-- T502 to T507: unknown opcodes, then a reserved or unused field that is not zero. -/
theorem test_decode_unknown : decode 0x06 = .error (.unknownOpcode 0x06) ∧ decode 0xFF = .error (.unknownOpcode 0xFF) := by
  decide
theorem test_decode_nonzero : decode 0x100 = .error (.nonzeroField 0x100) ∧
    decode 0x00000004000020000000000008000101 = .error (.nonzeroField 0x08000101) ∧
    decode 0x00000004000020000000000700000101 = .error (.nonzeroField 0x101) ∧
    decode 0x00000000000000000000070B01000122 = .error (.nonzeroField 0x01000122) := by decide

/-- The masks of `opcode_table.json`, row by row. -/
theorem test_masks : opcodeRows.map (fun r => r.uses.mask) = [
    0xFFFFFFFFFFFFFFFFFFFFFFFFFFFFFFFF, 0x0000000000000000FFFFFFFFFFFFF0FF, 0xFFFFFFFF00000000FFFFFF00FFFFF0FF,
    0xFFFFFFFF00000000FFFFFF00FFFFF0FF, 0xFFFFFFFF00000000FFFFFFFFFFFFF0FF, 0xFFFFFFFF00000000FFFFFFFFFFFFF0FF,
    0xFFFFFFFFFFFFFFFFFFFFFF00FFFF00FF, 0xFFFFFFFFFFFFFFFFFFFFFF00FFFF00FF, 0xFFFFFFFFFFFFFFFFFFFFFF00FFFF00FF,
    0xFFFFFFFFFFFFFFFFFFFFFF00FFFF00FF, 0xFFFFFFFFFFFFFFFFFFFF0000FFFF00FF, 0xFFFFFFFF00000000FFFFFF00FFFFF0FF,
    0xFFFFFFFFFFFFFFFFFFFFFFFFFFFF00FF] ++ [
    0xFFFFFFFFFFFFFFFFFFFFFF00F8FF00FF, 0xFFFFFFFFFFFFFFFFFFFFFF00F8FF00FF, 0xFFFFFFFFFFFFFFFFFFFF0000FFFF00FF,
    0xFFFFFFFFFFFFFFFFFFFFFF00FF0000FF, 0xFFFFFFFFFFFFFFFFFFFFFF00FF0000FF, 0xFFFFFFFFFFFFFFFFFF00FFFFFFFFFFFF,
    0xFFFFFFFF00000000FFFFFFFFFFF000FF, 0xFFFFFFFF00000000FFFF0000FFF000FF, 0xFFFFFFFFFFFFFFFFFFFF0000FF0000FF,
    0xFFFFFFFFFFFFFFFFFFFFFF00FFFFFFFF, 0xFFFFFFFF00000000FFFFFFFFFFFF0FFF, 0xFFFFFFFF00000000FFFFFFFFFFFFF0FF,
    0xFFFFFFFFFFFFFFFFFFFFFFFFFFFFF0FF] := by decide +kernel

/-! ## The numbers (95_test_vectors section 3) -/

/-- T301 to T310 -/
theorem test_roundHaz : [0x3F000000, 0x3FC00000, 0x40200000, 0xBF000000, 0xC0200000, 0x42FF0000, 0x42FEFFFF, 0x3EFFFFFF,
    0x80000000, 0x477FFF00].map roundHaz = [1, 2, 3, -1, -3, 128, 127, 0, 0, 65535] := by decide +kernel
/-- T311 to T326, a choice -/
theorem test_packU : packU 0 0x3F000000 8 = 128 ∧ packU 0 0x3F000000 1 = 1 ∧ packU 0 0x3F000000 16 = 32768 ∧
    packU 0 0x80000000 8 = 0 ∧ packU 0 0x3FC00000 8 = 255 ∧ packU 0 0xC0400000 8 = 0 ∧ packU 0 0x3DCCCCCD 8 = 26 ∧
    packU 0 0x3F666666 5 = 28 ∧ packU 0 0x7F800000 8 = 255 ∧ packU 0 0xFF800000 8 = 0 := by decide +kernel
/-- T327 to T336, a choice -/
theorem test_unpackU : unpackU (128 : BitVec 8) = 0x3F008081 ∧ unpackU (1 : BitVec 8) = 0x3B808081 ∧
    unpackU (1 : BitVec 2) = 0x3EAAAAAB ∧ unpackU (512 : BitVec 10) = 0x3F002008 ∧
    unpackU (65535 : BitVec 16) = 0x3F800000 := by decide +kernel
/-- T339, T343, T347, T350, T352 -/
theorem test_signed_fields : unpackS (0x80 : BitVec 8) = 0xBF810204 ∧ unpackS (0x8000 : BitVec 16) = 0xBF800100 ∧
    packS 0 0xC0000000 8 = 0x81 ∧ packS 0 0xBF000000 8 = 0xC0 ∧ packS 0 0xBF810204 8 = 0x81 := by decide +kernel
/-- T361 to T377, a choice -/
theorem test_half_fields : unpackH 0 0x0001 = 0x33800000 ∧ unpackH 0 0xFC00 = 0xFF800000 ∧ packH 0 0x477FF000 = 0x7BFF ∧
    packH 0 0xFF800000 = 0xFBFF ∧ packH 0 0x80000000 = 0x8000 ∧ packH 0 0x33000000 = 0x0000 ∧
    packH 0 0x3F801000 = 0x3C00 ∧ packH 0 0x3F803000 = 0x3C02 := by decide +kernel
/-- T378, T382, T383 -/
theorem test_luma : luma 0x3F800000 0x3F800000 0x3F800000 = 0x3F800000 ∧ luma 0x3E4CCCCD 0x3ECCCCCD 0x3F19999A = 0x3EBE6C4C ∧
    luma 0x40000000 0xBF800000 0x3F000000 = 0x3E7EAB36 := by decide +kernel

/-! ## Formats (95_test_vectors sections 4 and 5) -/

/-- Free words for the tests: a result that does not depend on them. -/
def noDraws : Draws := fun _ => 0

/-- `v0` of 95_test_vectors section 4. -/
def v0 : Vec4 := { x := 0x3E4CCCCD, y := 0x3ECCCCCD, z := 0x3F19999A, w := 0x3F4CCCCD }

/-- T66 to T91: `v0` packed in every format, in the order of the ids. -/
theorem test_pack_every_format : allFormats.map (fun f => fromCanonical noDraws f v0) = [
    0xCC, 0x5F, 0x5F36, 0xCC5F, 0xCCCC5F36, 0x996633, 0x336699, 0xCC996633, 0xCC336699, 0x996633CC, 0x336699CC, 0x3333,
    0x9993, 0xC369, 0xA66664CD, 0x66663333, 0x999966663333, 0xCCCC999966663333, 0x3319, 0x664C3319, 0x33331999,
    0x66664CCC33331999, 0x3266, 0x36663266, 0x3A6638CD36663266, 0x3F4CCCCD3F19999A3ECCCCCD3E4CCCCD] := by decide +kernel
/-- T84 to T87: `v0` packed as a scaled vector. -/
theorem test_pack_scaled : [Fmt.sn8x2, .sn8x4, .sn16x2, .sn16x4].map (fun f => fromScaled noDraws f v0) =
    [0xE7B4, 0x4C19E7B4, 0xE667B334, 0x4CCC1999E667B334] := by decide +kernel
/-- T40, T43, T50, T53, T54, T56, T59, T64 -/
theorem test_unpack_formats :
    toCanonical noDraws .a8 0x80 = ⟨0, 0, 0, 0x3F008081⟩ ∧
    toCanonical noDraws .la16 0x40C0 = ⟨0x3F40C0C1, 0x3F40C0C1, 0x3F40C0C1, 0x3E808081⟩ ∧
    toCanonical noDraws .abgr32 0x80FF0040 = ⟨0x3F008081, 0x3F800000, 0, 0x3E808081⟩ ∧
    toCanonical noDraws .bgra4444 0xF0A5 = ⟨0, 0x3F2AAAAB, 0x3EAAAAAB, 0x3F800000⟩ ∧
    toCanonical noDraws .rgba1010102 0x7FF003FF = ⟨0x3F800000, 0, 0x3F800000, 0x3EAAAAAB⟩ ∧
    toCanonical noDraws .rgb48 0x00018000FFFF = ⟨0x3F800000, 0x3F000080, 0x37800080, 0x3F800000⟩ ∧
    toScaled noDraws .sn8x4 0x7F00817F = ⟨0x3F800000, 0, 0x3F000000, 0x3F800000⟩ ∧
    toCanonical noDraws .h16x4 0x3C0000003800BC00 = ⟨0xBF800000, 0x3F000000, 0, 0x3F800000⟩ := by decide +kernel
/-- T102, T111, T117, T122, T124, T125, T126, T130, T133 -/
theorem test_conversions :
    convertPixel noDraws noDraws .l16 .rgba32 0xFF00FF00 = 0xB717 ∧
    convertPixel noDraws noDraws .rgba32 .rgba64 0x807FFFFF00004040 = 0x80FF0040 ∧
    convertPixel noDraws noDraws .rgba32 .bgr565 0x8410 = 0xFF848284 ∧
    convertPixel noDraws noDraws .rgba1010102 .rgba32 0x80FF0040 = 0xBFF00101 ∧
    convertPixel noDraws noDraws .rgba32 .sn8x4 0x7F00817F = 0xFF8000FF ∧
    convertPixel noDraws noDraws .sn8x4 .rgba32 0xFF8000FF = 0x7F00817F ∧
    convertPixel noDraws noDraws .sn8x4 .sn8x4 0x80808080 = 0x81818181 ∧
    convertPixel noDraws noDraws .h16x4 .h16x4 0x7C007C007C007C00 = 0x7BFF7BFF7BFF7BFF ∧
    convertPixel noDraws noDraws .rgba32 .rg32 0x8000FFFF = 0xFF0080FF := by decide +kernel

/-! ## Blending (95_test_vectors section 6) -/

/-- T140 to T148 at `b = 0.2`, `s = 0.9` -/
theorem test_blend_functions : allModes.map (fun m => modeFn m 0x3E4CCCCD 0x3F666666) = [0x3F666666, 0x3E3851EB, 0x3F6B851E,
    0x3E4CCCCD, 0x3F666666, 0x3EB851EB, 0x3F570A3D, 0x3F800000, 0x00000000] := by decide +kernel
/-- T150 to T161: the colour and the alpha of the twelve operators, mode Normal, opacity 1 -/
theorem test_operators :
    allOps.map (fun o => blendPixel noDraws ⟨.normal, o⟩ ⟨0x3F4CCCCD, 0x3ECCCCCD, 0x3E4CCCCD, 0x3F000000⟩
      ⟨0x3E4CCCCD, 0x3F19999A, 0x3F666666, 0x3F400000⟩ F32.one) = [
    ⟨0x3E4CCCCD, 0x3F19999A, 0x3F666666, 0x3F400000⟩, ⟨0x3E924925, 0x3F124925, 0x3F4CCCCB, 0x3F600000⟩,
    ⟨0x3E4CCCCD, 0x3F19999A, 0x3F666665, 0x3EC00000⟩, ⟨0x3E4CCCCD, 0x3F19999A, 0x3F666665, 0x3EC00000⟩,
    ⟨0x3EB33334, 0x3F0CCCCD, 0x3F399999, 0x3F000000⟩, ⟨0x3F4CCCCD, 0x3ECCCCCD, 0x3E4CCCCD, 0x3F000000⟩,
    ⟨0x3F0AF8B0, 0x3EF8AF8B, 0x3EFFFFFF, 0x3F600000⟩, ⟨0x3F4CCCCD, 0x3ECCCCCD, 0x3E4CCCCD, 0x3EC00000⟩,
    ⟨0x3F4CCCCD, 0x3ECCCCCD, 0x3E4CCCCD, 0x3E000000⟩, ⟨0x3F000000, 0x3F000000, 0x3F0CCCCC, 0x3F400000⟩,
    ⟨0x3EB33334, 0x3F0CCCCD, 0x3F399999, 0x3F000000⟩, ⟨0, 0, 0, 0⟩] := by decide +kernel
/-- T163, T166, T172: mode Multiply, opacity 0.5 -/
theorem test_operators_half :
    [CompOp.srcOver, .srcAtop, .xor].map (fun o => blendPixel noDraws ⟨.multiply, o⟩
      ⟨0x3F4CCCCD, 0x3ECCCCCD, 0x3E4CCCCD, 0x3F000000⟩ ⟨0x3E4CCCCD, 0x3F19999A, 0x3F666666, 0x3F400000⟩ 0x3F000000) = [
    ⟨0x3EEC736F, 0x3ED262AD, 0x3EC55A4C, 0x3F300000⟩, ⟨0x3F0F5C29, 0x3EAE147B, 0x3E451EB8, 0x3F000000⟩,
    ⟨0x3F133333, 0x3EF33334, 0x3EECCCCC, 0x3F000000⟩] := by decide +kernel
/-- T187, T190, T195: an opacity below 0, a source alpha of 0, a final alpha of 0 -/
theorem test_blend_corners :
    blendPixel noDraws ⟨.normal, .srcOver⟩ ⟨0x3F800000, 0, 0, 0x3F800000⟩ ⟨0, 0x3F800000, 0, 0x3F800000⟩ 0xBF800000
      = ⟨0x3F800000, 0, 0, 0x3F800000⟩ ∧
    blendPixel noDraws ⟨.normal, .src⟩ v0 ⟨0x3F000000, 0, 0, 0⟩ F32.one = v0 ∧
    blendPixel noDraws ⟨.normal, .srcIn⟩ ⟨0x3F4CCCCD, 0, 0, 0⟩ v0 F32.one = ⟨0, 0, 0, 0⟩ := by decide +kernel

/-! ## One command at a time (96_test_vectors_commands section 1) -/

/-- The engine in RUN at 0x8000 with all of the address space valid. -/
def blank : State := { State.reset with status := .run, cp := 0x8000 }

/-- A state with bytes placed in memory. -/
def State.having (s : State) : List (Nat × List Nat) → State
  | [] => s
  | (a, bs) :: rest => State.having (s.writeBytes a (bs.map (BitVec.ofNat 8))) rest

/-- The state after a command that answers one. -/
def after (i : Instr) (s : State) : Option State :=
  match exec i s with
  | .next t => some t
  | .fault _ => none
  | .refused _ => none

/-- A fact about the state after a command. -/
def gives (i : Instr) (s : State) (p : State → Bool) : Bool := (after i s).any p

/-- The bytes of a memory from an address on. -/
def bytesAt (s : State) (a n : Nat) : List Nat := (memReadBytes s.mem a n).map BitVec.toNat

/-- T401, T402 -/
theorem test_ldp : gives (.ldp 2 16 0x1001) (State.having blank [(0x1001, [1, 2, 3, 4, 5, 6, 7, 8])])
    (fun t => t.preg 2 == .holds 0x60504030201 && t.cp == 0x8010) = true := by decide +kernel
/-- T404: only `bytes(f)` bytes are stored. -/
theorem test_stp : gives (.stp 1 1 0x1101) (State.having (blank.setP 1 0x80FF0040) [(0x1100, [0xEE, 0xEE, 0xEE])])
    (fun t => bytesAt t 0x1100 3 == [0xEE, 0x40, 0xEE]) = true := by decide +kernel
/-- T400 -/
theorem test_span : gives (.span 1 0x2000 4) blank (fun t => t.sreg 1 == .holds ⟨0x2000, 4⟩) = true := by decide +kernel
theorem test_end : gives .endList blank (fun t => t.status == .halted && t.cp == 0x8000) = true := by decide +kernel
/-- T405 -/
theorem test_ldv : gives (.ldv 0 0x1200) (State.having blank [(0x1200, [0, 0, 0, 0x3F, 0, 0, 0, 0x3F, 0, 0, 0, 0x3F, 0, 0,
    0x80, 0x3F])]) (fun t => t.vreg 0 == .holds ⟨0x3F000000, 0x3F000000, 0x3F000000, 0x3F800000⟩) = true := by decide +kernel
/-- T406 -/
theorem test_stv : gives (.stv 3 0x1300) (blank.setV 3 ⟨0x3F800000, 0, 0, 0x3F800001⟩)
    (fun t => bytesAt t 0x1300 16 == [0, 0, 0x80, 0x3F, 0, 0, 0, 0, 0, 0, 0, 0, 1, 0, 0x80, 0x3F]) = true := by
  decide +kernel
/-- T408: the bits above the format are ignored. -/
theorem test_unpack : gives (.unpack 1 0 0) (blank.setP 0 0x80FF0040)
    (fun t => t.vreg 1 == .holds ⟨0, 0, 0, 0x3E808081⟩) = true := by decide +kernel
/-- T409 -/
theorem test_unpacks : gives (.unpacks 1 0 18) (blank.setP 0 0x817F)
    (fun t => t.vreg 1 == .holds ⟨0x3F800000, 0, 0, 0x3F800000⟩) = true := by decide +kernel
/-- T412 -/
theorem test_pack : gives (.pack 1 0 19) (blank.setV 0 ⟨0x3FC00000, 0xBE800000, 0x40000000, 0xBF800000⟩)
    (fun t => t.preg 1 == .holds 0x817FE07F) = true := by decide +kernel
/-- T413 -/
theorem test_packs : gives (.packs 0 0 19) (blank.setV 0 ⟨0x3F800000, 0, 0x3F000000, 0x3F800000⟩)
    (fun t => t.preg 0 == .holds 0x7F00817F) = true := by decide +kernel
/-- T414; source and destination register the same -/
theorem test_cvtpx : gives (.cvtpx 0 0 12 7) (blank.setP 0 0xFF0000FF) (fun t => t.preg 0 == .holds 0xFC00) = true := by
  decide +kernel
/-- T415 -/
theorem test_mkpx : gives (.mkpx 1 17 0x80FF0040) blank (fun t => t.preg 1 == .holds 0x8080FFFF00004040) = true := by
  decide +kernel
/-- T418 -/
theorem test_parsehex : gives (.parsehex 0 0) (State.having (blank.setS 0 ⟨0x1400, 9⟩) [(0x1400, [0x23, 0x38, 0x30, 0x46,
    0x46, 0x30, 0x30, 0x34, 0x30])]) (fun t => t.preg 0 == .holds 0x4000FF80) = true := by decide +kernel
/-- T420 -/
theorem test_parsehex_case : gives (.parsehex 0 0) (State.having (blank.setS 0 ⟨0x1400, 6⟩) [(0x1400, [0x61, 0x42, 0x63,
    0x44, 0x65, 0x46])]) (fun t => t.preg 0 == .holds 0xFFEFCDAB) = true := by decide +kernel
/-- T421, the second pixel -/
theorem test_tovec4 : gives (.tovec4 1 0 7 3) (State.having ((blank.setS 0 ⟨0x1000, 1⟩).setS 1 ⟨0x2000, 1⟩) [(0x1000,
    [0, 0, 0xFF, 0x80])]) (fun t => bytesAt t 0x2000 16 == [0, 0, 0, 0, 0, 0, 0, 0, 0x81, 0x80, 0, 0x3F, 0x81, 0x80, 0,
    0x3F] && t.opsReady == 0x80) = true := by decide +kernel
/-- T424, the first vector -/
theorem test_fromvec4 : gives (.fromvec4 0 1 7 2) (State.having ((blank.setS 0 ⟨0x1000, 1⟩).setS 1 ⟨0x2000, 1⟩) [(0x2000,
    [0, 0, 0x80, 0x3E, 0, 0, 0, 0x3F, 0, 0, 0, 0, 0, 0, 0, 0x3F])])
    (fun t => bytesAt t 0x1000 4 == [0x80, 0xFF, 0, 0x80]) = true := by decide +kernel
/-- T425 -/
theorem test_convert : gives (.convert 1 0 11 7) (State.having ((blank.setS 0 ⟨0x1000, 2⟩).setS 1 ⟨0x1100, 2⟩) [(0x1000,
    [0xFF, 0, 0, 0xFF, 0, 0xFF, 0, 0xFF])])
    (fun t => bytesAt t 0x1100 4 == [0, 0xF8, 0xE0, 7] && t.opsReady == 0x880) = true := by decide +kernel
/-- T427: no element, and the bits of `OPS_READY` are set all the same. -/
theorem test_convert_empty : gives (.convert 1 0 11 7) ((blank.setS 0 ⟨0x1000, 0⟩).setS 1 ⟨0x1100, 0⟩)
    (fun t => t.opsReady == 0x880 && t.mem == []) = true := by decide +kernel

/-- Four spans of the plane tests. -/
def planes (dst : Span) (n : Word) : State :=
  (((blank.setS 4 dst).setS 5 ⟨0x1000, n⟩).setS 6 ⟨0x1010, n⟩).setS 7 ⟨0x1020, n⟩

/-- T428, with one slack element -/
theorem test_packplanes : gives (.packplanes 4 5 6 7 7) (State.having (planes ⟨0x1100, 3⟩ 2) [(0x1000, [0xFF, 0]),
    (0x1010, [0, 0x80]), (0x1020, [0, 0xFF]), (0x1108, [0xEE])])
    (fun t => bytesAt t 0x1100 9 == [0xFF, 0, 0, 0xFF, 0, 0x80, 0xFF, 0xFF, 0xEE]) = true := by decide +kernel
/-- T429 -/
theorem test_unpackplanes : gives (.unpackplanes 4 5 6 7 7) (State.having (planes ⟨0x1100, 1⟩ 2) [(0x1100, [0x33, 0x66,
    0x99, 0xCC]), (0x1001, [0xEE]), (0x1011, [0xEE]), (0x1021, [0xEE])])
    (fun t => bytesAt t 0x1000 2 ++ bytesAt t 0x1010 2 ++ bytesAt t 0x1020 2 == [0x33, 0xEE, 0x66, 0xEE, 0x99, 0xEE])
    = true := by decide +kernel
/-- T431 -/
theorem test_setbl : gives (.setbl 1 4) blank (fun t => Blender.word t.blender == 0x41) = true := by decide +kernel
/-- T432 -/
theorem test_blendpx : gives (.blendpx 2 0 1 0x3F000000)
    ((blank.setV 0 ⟨0x3F800000, 0, 0, 0x3F800000⟩).setV 1 ⟨0, 0x3F800000, 0, 0x3F800000⟩)
    (fun t => t.vreg 2 == .holds ⟨0x3F000000, 0x3F000000, 0, 0x3F800000⟩) = true := by decide +kernel
/-- T434: a destination of another format than the source -/
theorem test_blend : gives (.blend 1 2 3 11 7 0x3F000000) (State.having (((blank.setS 1 ⟨0x1040, 1⟩).setS 2
    ⟨0x1000, 1⟩).setS 3 ⟨0x1100, 1⟩) [(0x1000, [0, 0xF8]), (0x1100, [0, 0xFF, 0, 0xFF])])
    (fun t => bytesAt t 0x1040 2 == [0, 0x84] && bytesAt t 0x1000 2 == [0, 0xF8]) = true := by decide +kernel
/-- T433: in place -/
theorem test_blend_in_place : gives (.blend 2 2 3 7 7 0x3F000000) (State.having ((blank.setS 2 ⟨0x1000, 1⟩).setS 3
    ⟨0x1100, 1⟩) [(0x1000, [0xFF, 0, 0, 0xFF]), (0x1100, [0, 0xFF, 0, 0xFF])])
    (fun t => bytesAt t 0x1000 4 == [0x80, 0x80, 0, 0xFF]) = true := by decide +kernel
/-- T435 -/
theorem test_blenda : gives (.blenda 2 2 3 4 7 7) (State.having (((blank.setS 2 ⟨0x1000, 2⟩).setS 3 ⟨0x1100, 2⟩).setS 4
    ⟨0x1200, 2⟩) [(0x1000, [0xFF, 0, 0, 0xFF, 0xFF, 0, 0, 0xFF]), (0x1100, [0, 0xFF, 0, 0xFF, 0, 0xFF, 0, 0xFF]),
    (0x1200, [0, 0, 0, 0, 0, 0, 0x80, 0x3F])])
    (fun t => bytesAt t 0x1000 8 == [0xFF, 0, 0, 0xFF, 0, 0xFF, 0, 0xFF]) = true := by decide +kernel
/-- T437 -/
theorem test_fmtinfo : gives (.fmtinfo 11) blank (fun t => CompInfo.hdrWord t.ci == 0x1003 &&
    CompInfo.precWord t.ci 0 == 0x00050605) = true := by decide +kernel
/-- T440 -/
theorem test_mkinfo : gives (.mkinfo 0 32) (State.having (blank.setS 0 ⟨0x1500, 3⟩) [(0x1500, [8, 0, 0, 0, 8, 0, 0, 0, 8,
    0, 0, 0])]) (fun t => t.ci.padding == 8 && t.ci.count == 3) = true := by decide +kernel
/-- T438 -/
theorem test_pxinfo : gives (.pxinfo 0 3) { blank with ci := Fmt.info .rgba1010102 } (fun t => t.preg 0 == .holds 2) = true := by
  decide +kernel
/-- T440 -/
theorem test_rdci : gives (.rdci 1) { blank with ci := { Fmt.info .rgb24 with bpp := 32, padding := 8 } }
    (fun t => t.preg 1 == .holds 0x8002003) = true := by decide +kernel

/-! ## Faults (96_test_vectors_commands section 2) -/

/-- The platform of the vectors: 0x1000 to 0xFFFF exist. -/
def holes : State := { blank with memValid := [{ base := 0x1000, size := 0xF000 }] }

/-- The command takes the fault, and `cp` stays. -/
def faults (i : Instr) (s : State) (code : FaultCode) (info : Word) : Bool :=
  gives i s fun t => t.status == .fault && t.faultCode == code && t.faultInfo == info && t.faultCp == s.cp && t.cp == s.cp

/-- T508, T510 -/
theorem test_invalidFormat : faults (.fmtinfo 26) holes .invalidFormat 26 = true ∧
    faults (.cvtpx 1 0 7 200) holes .invalidFormat 0x1C8 = true ∧
    faults (.cvtpx 1 0 30 200) holes .invalidFormat 30 = true := by decide +kernel
/-- T512 to T514 -/
theorem test_invalidBlender : faults (.setbl 9 1) holes .invalidBlender 9 = true ∧
    faults (.setbl 0 12) holes .invalidBlender 0x1C = true ∧ faults (.setbl 15 15) holes .invalidBlender 15 = true := by
  decide +kernel
/-- T515 to T518 -/
theorem test_unwritten : faults (.unpack 0 5 7) holes .unwrittenRegister 0x05 = true ∧
    faults (.pack 0 9 7) holes .unwrittenRegister 0x19 = true ∧
    faults (.convert 1 0 11 7) (holes.setS 0 ⟨0x1000, 1⟩) .unwrittenRegister 0x21 = true ∧
    faults (.blendpx 2 0 1 0) (holes.setV 0 v0) .unwrittenRegister 0x11 = true := by decide +kernel
/-- T519, T523, T524 -/
theorem test_lengths : faults (.tovec4 1 0 7 0) ((holes.setS 0 ⟨0x1000, 3⟩).setS 1 ⟨0x2000, 2⟩) .lengthMismatch 3 = true ∧
    faults (.packplanes 4 5 6 7 7) { planes ⟨0x1100, 1⟩ 2 with memValid := [] } .lengthMismatch 1 = true ∧
    faults (.unpackplanes 4 5 6 7 7) (planes ⟨0x1100, 3⟩ 2) .lengthMismatch 3 = true := by decide +kernel
/-- T525, T527, T529 -/
theorem test_overlap : faults (.convert 0 0 7 8) (holes.setS 0 ⟨0x1000, 2⟩) .spanOverlap 0x10 = true ∧
    faults (.blend 2 2 3 7 7 0) ((holes.setS 2 ⟨0x1000, 2⟩).setS 3 ⟨0x1004, 2⟩) .spanOverlap 0x20 = true ∧
    faults (.unpackplanes 4 5 5 7 7) (((holes.setS 4 ⟨0x1100, 1⟩).setS 5 ⟨0x1000, 1⟩).setS 7 ⟨0x1020, 1⟩) .spanOverlap 0x21
      = true := by decide +kernel
/-- T530, T531, T533, T534 -/
theorem test_access : faults (.ldp 0 7 0xFFE) holes .accessFault 0xFFE = true ∧
    faults (.stv 0 0xFFF8) (holes.setV 0 v0) .accessFault 0x10000 = true ∧
    faults (.convert 0 1 7 7) ((holes.setS 0 ⟨0xFFFFFFF0, 8⟩).setS 1 ⟨0x1100, 8⟩) .accessFault 0xFFFFFFF0 = true ∧
    faults (.packplanes 4 5 6 7 7) { planes ⟨0xFFF8, 3⟩ 2 with memValid := holes.memValid } .accessFault 0x10000 = true := by
  decide +kernel
/-- T535, T536, T538, T539 -/
theorem test_malformedHex :
    faults (.parsehex 0 0) (State.having (holes.setS 0 ⟨0x1400, 6⟩) [(0x1400, [0x23])]) .malformedHex 6 = true ∧
    faults (.parsehex 0 0) (State.having (holes.setS 0 ⟨0x1400, 4⟩) [(0x1400, [0x23, 0x31, 0x32, 0x47])]) .malformedHex 3
      = true ∧
    faults (.parsehex 0 0) (State.having (holes.setS 0 ⟨0x1400, 1⟩) [(0x1400, [0x23])]) .malformedHex 1 = true ∧
    faults (.parsehex 0 0) (State.having (holes.setS 0 ⟨0x1400, 5⟩) [(0x1400, [0x23, 0x23, 0x31, 0x32, 0x33])])
      .malformedHex 1 = true := by decide +kernel
/-- T541 -/
theorem test_infoIndex : faults (.pxinfo 0 3) { holes with ci := Fmt.info .bgr565 } .infoIndexRange 3 = true := by
  decide +kernel
/-- T543 to T546 -/
theorem test_infoInvalid : faults (.mkinfo 0 64) (holes.setS 0 ⟨0, 17⟩) .infoInvalid 17 = true ∧
    faults (.mkinfo 0 512) (State.having (holes.setS 0 ⟨0x1500, 2⟩) [(0x1500, [8, 0, 0, 0, 0x2C, 1, 0, 0])]) .infoInvalid
      0x101 = true ∧
    faults (.mkinfo 0 65536) (holes.setS 0 ⟨0x1500, 0⟩) .infoInvalid 0x200 = true := by decide +kernel

/-- A step that answers a state of which a fact holds. -/
def steps (s : State) (p : State → Bool) : Bool :=
  match step s with
  | .next t => p t
  | .fault _ => false
  | .refused _ => false

/-- T500, T501: the lowest missing byte, and `cp` itself at the top of the space -/
theorem test_fetchFault :
    steps { holes with cp := 0xFFF8 } (fun t => t.faultCode == .fetchFault && t.faultInfo == 0x10000) = true ∧
    steps { holes with cp := 0xFFFFFFF8 } (fun t => t.faultCode == .fetchFault && t.faultInfo == 0xFFFFFFF8) = true := by
  decide +kernel
/-- T505 -/
theorem test_illegal : steps (State.reset.withFetchWord 128 0x00000004000020000000000008000101)
    (fun t => t.faultCode == .illegalInstruction && t.faultInfo == 0x08000101 && t.status == .fault) = true := by
  decide +kernel
/-- The command placed by `withFetchWord` is the one that runs. -/
theorem test_withFetchWord : steps (State.reset.withFetchWord 128 0x00000004000020000000000000000101)
    (fun t => t.sreg 1 == .holds ⟨0x2000, 4⟩ && t.cp == 0x10) = true := by decide +kernel
/-- From reset nothing runs (70_reset R292, R304). -/
theorem test_reset_idles : steps State.reset (fun t => t == State.reset) = true := by decide +kernel

/-! ## The host (10_state R24; 70_reset R290) -/

theorem test_host_start : (State.reset.writeCtrl 1).status = .run ∧ ({ blank with status := .fault }.writeCtrl 1).status = .fault ∧
    ({ blank with opsReady := 0x80 }.writeCtrl 3) = { State.reset with opsReady := 0x80 } := by decide +kernel
/-- T437: the words the host reads after `FMTINFO BGR565` -/
theorem test_host_read : ({ blank with ci := Fmt.info .bgr565 }.hostRead 0x20) = some 0x1003 ∧
    ({ blank with ci := Fmt.info .bgr565 }.hostRead 0x28) = some 0x00050605 ∧ State.reset.hostRead 0x1C = some 0x10 ∧
    State.reset.hostRead 0x38 = none := by decide +kernel

/-! ## Witnesses: values that meet the hypotheses of each statement -/

/-- A `SPAN` command as the sixteen bytes of memory. -/
def spanBytes : List Nat := [1, 1, 0, 0, 0, 0, 0, 0, 0, 0x20, 0, 0, 4, 0, 0, 0]
/-- The engine about to run a `SPAN` at an address. -/
def atSpan (a : Word) : State := State.having { blank with cp := a } [(a.toNat, spanBytes)]

/-- The command lies in the last sixteen bytes of the space. -/
theorem witness_StepRunsTheDecodedCommand :
    (atSpan 0xFFFFFFF0).status = .run ∧ (atSpan 0xFFFFFFF0).cpPastTop = false ∧
    ValidRange (atSpan 0xFFFFFFF0) (atSpan 0xFFFFFFF0).cp.toNat 16 ∧
    decodeBytes ((List.range 16).map fun k => (atSpan 0xFFFFFFF0).readByte ((atSpan 0xFFFFFFF0).cp.toNat + k))
      = .ok (.span 1 0x2000 4) := by delta ValidRange; decide +kernel

theorem witness_StoppedEngineKeepsItsState : ∀ e ∈ [EngineState.idle, .halted, .fault], { blank with status := e }.status ≠ .run := by
  decide +kernel

theorem witness_OnlyItsEncodingDecodesToACommand : ∃ r ∈ opcodeRows, r.opcode = 0x43 := by decide +kernel

theorem witness_WordsThatAreNoCommandAreIllegal :
    let s := State.having blank [(0x8000, [6, 0, 0, 0, 0, 0, 0, 0, 0, 0, 0, 0, 0, 0, 0, 0])]
    s.status = .run ∧ s.cpPastTop = false ∧ ValidRange s s.cp.toNat 16 ∧
      ∀ i, encode i ≠ BitVec.ofNat 128 (s.readLE s.cp.toNat 16) := by
  intro s
  refine ⟨by decide +kernel, by decide +kernel, by delta ValidRange; decide +kernel, fun i h => ?_⟩
  have hw : BitVec.ofNat 128 (s.readLE s.cp.toNat 16) = 6 := by decide +kernel
  have ho := encode_opcode i
  rw [h, hw] at ho
  revert ho
  cases i <;> exact of_decide_eq_false rfl

/-- The four clauses: past the top, `cp` one byte too high, a first missing byte at the last place that fits and at `cp`. -/
theorem witness_UnfetchableCommandsFault :
    ({ blank with cpPastTop := true }.status = .run) ∧ 2 ^ 32 - 16 < ({ blank with cp := 0xFFFFFFF1 }.cp).toNat ∧
    (∀ p ∈ [((0xFFFFFFF0 : Word), 2 ^ 32 - 1, (0xFFFFFFFF : Word)), (0x8000, 0x8000, 0x8000), (0xFFF8, 0x10000, 0x10000)],
      let s := { blank with cp := p.1, memValid := [{ base := 0, size := p.2.1 }] }
      s.status = .run ∧ s.cpPastTop = false ∧ s.cp.toNat ≤ 2 ^ 32 - 16 ∧ s.cp.toNat ≤ p.2.2.toNat ∧
      p.2.2.toNat < s.cp.toNat + 16 ∧ validAddr s.memValid p.2.2.toNat = false ∧
      ∀ j, j < 16 → s.cp.toNat + j < p.2.2.toNat → validAddr s.memValid (s.cp.toNat + j) = true) := by decide +kernel

theorem witness_EveryStepKeepsTheInvariant : Inv (atSpan 0x8000) ∧ steps (atSpan 0x8000) (fun _ => true) = true :=
  ⟨⟨by decide +kernel, by decide +kernel, ⟨by decide +kernel, by decide +kernel, by decide +kernel⟩,
    fun _ => by decide +kernel, fun h => absurd h (by decide +kernel), fun h => absurd h (by decide +kernel)⟩,
    by decide +kernel⟩

theorem witness_EveryCommandKeepsItsFrame : gives (.span 1 0x2000 4) blank (fun t => t.status != .fault) = true ∧
    gives .endList blank (fun t => t.status != .fault) = true := by decide +kernel

theorem witness_OpsReadyOnlyGrows :
    (steps { atSpan 0x8000 with opsReady := 0x02000001 } (fun _ => true) = true ∧
      (0x02000001 : Word).getLsbD 0 = true ∧ (0x02000001 : Word).getLsbD 25 = true) ∧
    gives (.rdci 0) blank (fun _ => true) = true ∧ Instr.spanFields (.rdci 0) = [] := by decide +kernel

theorem witness_ResetsLeaveTheResetState : (2 : Word).getLsbD 1 = true ∧ (3 : Word).getLsbD 1 = true := by decide

/-- A bulk command that sets a bit and writes an element. -/
theorem witness_AbandonedCommandsLeaveOldOrNewBytes :
    steps ((State.having ((blank.setS 0 ⟨0x1000, 1⟩).setS 1 ⟨0x1100, 1⟩) [(0x1000, [0xFF])]).withFetchWord 128
      0x00000000000000000000000000000122) (fun t => t.opsReady == 1 && bytesAt t 0x1100 1 == [0xFF]) = true := by
  decide +kernel

/-- `START` alone in each state, and a write of neither bit; `CP` in RUN and outside it. -/
theorem witness_HostStartsAndPointsTheEngine :
    (1 : Word).getLsbD 0 = true ∧ (1 : Word).getLsbD 1 = false ∧ State.reset.status = .idle ∧
    { blank with status := .halted }.status = .halted ∧ (4 : Word).getLsbD 0 = false ∧ (4 : Word).getLsbD 1 = false ∧
    blank.status = .run ∧ { blank with status := .fault }.status = .fault ∧ State.reset.status ≠ .run := by decide +kernel

theorem witness_MemoryIsLittleEndian : 0xFFFFFFFC + 4 ≤ 2 ^ 32 ∧ 3 < 4 ∧ ¬ InRange 0xFFFFFFFC 4 0xFFFFFFFB ∧
    ¬ InRange 0xFFFFFFFC 4 (2 ^ 32) := by delta InRange; decide

/-- The last pixel of the space in the smallest and the largest format, and an address that is not aligned. -/
theorem witness_LdpLoadsAPixel : Fmt.ofId? 0 = some .a8 ∧ ValidRange blank (0xFFFFFFFF : Word).toNat (Fmt.bytes .a8) ∧
    Fmt.ofId? 25 = some .rgbaf32 ∧ ValidRange blank (0xFFFFFFF0 : Word).toNat (Fmt.bytes .rgbaf32) ∧
    ValidRange blank (0x1001 : Word).toNat (Fmt.bytes .rgbaf32) := by delta ValidRange; decide +kernel

theorem witness_StpStoresAPixel : Fmt.ofId? 25 = some .rgbaf32 ∧ (blank.setP 15 0xAB).preg 15 = .holds 0xAB ∧
    ValidRange (blank.setP 15 0xAB) (0xFFFFFFF0 : Word).toNat (Fmt.bytes .rgbaf32) := by delta ValidRange; decide +kernel

theorem witness_LdvLoadsAVector : ValidRange blank (0 : Word).toNat 16 ∧ ValidRange blank (0xFFFFFFF0 : Word).toNat 16 := by
  delta ValidRange; decide +kernel

theorem witness_StvStoresAVector : (blank.setV 15 v0).vreg 15 = .holds v0 ∧
    ValidRange (blank.setV 15 v0) (0xFFFFFFF0 : Word).toNat 16 := by delta ValidRange; decide +kernel

theorem witness_UnpackGivesTheVector : (∀ f ∈ [(0 : BitVec 8), 25], (Fmt.ofId? f).isSome = true) ∧
    (blank.setP 0 0x80FF0040).preg 0 = .holds 0x80FF0040 := by decide +kernel

theorem witness_PackGivesThePixel : (∀ f ∈ [(0 : BitVec 8), 25], (Fmt.ofId? f).isSome = true) ∧
    (blank.setV 0 v0).vreg 0 = .holds v0 := by decide +kernel

theorem witness_CvtpxConvertsThroughTheScaledVector : Fmt.ofId? 12 = some .bgra5551 ∧ Fmt.ofId? 7 = some .rgba32 ∧
    (blank.setP 0 0xFF0000FF).preg 0 = .holds 0xFF0000FF := by decide +kernel

theorem witness_MkpxBuildsAPixel : Fmt.ofId? 7 = some .rgba32 ∧ Fmt.ofId? 17 = some .rgba64 := by decide +kernel

/-- A text in memory at the bytes of a span. -/
def atText (cs : List Nat) : State :=
  State.having (blank.setS 0 ⟨0x1400, BitVec.ofNat 32 cs.length⟩) [(0x1400, cs)]

/-- The four lengths, with a number sign and without, and the first and last digit of each kind. -/
theorem witness_ParsehexReadsThePixel : ∀ x ∈ [([0x23, 0x30, 0x39, 0x41], 1, [0, 9, 10]), ([0x46, 0x61, 0x66, 0x30], 0, [15, 10, 15, 0]),
      ([0x30, 0x31, 0x32, 0x33, 0x34, 0x35], 0, [0, 1, 2, 3, 4, 5]),
      ([0x23, 0x61, 0x42, 0x63, 0x44, 0x65, 0x46, 0x38, 0x39], 1, [10, 11, 12, 13, 14, 15, 8, 9])],
    let s := atText x.1
    let text : Span := ⟨0x1400, BitVec.ofNat 32 x.1.length⟩
    s.sreg 0 = .holds text ∧ ValidRange s text.base.toNat text.len.toNat ∧ HexText s text x.2.1 x.2.2.length ∧
    HexLength x.2.2.length ∧
    ∀ k (hk : k < x.2.2.length), IsHexDigit (s.readByte (text.base.toNat + x.2.1 + k)) x.2.2[k] := by
  delta ValidRange HexText HexLength IsHexDigit; decide +kernel

/-- Registers `S0..S3` with four spans. -/
def withSpans (a b c d : Span) : State := (((blank.setS 0 a).setS 1 b).setS 2 c).setS 3 d

/-- The destination ends where the source begins, the source ends at the top of the space. -/
theorem witness_Tovec4StoresVectors :
    let s := withSpans ⟨0xFFFFFFE8, 1⟩ ⟨0xFFFFFFF8, 1⟩ ⟨0, 0⟩ ⟨0, 0⟩
    Fmt.ofId? 17 = some .rgba64 ∧ s.sreg 0 = .holds ⟨0xFFFFFFE8, 1⟩ ∧ s.sreg 1 = .holds ⟨0xFFFFFFF8, 1⟩ ∧
    RangesDisjoint 0xFFFFFFE8 (1 * 16) 0xFFFFFFF8 (1 * Fmt.bytes .rgba64) ∧ ValidRange s 0xFFFFFFE8 (1 * 16) ∧
    ValidRange s 0xFFFFFFF8 (1 * Fmt.bytes .rgba64) := by
  delta ValidRange RangesDisjoint; decide +kernel

/-- Two empty spans at one base. -/
theorem witness_Tovec4StoresVectors_empty :
    let s := withSpans ⟨0, 0⟩ ⟨0, 0⟩ ⟨0, 0⟩ ⟨0, 0⟩
    s.sreg 0 = .holds ⟨0, 0⟩ ∧ s.sreg 1 = .holds ⟨0, 0⟩ ∧ RangesDisjoint 0 (0 * 16) 0 (0 * 8) ∧ ValidRange s 0 0 := by
  delta ValidRange RangesDisjoint; decide +kernel

/-- The source lies right below the destination. -/
theorem witness_Fromvec4StoresPixels :
    let s := withSpans ⟨0x1020, 2⟩ ⟨0x1000, 2⟩ ⟨0, 0⟩ ⟨0, 0⟩
    Fmt.ofId? 7 = some .rgba32 ∧ s.sreg 0 = .holds ⟨0x1020, 2⟩ ∧ s.sreg 1 = .holds ⟨0x1000, 2⟩ ∧
    RangesDisjoint 0x1020 (2 * Fmt.bytes .rgba32) 0x1000 (2 * 16) ∧ ValidRange s 0x1020 (2 * Fmt.bytes .rgba32) ∧
    ValidRange s 0x1000 (2 * 16) := by
  delta ValidRange RangesDisjoint; decide +kernel

theorem witness_ConvertStoresPixels :
    let s := withSpans ⟨0x1000, 2⟩ ⟨0x1004, 2⟩ ⟨0, 0⟩ ⟨0, 0⟩
    Fmt.ofId? 11 = some .bgr565 ∧ Fmt.ofId? 25 = some .rgbaf32 ∧ s.sreg 0 = .holds ⟨0x1000, 2⟩ ∧
    s.sreg 1 = .holds ⟨0x1004, 2⟩ ∧ RangesDisjoint 0x1000 (2 * Fmt.bytes .bgr565) 0x1004 (2 * Fmt.bytes .rgbaf32) ∧
    ValidRange s 0x1000 (2 * Fmt.bytes .bgr565) ∧ ValidRange s 0x1004 (2 * Fmt.bytes .rgbaf32) := by
  delta ValidRange RangesDisjoint; decide +kernel

/-- One slack element in the destination, and none; the planes right after the destination and at one base. -/
theorem witness_PackplanesPacksSamples : ∀ n ∈ [(3 : Nat), 2],
    let dst : Span := ⟨0x1000, BitVec.ofNat 32 n⟩
    let plane : Span := ⟨0x1000 + BitVec.ofNat 32 (4 * n), 2⟩
    let s := withSpans dst plane plane plane
    Fmt.ofId? 7 = some .rgba32 ∧ s.sreg 0 = .holds dst ∧ s.sreg 1 = .holds plane ∧ s.sreg 2 = .holds plane ∧
    s.sreg 3 = .holds plane ∧ plane.len.toNat ≤ dst.len.toNat ∧
    (∀ x, x ∈ [plane, plane, plane] → ValidRange s x.base.toNat x.len.toNat ∧
      RangesDisjoint dst.base.toNat (dst.len.toNat * Fmt.bytes .rgba32) x.base.toNat x.len.toNat) ∧
    ValidRange s dst.base.toNat (dst.len.toNat * Fmt.bytes .rgba32) := by
  delta ValidRange RangesDisjoint; decide +kernel

/-- One sample to spare in each plane; the planes side by side below the source. -/
theorem witness_UnpackplanesSplitsPixels :
    let src : Span := ⟨0x1006, 1⟩
    let r : Span := ⟨0x1000, 2⟩
    let g : Span := ⟨0x1002, 2⟩
    let b : Span := ⟨0x1004, 2⟩
    let s := withSpans src r g b
    Fmt.ofId? 5 = some .rgb24 ∧ s.sreg 0 = .holds src ∧ s.sreg 1 = .holds r ∧ s.sreg 2 = .holds g ∧
    s.sreg 3 = .holds b ∧ g.len = r.len ∧ b.len = r.len ∧ src.len.toNat ≤ r.len.toNat ∧
    (∀ x, x ∈ [r, g, b] → ValidRange s x.base.toNat x.len.toNat ∧
      RangesDisjoint x.base.toNat x.len.toNat src.base.toNat (src.len.toNat * Fmt.bytes .rgb24)) ∧
    RangesDisjoint r.base.toNat r.len.toNat g.base.toNat g.len.toNat ∧
    RangesDisjoint r.base.toNat r.len.toNat b.base.toNat b.len.toNat ∧
    RangesDisjoint g.base.toNat g.len.toNat b.base.toNat b.len.toNat ∧
    ValidRange s src.base.toNat (src.len.toNat * Fmt.bytes .rgb24) := by
  delta ValidRange RangesDisjoint; decide +kernel

/-- The last legal mode and operator, the first illegal mode with any operator, the first illegal operator. -/
theorem witness_SetblSelectsTheBlender : (8 : BitVec 4).toNat < 9 ∧ (11 : BitVec 4).toNat < 12 ∧ 9 ≤ (9 : BitVec 4).toNat ∧
    12 ≤ (12 : BitVec 4).toNat := by decide

theorem witness_BlendpxBlendsTwoVectors : (blank.setV 0 v0).vreg 0 = .holds v0 := by decide +kernel

/-- The destination is the backdrop; and the destination lies below a backdrop that is also the source. -/
theorem witness_BlendStoresComposedPixels : ∀ p ∈ [((⟨0x1000, 2⟩ : Span), (⟨0x1008, 2⟩ : Span)), (⟨0x1008, 2⟩, ⟨0x1008, 2⟩)],
    let dst : Span := ⟨0x1000, 2⟩
    let s := withSpans dst p.1 p.2 dst
    Fmt.ofId? 7 = some .rgba32 ∧ s.sreg 0 = .holds dst ∧ s.sreg 1 = .holds p.1 ∧ s.sreg 2 = .holds p.2 ∧
    p.1.len = dst.len ∧ p.2.len = dst.len ∧
    (p.1.base = dst.base ∨ RangesDisjoint dst.base.toNat (dst.len.toNat * Fmt.bytes .rgba32) p.1.base.toNat
      (p.1.len.toNat * Fmt.bytes .rgba32)) ∧
    RangesDisjoint dst.base.toNat (dst.len.toNat * Fmt.bytes .rgba32) p.2.base.toNat (p.2.len.toNat * Fmt.bytes .rgba32) ∧
    ValidRange s dst.base.toNat (dst.len.toNat * Fmt.bytes .rgba32) ∧
    ValidRange s p.1.base.toNat (p.1.len.toNat * Fmt.bytes .rgba32) ∧
    ValidRange s p.2.base.toNat (p.2.len.toNat * Fmt.bytes .rgba32) := by
  delta ValidRange RangesDisjoint; decide +kernel

theorem witness_BlendaStoresComposedPixels : ∀ p ∈ [((⟨0x1000, 2⟩ : Span), (⟨0x1008, 2⟩ : Span)), (⟨0x1008, 2⟩, ⟨0x1008, 2⟩)],
    let dst : Span := ⟨0x1000, 2⟩
    let amt : Span := ⟨0xFF8, 2⟩
    let s := withSpans dst p.1 p.2 amt
    Fmt.ofId? 7 = some .rgba32 ∧ s.sreg 0 = .holds dst ∧ s.sreg 1 = .holds p.1 ∧ s.sreg 2 = .holds p.2 ∧
    s.sreg 3 = .holds amt ∧ p.1.len = dst.len ∧ p.2.len = dst.len ∧ amt.len = dst.len ∧
    (p.1.base = dst.base ∨ RangesDisjoint dst.base.toNat (dst.len.toNat * Fmt.bytes .rgba32) p.1.base.toNat
      (p.1.len.toNat * Fmt.bytes .rgba32)) ∧
    RangesDisjoint dst.base.toNat (dst.len.toNat * Fmt.bytes .rgba32) p.2.base.toNat (p.2.len.toNat * Fmt.bytes .rgba32) ∧
    RangesDisjoint dst.base.toNat (dst.len.toNat * Fmt.bytes .rgba32) amt.base.toNat (amt.len.toNat * 4) ∧
    ValidRange s dst.base.toNat (dst.len.toNat * Fmt.bytes .rgba32) ∧
    ValidRange s p.1.base.toNat (p.1.len.toNat * Fmt.bytes .rgba32) ∧
    ValidRange s p.2.base.toNat (p.2.len.toNat * Fmt.bytes .rgba32) ∧ ValidRange s amt.base.toNat (amt.len.toNat * 4) := by
  delta ValidRange RangesDisjoint; decide +kernel

/-- The backdrop and the source of 95_test_vectors section 6. -/
def bd : Vec4 := ⟨0x3F4CCCCD, 0x3ECCCCCD, 0x3E4CCCCD, 0x3F000000⟩
/-- As `bd`. -/
def sc : Vec4 := ⟨0x3E4CCCCD, 0x3F19999A, 0x3F666666, 0x3F400000⟩

/-- The final alpha of an operator on `bd` and `sc` and the red it gives; none where the operator copies. -/
def mixed (op : CompOp) : Option (F32 × F32) :=
  match policy op bd.w sc.w with
  | .mix w => some (composeAlpha w, composeColour w (composeAlpha w) (modeFn .multiply bd.x sc.x) bd.x sc.x)
  | .copySource => none
  | .copyBackdrop => none
  | .zero => none

/-- Source and backdrop partly opaque, final alphas and colours no NaN; then an operator whose final alpha is zero. -/
theorem witness_MixingOperatorsFollowTheTable :
    F32.isNaN F32.one = false ∧ F32.isNaN sc.w = false ∧ F32.isZero (fmul sc.w (fclamp F32.one F32.zero F32.one)) = false ∧
    (allOps.filterMap mixed).length = 9 ∧
    (allOps.filterMap mixed).all (fun m => !F32.isZero m.1 && !F32.isNaN m.1 && !F32.isNaN m.2) = true ∧
    F32.isZero (fadd (fadd (fmul F32.zero sc.w) F32.zero) F32.zero) = true := by decide +kernel

/-- Opacities +0, -0 and below zero; a source with a finite alpha, with a zero one, with a scaled alpha that is no zero. -/
theorem witness_OpacityIdentitiesHold : CompOp.srcOver ≠ .clear ∧ F32.isFinite sc.w = true ∧
    [F32.zero, F32.negZero, 0x80000001, F32.negOne, 0xFF800000].all (fun a =>
      !F32.isNaN a && (F32.isZero a || F32.lt a F32.zero) && F32.isZero (fmul sc.w (fclamp a F32.zero F32.one))) = true ∧
    F32.isZero F32.negZero = true ∧ F32.isNaN sc.w = false ∧ F32.isNaN F32.half = false ∧
    F32.isZero (fmul sc.w (fclamp F32.half F32.zero F32.one)) = false ∧
    F32.isNaN (fmul sc.w (fclamp F32.half F32.zero F32.one)) = false := by
  decide +kernel

/-- Where the two halves of Overlay meet; operands of `fmin` and `fmax` that are no NaN. -/
theorem witness_BlendFunctionsAreTheListed : F32.isNaN 0x3F000000 = false ∧ F32.order 0x3F000000 ≤ 0x3F000000 ∧
    F32.isNaN 0x3F000001 = false ∧ 0x3F000000 < F32.order 0x3F000001 := by decide +kernel

theorem witness_FmtinfoLoadsTheDescriptor : Fmt.ofId? 0 = some .a8 ∧ Fmt.ofId? 25 = some .rgbaf32 := by decide

/-- Sixteen entries of 255 that fill the pixel exactly. -/
theorem witness_MkinfoBuildsTheDescriptor :
    let s := State.having (blank.setS 0 ⟨0x1500, 16⟩) [(0x1500, (List.replicate 16 [255, 0, 0, 0]).flatten)]
    s.sreg 0 = .holds ⟨0x1500, 16⟩ ∧ ValidRange s 0x1500 (16 * 4) ∧ (∀ i, i < 16 → s.readLE (0x1500 + 4 * i) 4 ≤ 255) ∧
    ((List.range 16).map fun i => s.readLE (0x1500 + 4 * i) 4).sum ≤ (4080 : Word).toNat := by
  delta ValidRange; decide +kernel

/-- No entry, and the largest pixel. -/
theorem witness_MkinfoBuildsTheDescriptor_empty : (blank.setS 0 ⟨0x1500, 0⟩).sreg 0 = .holds ⟨0x1500, 0⟩ ∧
    ValidRange blank 0x1500 0 ∧ (65535 : Word).toNat ≤ 65535 := by
  delta ValidRange; decide +kernel

/-- The last precision of three components, and the first index past it. -/
theorem witness_PxinfoReadsAPrecision :
    let c := Fmt.info .bgr565
    c.ok ∧ (2 : Word).toNat < c.count.toNat ∧ c.count.toNat ≤ (3 : Word).toNat := by
  delta CompInfo.ok; decide +kernel

/-- The last precision of sixteen components, and the first index past it. -/
theorem witness_PxinfoReadsAPrecision_sixteen :
    let c : CompInfo := { count := 16, bpp := 16, padding := 0, prec := Vector.replicate 16 1 }
    c.ok ∧ (15 : Word).toNat < c.count.toNat ∧ c.count.toNat ≤ (16 : Word).toNat := by
  delta CompInfo.ok; decide +kernel

/-- The first illegal id, the largest, the second of two fields, and the first of two illegal ones. -/
theorem witness_IllegalFormatsFault :
    (Instr.formats (.ldp 0 26 0)).find? (fun h => decide (26 ≤ h.1.toNat)) = some (26, false) ∧
    (Instr.formats (.fmtinfo 255)).find? (fun h => decide (26 ≤ h.1.toNat)) = some (255, false) ∧
    (Instr.formats (.cvtpx 0 0 25 26)).find? (fun h => decide (26 ≤ h.1.toNat)) = some (26, true) ∧
    (Instr.formats (.blend 0 0 0 26 255 0)).find? (fun h => decide (26 ≤ h.1.toNat)) = some (26, false) := by decide

/-- Each register file, a second field and two unwritten registers. -/
theorem witness_UnwrittenSourcesFault :
    Instr.wellFormed (.unpack 0 5 7) = true ∧ (Instr.sources (.unpack 0 5 7)).find? blank.isUnwritten = some ⟨0, 5⟩ ∧
    (Instr.sources (.blendpx 0 1 15 0)).find? (blank.setV 1 v0).isUnwritten = some ⟨1, 15⟩ ∧
    (Instr.sources (.tovec4 3 4 25 7)).find? blank.isUnwritten = some ⟨2, 3⟩ := by decide +kernel

/-- A source one element longer, and plane conditions with unequal planes before a destination that is too short. -/
theorem witness_MismatchedLengthsFault :
    let s := withSpans ⟨0x1000, 2⟩ ⟨0x2000, 3⟩ ⟨0x2000, 3⟩ ⟨0x2000, 4⟩
    SourcesReady s (.tovec4 0 1 7 0) ∧ Instr.badLength s (.tovec4 0 1 7 0) = some 3 ∧
    SourcesReady s (.packplanes 0 1 2 3 7) ∧ Instr.badLength s (.packplanes 0 1 2 3 7) = some 4 ∧
    SourcesReady s (.packplanes 0 1 2 1 7) ∧ Instr.badLength s (.packplanes 0 1 2 1 7) = some 2 := by
  delta SourcesReady; decide +kernel

/-- One byte shared at the end of the destination. -/
theorem witness_OverlappingSpansFault :
    let s := withSpans ⟨0x1000, 2⟩ ⟨0x1007, 2⟩ ⟨0, 0⟩ ⟨0, 0⟩
    LengthsReady s (.convert 0 1 7 7) ∧ OverlapAt s (.convert 0 1 7 7) 0 1 ∧
      ∀ c d, OverlapAt s (.convert 0 1 7 7) c d → PairNotAfter 0 1 c d := by
  intro s
  refine ⟨⟨⟨by decide +kernel, by decide +kernel⟩, by decide +kernel, fun _ _ h => nomatch h⟩,
    ⟨⟨0, 4, true⟩, ⟨1, 4, false⟩, rfl, rfl, rfl, by decide, by delta RangesDisjoint; decide +kernel, by decide +kernel⟩, ?_⟩
  rintro c d ⟨u, v, -, -, -, hne, -⟩
  delta PairNotAfter
  omega

/-- A blend in place whose source shares the last byte of the destination: the pair (0, 1) is allowed, (0, 2) is not. -/
theorem witness_OverlappingSpansFault_in_place :
    let s := withSpans ⟨0x1000, 2⟩ ⟨0x1007, 2⟩ ⟨0, 0⟩ ⟨0, 0⟩
    LengthsReady s (.blend 0 0 1 7 7 0) ∧ OverlapAt s (.blend 0 0 1 7 7 0) 0 2 ∧
      ∀ c d, OverlapAt s (.blend 0 0 1 7 7 0) c d → PairNotAfter 0 2 c d := by
  intro s
  refine ⟨⟨⟨by decide +kernel, by decide +kernel⟩, by decide +kernel, fun _ _ h => nomatch h⟩,
    ⟨⟨0, 4, true⟩, ⟨1, 4, false⟩, rfl, rfl, rfl, by decide, by delta RangesDisjoint; decide +kernel, by decide +kernel⟩, ?_⟩
  rintro c d ⟨u, v, hu, hv, -, hne, -, hin⟩
  delta PairNotAfter
  rcases Nat.eq_zero_or_pos c with rfl | hc
  · have : d ≠ 1 := by
      rintro rfl
      cases hu; cases hv
      exact hin ⟨rfl, rfl, rfl, rfl⟩
    omega
  · exact .inl hc

/-- The sixteen bytes pass the top by one, and the last of them is missing. -/
theorem witness_MissingBytesFault :
    LengthsReady blank (.ldv 0 0xFFFFFFF1) ∧ (Instr.accesses blank (.ldv 0 0xFFFFFFF1))[0]? = some (0xFFFFFFF1, 16) ∧
    BadAccess blank (0xFFFFFFF1, 16) 0xFFFFFFF1 ∧
    (Instr.accesses holes (.ldv 0 0xFFF1))[0]? = some (0xFFF1, 16) ∧ BadAccess holes (0xFFF1, 16) 0x10000 := by
  refine ⟨⟨⟨by decide, by decide⟩, by decide, fun _ _ h => nomatch h⟩, rfl, .inl ⟨by decide, rfl⟩, rfl,
    .inr ⟨by decide, by decide, by decide, by decide +kernel, fun a ha hb => ?_⟩⟩
  have hb' : a < 0x10000 := hb
  have ha' : 0xFFF1 ≤ a := ha
  have : a ∈ List.range' 0xFFF1 15 := by rw [List.mem_range'_1]; omega
  revert this
  exact (by decide +kernel : ∀ a ∈ List.range' 0xFFF1 15, validAddr holes.memValid a = true) a

/-- The second of two spans has a missing byte, the first none; the two share no byte. -/
theorem witness_MissingBytesFault_second :
    let s := { withSpans ⟨0x1000, 1⟩ ⟨0x0FFF, 1⟩ ⟨0, 0⟩ ⟨0, 0⟩ with memValid := holes.memValid }
    LengthsReady s (.convert 0 1 7 0) ∧ (∀ a b, ¬ OverlapAt s (.convert 0 1 7 0) a b) ∧
      (Instr.accesses s (.convert 0 1 7 0))[1]? = some (0x0FFF, 1) ∧ BadAccess s (0x0FFF, 1) 0x0FFF ∧
      ValidRange s 0x1000 4 := by
  intro s
  refine ⟨⟨⟨by decide +kernel, by decide +kernel⟩, by decide +kernel, fun _ _ h => nomatch h⟩, ?_, by decide +kernel,
    .inr ⟨by decide, by decide, by decide, by decide +kernel, fun a ha hb => absurd hb (Nat.not_lt_of_ge ha)⟩,
    by delta ValidRange; decide +kernel⟩
  rintro a b ⟨u, v, hu, hv, hw, hne, hd, -⟩
  have ha : a < 2 := (List.getElem?_eq_some_iff.mp hu).1
  have hb : b < 2 := (List.getElem?_eq_some_iff.mp hv).1
  have h0 : a = 0 := by
    rcases Nat.lt_or_ge a 1 with h | h
    · omega
    · obtain rfl : a = 1 := by omega
      cases hu
      cases hw
  obtain rfl : b = 1 := by omega
  subst h0
  cases hu; cases hv
  exact hd (by delta RangesDisjoint; decide +kernel)

/-- Lengths next to the four good ones, with a number sign and without. -/
theorem witness_MalformedTextsFault :
    [([], 0, 0), ([0x23], 1, 0), ([0x31, 0x32], 0, 2), ([0x23, 0x31, 0x31, 0x31, 0x31, 0x31], 1, 5)].Forall
      fun x => HexText (atText x.1) ⟨0x1400, BitVec.ofNat 32 x.1.length⟩ x.2.1 x.2.2 ∧ ¬ HexLength x.2.2 := by
  delta HexText HexLength
  decide +kernel

/-- The characters next to the digits are no digits. -/
theorem witness_MalformedTextsFault_characters :
    ∀ c ∈ [(0x2F : Byte), 0x3A, 0x40, 0x47, 0x60, 0x67, 0x23, 0xFF], ∀ d, ¬ IsHexDigit c d := by
  intro c hc d h
  have hn : c.toNat ∈ [0x2F, 0x3A, 0x40, 0x47, 0x60, 0x67, 0x23, 0xFF] := by
    have := List.mem_map_of_mem (f := BitVec.toNat) hc
    exact this
  simp only [List.mem_cons, List.not_mem_nil, or_false] at hn
  delta IsHexDigit at h
  omega

/-- The first character after the sign is no digit; only the last character is none. -/
theorem witness_MalformedTextsFault_places :
    HexText (atText [0x23, 0x2F, 0x31, 0x31]) ⟨0x1400, 4⟩ 1 3 ∧
    (atText [0x23, 0x2F, 0x31, 0x31]).readByte (0x1400 + 1 + 0) = 0x2F ∧
    HexText (atText [0x31, 0x31, 0x67]) ⟨0x1400, 3⟩ 0 3 ∧ (atText [0x31, 0x31, 0x67]).readByte (0x1400 + 0 + 2) = 0x67 ∧
    (∀ j, j < 2 → IsHexDigit ((atText [0x31, 0x31, 0x67]).readByte (0x1400 + 0 + j)) 1) := by
  delta HexText IsHexDigit; decide +kernel

/-- Seventeen entries; a second entry of 256 after one of 255; a pixel one too large; a pixel one too small. -/
theorem witness_InvalidDescriptorsFault :
    let s := State.having (blank.setS 0 ⟨0x1500, 2⟩) [(0x1500, [255, 0, 0, 0, 0, 1, 0, 0])]
    let ok := State.having (blank.setS 0 ⟨0x1500, 1⟩) [(0x1500, [255, 0, 0, 0])]
    16 < (17 : Word).toNat ∧ s.sreg 0 = .holds ⟨0x1500, 2⟩ ∧ ValidRange s 0x1500 (2 * 4) ∧
    255 < s.readLE (0x1500 + 4 * 1) 4 ∧ (∀ j, j < 1 → s.readLE (0x1500 + 4 * j) 4 ≤ 255) ∧
    (∀ i, i < 1 → ok.readLE (0x1500 + 4 * i) 4 ≤ 255) ∧ 65535 < (65536 : Word).toNat ∧
    (254 : Word).toNat < ((List.range 1).map fun i => ok.readLE (0x1500 + 4 * i) 4).sum := by
  delta ValidRange; decide +kernel

/-- A field of every kind, a signed format and one that is not, numbers that are no NaN. -/
theorem witness_PackedFieldsHoldTheirCodes :
    (∃ fld ∈ Fmt.fields .bgra5551, fld.kind = .unsigned) ∧ (∃ fld ∈ Fmt.fields .la16, fld.kind = .luminance) ∧
    (∃ fld ∈ Fmt.fields .sn16x4, fld.kind = .signed) ∧ (∃ fld ∈ Fmt.fields .h16x1, fld.kind = .half) ∧
    (∃ fld ∈ Fmt.fields .rgbaf32, fld.kind = .float) ∧ (∀ fld ∈ Fmt.fields .sn8x2, fld.kind = .signed) ∧
    (∀ fld ∈ Fmt.fields .la16, fld.kind ≠ .signed) ∧ F32.isNaN 0x7F800000 = false ∧ F32.isNaN F32.zero = false := by decide

/-- The ends of the half range. -/
theorem witness_PackedFieldsHoldTheirCodes_half :
    [(0x477FE000 : F32), 0xC77FE000].all F32.isFinite = true ∧ |F32.value 0x477FE000| ≤ 65504 ∧ |F32.value 0xC77FE000| ≤ 65504 := by
  have h1 : F32.value 0x477FE000 = 65504 := by
    rw [F32.value, (by decide +kernel : F32.signedSignificand 0x477FE000 = 16769024),
      (by decide +kernel : F32.exponent 0x477FE000 = -8)]; norm_num
  have h2 : F32.value 0xC77FE000 = -65504 := by
    rw [F32.value, (by decide +kernel : F32.signedSignificand 0xC77FE000 = -16769024),
      (by decide +kernel : F32.exponent 0xC77FE000 = -8)]; norm_num
  refine ⟨by decide +kernel, ?_, ?_⟩
  · rw [h1]; norm_num
  · rw [h2]; norm_num

/-- A zero, the greatest finite half, an infinity and the two NaNs next to the infinities. -/
theorem witness_UnpackedComponentsReadTheirFields_half :
    halfExponent 0x8000 ≠ 31 ∧ halfExponent 0x7BFF ≠ 31 ∧ (0xFC00 : BitVec 16).toNat % 2 ^ 15 = 0x7C00 ∧
    0x7C00 < (0x7C01 : BitVec 16).toNat % 2 ^ 15 ∧ 0x7C00 < (0xFFFF : BitVec 16).toNat % 2 ^ 15 := by decide +kernel

/-- A field of every kind, formats without a component, a format that is not signed. -/
theorem witness_UnpackedComponentsReadTheirFields :
    (∃ fld ∈ Fmt.fields .la32, fld.kind = .unsigned ∧ fld.channel = .alpha) ∧
    (∃ fld ∈ Fmt.fields .la32, fld.kind = .luminance) ∧ (∃ fld ∈ Fmt.fields .sn8x2, fld.kind = .signed) ∧
    (∃ fld ∈ Fmt.fields .h16x4, fld.kind = .half) ∧ (∃ fld ∈ Fmt.fields .rgbaf32, fld.kind = .float) ∧
    (∀ fld ∈ Fmt.fields .a8, fld.channel ≠ .red ∧ fld.channel ≠ .luma) ∧
    (∀ fld ∈ Fmt.fields .h16x1, fld.channel ≠ .green ∧ fld.channel ≠ .luma) ∧
    (∀ fld ∈ Fmt.fields .sn16x2, fld.channel ≠ .blue ∧ fld.channel ≠ .luma) ∧
    (∀ fld ∈ Fmt.fields .bgr565, fld.channel ≠ .alpha) := by decide

/-- All bits set in unsigned fields, the least signed code there is, the largest finite half, any binary32. -/
theorem witness_UnpackThenPackIsTheIdentity :
    RoundTrips .rgba64 0xFFFFFFFFFFFFFFFF ∧ RoundTrips .la32 0xFFFFFFFF ∧ RoundTrips .sn8x4 0x81817F81 ∧
    RoundTrips .h16x2 0xFBFF7BFF ∧ RoundTrips .rgbaf32 0xFFFFFFFF7F800000800000007FC00000 := by
  delta RoundTrips; decide +kernel

/-- The ends of the ranges, and infinities beyond them. -/
theorem witness_PackedCodesAreLegalAndClamped :
    [F32.one, 0x7F800000].all (fun v => !F32.isNaN v && decide (F32.order F32.one ≤ F32.order v)) = true ∧
    [F32.zero, F32.negZero, 0xFF800000].all (fun v => !F32.isNaN v && decide (F32.order v ≤ 0)) = true ∧
    [F32.negOne, 0xFF800000].all (fun v => !F32.isNaN v && decide (F32.order v ≤ F32.order F32.negOne)) = true ∧
    [halfMax, 0x7F800000].all (fun v => !F32.isNaN v && decide (F32.order halfMax ≤ F32.order v)) = true ∧
    [halfMin, 0xFF800000].all (fun v => !F32.isNaN v && decide (F32.order v ≤ F32.order halfMin)) = true := by
  decide +kernel

/-- The largest finite number, a subnormal, a tie and zero. -/
theorem witness_RoundHazRoundsHalfAway : [0x7F7FFFFF, 0x80000001, 0xBF000000, 0].all F32.isFinite = true := by decide +kernel

/-- A rational as small as the least subnormal, the two sides of the overflow threshold, zeros of both signs. -/
theorem witness_ArithmeticRoundsToNearestEven :
    [(0x7F7FFFFF : F32), 0xFF7FFFFF, 0x73000000, 0x72FFFFFF, 0x80000001, 0x00000000, 0x80000000].all F32.isFinite = true ∧
    F32.isZero 0x80000001 = false ∧ F32.isZero 0x80000000 = true ∧ F32.value 0x00000000 + F32.value 0x80000000 = 0 ∧
    (2 : ℚ) ^ 128 - 2 ^ 103 ≤ F32.value 0x7F7FFFFF + F32.value 0x73000000 ∧
    |F32.value 0x7F7FFFFF + F32.value 0x72FFFFFF| < (2 : ℚ) ^ 128 - 2 ^ 103 ∧
    F32.value 0xFF7FFFFF - F32.value 0x73000000 ≤ -((2 : ℚ) ^ 128 - 2 ^ 103) := by
  have h1 : F32.value 0x7F7FFFFF = 2 ^ 128 - 2 ^ 104 := by
    rw [F32.value, (by decide +kernel : F32.signedSignificand 0x7F7FFFFF = 16777215),
      (by decide +kernel : F32.exponent 0x7F7FFFFF = 104)]; norm_num
  have h2 : F32.value 0xFF7FFFFF = -(2 ^ 128 - 2 ^ 104) := by
    rw [F32.value, (by decide +kernel : F32.signedSignificand 0xFF7FFFFF = -16777215),
      (by decide +kernel : F32.exponent 0xFF7FFFFF = 104)]; norm_num
  have h3 : F32.value 0x73000000 = 2 ^ 103 := by
    rw [F32.value, (by decide +kernel : F32.signedSignificand 0x73000000 = 8388608),
      (by decide +kernel : F32.exponent 0x73000000 = 80)]; norm_num
  have h4 : F32.value 0x72FFFFFF = 2 ^ 103 - 2 ^ 79 := by
    rw [F32.value, (by decide +kernel : F32.signedSignificand 0x72FFFFFF = 16777215),
      (by decide +kernel : F32.exponent 0x72FFFFFF = 79)]; norm_num
  have h5 : F32.value 0x00000000 = 0 := by
    rw [F32.value, (by decide +kernel : F32.signedSignificand 0x00000000 = 0)]; norm_num
  have h6 : F32.value 0x80000000 = 0 := by
    rw [F32.value, (by decide +kernel : F32.signedSignificand 0x80000000 = 0)]; norm_num
  refine ⟨by decide +kernel, by decide +kernel, by decide +kernel, ?_, ?_, ?_, ?_⟩
  · rw [h5, h6]; norm_num
  · rw [h1, h3]; norm_num
  · rw [h1, h4]; norm_num
  · rw [h2, h3]; norm_num

/-- Infinities of both signs, a NaN, zeros, a finite value; the ends of the integers `i2f` is exact on. -/
theorem witness_ArithmeticRoundsToNearestEven_special :
    [(0x7F800000 : F32), 0xFF800000].all F32.isInf = true ∧ F32.isNaN 0xFF800001 = true ∧
    [(0x7F800000 : F32), 0xFF800000, 0, 0x80000000, 0x00000001].all (fun b => !F32.isNaN b) = true ∧
    F32.isInf 0x80000000 = false ∧ |(-65535 : Int)| ≤ 65535 ∧ |(65535 : Int)| ≤ 65535 := by decide +kernel

/-- The two sides of the overflow threshold, and the signs of zeros. -/
theorem test_overflow : fadd 0x7F7FFFFF 0x73000000 = 0x7F800000 ∧ fadd 0x7F7FFFFF 0x72FFFFFF = 0x7F7FFFFF ∧
    fsub 0xFF7FFFFF 0x73000000 = 0xFF800000 ∧ fsub 0x80000000 0 = 0x80000000 ∧ fadd 0x80000000 0 = 0 ∧
    fmul 0x80000001 0x00000001 = 0x80000000 ∧ fdiv 0x3F800000 0x80000000 = 0xFF800000 := by decide +kernel

/-- 40_canonical_model R83: of equal operands the second, also of the two zeros. -/
theorem test_min_max_of_zeros : fmin 0 0x80000000 = 0x80000000 ∧ fmin 0x80000000 0 = 0 ∧ fmax 0 0x80000000 = 0x80000000 ∧
    fmax 0x80000000 0 = 0 := by decide +kernel

/-- The two ends of the unit range, -0 and a subnormal. -/
theorem witness_CompandingKeepsTheUnitRange :
    [F32.zero, F32.negZero, 0x00000001, F32.one].all (fun c => !F32.isNaN c && decide (0 ≤ F32.order c) &&
      decide (F32.order c ≤ F32.order F32.one)) = true := by decide +kernel

/-- Each modifier bit, alone and together; components, products and quotients that are no NaN, with an alpha that is a
zero and one that is not; an invalid product. The colour 0 expands to no NaN, whatever `srgb_expand` is. -/
theorem witness_ModifiersApplyInOrder :
    (2 : BitVec 3).getLsbD 1 = true ∧ (5 : BitVec 3).getLsbD 1 = false ∧ (1 : BitVec 3) &&& 6 = 0 ∧
    (let u := toScaled noDraws .rgba32 0x80FF0040;
      [u.x, u.y, u.z].all (fun c => !F32.isNaN c && !F32.isNaN (fmul c u.w)) = true ∧ F32.isNaN u.w = false) ∧
    F32.isNaN (fmul 0x7F800000 F32.zero) = true ∧ F32.isZero F32.negZero = true ∧ F32.isZero v0.w = false ∧
    [v0.x, v0.y, v0.z].all (fun c => !F32.isNaN c && !F32.isNaN (fdiv c v0.w)) = true ∧
    F32.isNaN (srgbExpand F32.zero) = false := by
  refine ⟨by decide, by decide, by decide, by decide +kernel, by decide +kernel, by decide +kernel, by decide +kernel,
    by decide +kernel, ?_⟩
  have h : ∀ neg, F32.isNaN (F32.signedZero neg) = false := by decide
  have hv : (Config.srgbExpandUnit ⟨0, by decide⟩).val = 0 := congrArg Fin.val (map_bot Config.srgbExpandUnit)
  unfold srgbExpand compand
  rw [if_neg (by decide), dif_pos (by decide)]
  exact (congrArg F32.isNaN (if_pos hv)).trans (h _)

/-- 40_canonical_model R81: an infinity times an alpha of zero is a NaN, whatever the free word. -/
theorem test_premultiply_infinity (u : BitVec 32) : F32.isNaN (alphaComponent fmul F32.zero u 0x7F800000) = true :=
  alphaComponent_invalid fmul u (by decide) (by decide) (by decide)

/-! ## The host beside a run (20_memory R52, R53; 93 G5, G11) -/

/-- A race of some accesses in which every read sees the first `n` of the host's stores. -/
def racing (acts : List HostAct) (n : Nat) (engineLast : Bool) : Race :=
  { acts := acts, fetchSees := fun _ => 0, readSees := fun _ _ _ => n, engineLast := fun _ => engineLast }

/-- A check of what a race leaves and shows. -/
def raceGives (o : Host.Outcome (State × List HostSight) Fault Refusal) (p : State → List HostSight → Bool) : Bool :=
  match o with
  | .next (t, seen) => p t seen
  | .refused _ => false

/-- `STP P0, RGBA32, 0x1100` with 5 in `P0` and 9 at 0x1100. -/
def atStp : State :=
  (State.having (atSpan 0x8000) [(0x8000, [3, 0, 0, 0, 7, 0, 0, 0, 0, 0x11, 0, 0, 0, 0, 0, 0]), (0x1100, [9])]).setP 0 5

/-- A load of a byte that the command stores gives the old byte or the new one; a byte stored by the host too ends with
the host's value or the command's, and the host's own store is seen before. -/
theorem test_race_with_a_store : ∀ late last,
    raceGives (atStp.race (racing [.load 0x1100 late 0, .store 0x1100 1, .load 0x1100 (last && !late) 0, .readReg 4 0] 0 last))
      (fun t seen => t.readByte 0x1100 == (if last && !late then 5 else 1) &&
        seen == [.byte (if late then 5 else 9), .byte (if late || !last then 1 else 5), .word (some 1)]) = true := by
  decide +kernel

/-- `BLEND S1, S1, S2` of one RGBA32 pixel at 0x1100 (Normal, Src, opacity 1) from 0x1200. -/
def atBlend : State :=
  { (((State.having (atSpan 0x8000) [(0x8000, [0x32, 0x11, 0x02, 0, 7, 7, 0, 0, 0, 0, 0x80, 0x3F, 0, 0, 0, 0]),
      (0x1100, [1, 2, 3, 4]), (0x1200, [5, 6, 7, 8])]).setS 1 { base := 0x1100, len := 1 }).setS 2
        { base := 0x1200, len := 1 }) with blender := { mode := .normal, op := .src } }

/-- A whole word the host stores under an in-place `BLEND` is lost, or stays. -/
theorem test_race_loses_a_word : ∀ last,
    raceGives (atBlend.race (racing [.store 0x1100 9, .store 0x1101 9, .store 0x1102 9, .store 0x1103 9] 0 last))
      (fun t _ => t.readLE 0x1100 4 == if last then 0x08070605 else 0x09090909) = true := by decide +kernel

/-- `BLEND S1, S2, S2` (Subtract, SrcOver, opacity 1): the pixel at 0x1200 is backdrop and source at once. -/
def atSubtract : State :=
  { (((State.having (atSpan 0x8000) [(0x8000, [0x32, 0x21, 0x02, 0, 7, 7, 0, 0, 0, 0, 0x80, 0x3F, 0, 0, 0, 0]),
      (0x1200, [0x80, 0, 0, 0xFF])]).setS 1 { base := 0x1100, len := 1 }).setS 2 { base := 0x1200, len := 1 })
    with blender := { mode := .subtract, op := .srcOver } }

/-- One racing byte read twice for one stored byte shows two values: 0xFF - 0x80 for the red, where one value would give
0 (20_memory R52). -/
theorem test_race_sees_two_values :
    raceGives (atSubtract.race { racing [.store 0x1200 0xFF] 0 true with readSees := fun k _ _ => if k = 1 then 1 else 0 })
      (fun t _ => t.readByte 0x1100 == 0x7F) = true ∧
    raceGives (atSubtract.race (racing [.store 0x1200 0xFF] 0 true)) (fun t _ => t.readByte 0x1100 == 0) = true := by
  decide +kernel

/-- `CONVERT S0, S1, L8, A8` of no element. -/
def atConvert : State :=
  ((State.having (atSpan 0x8000) [(0x8000, [0x22, 0x10, 0, 0, 1, 0, 0, 0, 0, 0, 0, 0, 0, 0, 0, 0])]).setS 0
    { base := 0x1100, len := 0 }).setS 1 { base := 0x1200, len := 0 }

/-- A bit of `OPS_READY` that the host has seen set in a race stays set, then and after (10_state R20). -/
theorem test_race_keeps_bits :
    raceGives (atConvert.race (racing [.readReg 0x18 0, .readReg 0x18 2, .readReg 0x18 1, .readReg 0x18 0] 0 true))
      (fun t seen => t.opsReady == 3 && seen == [.word (some 0), .word (some 2), .word (some 3), .word (some 3)]) = true := by
  decide +kernel

/-- The first host address of the map, and one below it where there is one. -/
theorem test_hostOffset : hostOffset Config.hostBase = some 0 ∧
    (0 < Config.hostBase → hostOffset (Config.hostBase - 1) = none) := by
  refine ⟨by simp [hostOffset], fun h => ?_⟩
  unfold hostOffset
  rw [if_neg (by omega)]

end Sys2Proof.Tests
end

section
/-! SUPPORT. What a check of a command can do, said once: it answers a value with a property, or raises a listed fault
(60_exceptions R260, R261). One lemma per check of `Machine/Operands.lean` and of the commands' own. -/

namespace Sys2Proof.Machine

/-- Every value the computation answers has the property, and every fault it raises is one of the list. -/
def Ensures {α : Type} (r : Except FaultRequest α) (Q : α → Prop) : Prop :=
  match r with
  | .ok a => Q a
  | .error e => e.code ≠ .noFault

theorem ensures_pure {α : Type} {Q : α → Prop} {a : α} (h : Q a) : Ensures (pure a) Q := h

theorem ensures_raise {α : Type} {Q : α → Prop} {code : FaultCode} (info : Word) (h : code ≠ .noFault) :
    Ensures (raise code info) Q := h

/-- What a sequence ensures, from what its first part ensures. -/
theorem Ensures.bind {α β : Type} {Q : α → Prop} {R : β → Prop} {r : Except FaultRequest α}
    {f : α → Except FaultRequest β} (h : Ensures r Q) (k : ∀ a, Q a → Ensures (f a) R) : Ensures (r >>= f) R := by
  cases r with
  | ok a => exact k a h
  | error e => exact h

/-- What is ensured may be weakened. -/
theorem Ensures.mono {α : Type} {Q R : α → Prop} {r : Except FaultRequest α} (h : Ensures r Q) (k : ∀ a, Q a → R a) :
    Ensures r R := by
  cases r with
  | ok a => exact k a h
  | error e => exact h

/-! ## Fields and registers (60_exceptions R267, R268, R273) -/

theorem format0_ensures (f : BitVec 8) : Ensures (format0 f) (fun fmt => Fmt.ofId? f = some fmt) := by
  unfold format0
  split
  · assumption
  · exact ensures_raise _ (by decide)

theorem format1_ensures (f : BitVec 8) : Ensures (format1 f) (fun fmt => Fmt.ofId? f = some fmt) := by
  unfold format1
  split
  · assumption
  · exact ensures_raise _ (by decide)

theorem blenderArg_ensures (mode op : BitVec 4) : Ensures (blenderArg mode op)
    (fun b => BlendMode.ofCode? mode = some b.mode ∧ CompOp.ofCode? op = some b.op) := by
  unfold blenderArg
  split
  · exact ensures_raise _ (by decide)
  · next hmode =>
    split
    · exact ensures_raise _ (by decide)
    · next hop => exact ⟨hmode, hop⟩

theorem readP_ensures (s : State) (i : RegIdx) : Ensures (s.readP i) (fun v => s.preg i = .holds v) := by
  unfold State.readP
  split
  · assumption
  · exact ensures_raise _ (by decide)

theorem readV_ensures (s : State) (i : RegIdx) : Ensures (s.readV i) (fun v => s.vreg i = .holds v) := by
  unfold State.readV
  split
  · assumption
  · exact ensures_raise _ (by decide)

theorem readS_ensures (s : State) (i : RegIdx) : Ensures (s.readS i) (fun v => s.sreg i = .holds v) := by
  unfold State.readS
  split
  · assumption
  · exact ensures_raise _ (by decide)

/-! ## Lengths, spans and bytes (60_exceptions R265, R269, R272) -/

theorem sameLength_ensures (sp ref : Span) : Ensures (sameLength sp ref) (fun _ => sp.len = ref.len) := by
  unfold sameLength
  split
  · assumption
  · exact ensures_raise _ (by decide)

theorem notLonger_ensures (short long : Span) (info : Word) :
    Ensures (notLonger short long info) (fun _ => short.len.toNat ≤ long.len.toNat) := by
  unfold notLonger
  split
  · assumption
  · exact ensures_raise _ (by decide)

theorem checkDisjoint_ensures (inPlace : Bool) (us : List SpanUse) :
    Ensures (checkDisjoint inPlace us) (fun _ => firstOverlap inPlace us = none) := by
  unfold checkDisjoint
  split
  · assumption
  · exact ensures_raise _ (by decide)

theorem checkExtent_ensures (s : State) (base : Word) (n : Nat) :
    Ensures (s.checkExtent base n) (fun _ => ValidRange s base.toNat n) := by
  rcases checkExtent_cases s base n with ⟨h, hv⟩ | ⟨-, h⟩ | ⟨-, -, h⟩ <;> rw [h]
  · exact hv
  · exact ensures_raise _ (by decide)
  · exact ensures_raise _ (by decide)

theorem checkSpans_ensures (s : State) (us : List SpanUse) :
    Ensures (s.checkSpans us) (fun _ => ∀ u ∈ us, ValidRange s u.span.base.toNat u.bytes) := by
  induction us with
  | nil => exact ensures_pure (by simp)
  | cons u us ih =>
    exact (checkExtent_ensures s u.span.base u.bytes).bind fun _ hu =>
      ih.mono fun _ hus => List.forall_mem_cons.2 ⟨hu, hus⟩

theorem guardSpans_ensures (s : State) (inPlace : Bool) (us : List SpanUse) :
    Ensures (s.guardSpans inPlace us) (fun _ => ∀ u ∈ us, ValidRange s u.span.base.toNat u.bytes) :=
  (checkDisjoint_ensures inPlace us).bind fun _ _ => checkSpans_ensures s us

/-! ## Texts and descriptors (60_exceptions R270, R271, R275) -/

theorem hexDigits_ensures (i : Nat) (cs : List Byte) : Ensures (hexDigits i cs) (fun ds => ds.length = cs.length) := by
  induction cs generalizing i with
  | nil => exact ensures_pure rfl
  | cons c cs ih =>
    unfold hexDigits
    split
    · exact ensures_raise _ (by decide)
    · exact (ih (i + 1)).bind fun ds hds => ensures_pure (by simp [hds])

/-- Any pixel may be spelled; what counts is that a malformed text raises a listed fault. -/
theorem parseHex_ensures (see : View) (sp : Span) : Ensures (parseHex see sp) (fun _ => True) := by
  unfold parseHex
  extract_lets skip n
  split
  · exact (hexDigits_ensures _ _).bind fun _ _ => ensures_pure (Q := fun _ => True) trivial
  · exact ensures_raise _ (by decide)

theorem checkEntryCount_ensures (len : Word) : Ensures (checkEntryCount len) (fun _ => len.toNat ≤ 16) := by
  unfold checkEntryCount
  split
  · exact ensures_raise _ (by decide)
  · next h => exact Nat.le_of_not_lt h

theorem checkIndex_ensures (c : CompInfo) (idx : Word) :
    Ensures (c.checkIndex idx) (fun _ => idx.toNat < c.count.toNat) := by
  unfold CompInfo.checkIndex
  split
  · exact ensures_raise _ (by decide)
  · next h => exact Nat.lt_of_not_le h

/-- The fetch check refuses a command pointer that has left the space (60_exceptions R264; log 5). -/
theorem checkFetch_ensures (s : State) : Ensures s.checkFetch (fun _ => s.cpPastTop = false) := by
  unfold State.checkFetch
  split
  · exact ensures_raise _ (by decide)
  · next h =>
    split
    · exact ensures_raise _ (by decide)
    · exact Bool.eq_false_iff.2 fun htop => h (.inl htop)

/-- A fetched command lies inside the space (10_state R15; log 5). -/
theorem fetch_ensures (s : State) : Ensures s.fetch (fun _ => s.cpPastTop = false) := by
  unfold State.fetch
  have hfetch := checkFetch_ensures s
  split
  · next h => rwa [h] at hfetch
  · next h =>
    rw [h] at hfetch
    split
    · exact ensures_raise _ (by decide)
    · exact hfetch

end Sys2Proof.Machine
end

section
/-! SUPPORT. The descriptors a command can put in `CI` (10_state R21; 46_control_metadata R241, R242). -/

namespace Sys2Proof.Machine

/-- The descriptor of every format can exist (41_codec_formats R123). -/
theorem fmtInfo_ok (f : Fmt) : (Fmt.info f).ok := by
  unfold CompInfo.ok
  cases f <;> decide

/-- The descriptor after reset can exist (10_state R21). -/
theorem compInfo_empty_ok : CompInfo.empty.ok := by
  unfold CompInfo.ok
  decide

/-- Filling a list up with zeros to `n` entries keeps its sum. -/
theorem sum_ofFn_getD (e : List Nat) (n : Nat) (h : e.length ≤ n) :
    (List.ofFn fun i : Fin n => (e[i.val]?).getD 0).sum = e.sum := by
  induction e generalizing n with
  | nil => simp
  | cons x e ih =>
    cases n with
    | zero => simp at h
    | succ n => simpa [List.ofFn_succ] using ih n (by simpa using h)

/-- The precision slots of a list of bytes hold the list's values, and zeros past its end. -/
theorem infoOf_prec_toNat (e : List Nat) (bpp : Word) (small : ∀ p ∈ e, p ≤ 255) :
    (infoOf e bpp).prec.toList.map BitVec.toNat = List.ofFn fun i : Fin 16 => (e[i.val]?).getD 0 := by
  simp only [infoOf, Vector.toList_ofFn, List.map_ofFn]
  congr 1
  funext i
  have hlt : (e[i.val]?).getD 0 < 2 ^ 8 := by
    cases h : e[i.val]? with
    | none => decide
    | some p => exact Nat.lt_succ_of_le (small p (List.mem_of_getElem? h))
  exact Nat.mod_eq_of_lt hlt

/-- The descriptor of at most sixteen byte entries that fit the pixel can exist (46_control_metadata R242). -/
theorem infoOf_ok {e : List Nat} {bpp : Word} (count : e.length ≤ 16) (small : ∀ p ∈ e, p ≤ 255)
    (fits : bpp.toNat ≤ 65535) (sum : e.sum ≤ bpp.toNat) : (infoOf e bpp).ok := by
  have hcount : (infoOf e bpp).count.toNat = e.length := Nat.mod_eq_of_lt (by omega)
  refine ⟨by omega, fun k hk => ?_, ?_⟩
  · have hnone : e[k.val]? = none := List.getElem?_eq_none (by omega)
    simp [infoOf, hnone]
  · have hpad : (infoOf e bpp).padding.toNat = bpp.toNat - e.sum := Nat.mod_eq_of_lt (by omega)
    have hbpp : (infoOf e bpp).bpp.toNat = bpp.toNat := by
      simp only [infoOf, BitVec.toNat_setWidth]
      omega
    rw [infoOf_prec_toNat e bpp small, sum_ofFn_getD e 16 count, hpad, hbpp]
    omega

/-- `MKINFO` builds only descriptors that can exist (60_exceptions R275). -/
theorem buildInfo_ensures (e : List Nat) (bpp : Word) (count : e.length ≤ 16) :
    Ensures (buildInfo e bpp) CompInfo.ok := by
  unfold buildInfo
  split
  · exact ensures_raise _ (by decide)
  · next hsmall =>
    split
    · exact ensures_raise _ (by decide)
    · next hbpp =>
      have small : ∀ p ∈ e, p ≤ 255 := by simpa [List.findIdx?_eq_none_iff] using hsmall
      exact infoOf_ok count small (by omega) (by omega)

end Sys2Proof.Machine
end

section
/-! SUPPORT. What each command can do to the state, said once for all of them: it halts, or it writes one register, or it
stores to bytes that it may store to and sets bits of `OPS_READY`, and moves on; or it takes a listed fault. -/

namespace Sys2Proof.Machine

/-! ## The bytes a command may store -/

/-- An id that names a format has the format's size. -/
theorem idBytes_of_ofId? {f : BitVec 8} {fmt : Fmt} (h : Fmt.ofId? f = some fmt) : idBytes f = Fmt.bytes fmt := by
  simp [idBytes, h]

theorem spanVal_of_holds {s : State} {r : RegIdx} {sp : Span} (h : s.sreg r = .holds sp) : s.spanVal r = sp := by
  simp [State.spanVal, h]

theorem inRange_mono {a n m x : Nat} (h : InRange a n x) (le : n ≤ m) : InRange a m x :=
  ⟨h.1, Nat.lt_of_lt_of_le h.2 (Nat.add_le_add_left le a)⟩

/-- A command may store to the bytes of a span it writes (20_memory R57). -/
theorem mayStore_span {s : State} {i : Instr} {u : SpanField} {sp : Span} {n x : Nat} (field : u ∈ Instr.spanFields i)
    (written : u.written = true) (reg : s.sreg u.reg = .holds sp) (size : n ≤ sp.len.toNat * u.elem)
    (h : InRange sp.base.toNat n x) : MayStore s i x := by
  refine .inr (.inr (.inl ⟨u, field, written, ?_⟩))
  rw [State.extent, spanVal_of_holds reg]
  exact inRange_mono h size

/-- `FROMVEC4` may store to the bytes of its source span (20_memory R58). -/
theorem mayStore_fromvec4_source {s : State} {d r : RegIdx} {f : BitVec 8} {m : BitVec 3} {sp : Span} {x : Nat}
    (reg : s.sreg r = .holds sp) (h : InRange sp.base.toNat (sp.len.toNat * 16) x) :
    MayStore s (.fromvec4 d r f m) x :=
  .inr (.inr (.inr ⟨d, r, f, m, rfl, by rwa [spanVal_of_holds reg]⟩))

/-! ## What a command leaves -/

/-- `t` is `s` after stores of the command `i` to bytes it may store to and, where `i` is a bulk command, touches of
formats. -/
inductive Stored (s : State) (i : Instr) : State → Prop where
  | start : Stored s i s
  | bytes {t : State} (h : Stored s i t) (a : Nat) (bs : List Byte)
      (may : ∀ x, InRange a bs.length x → MayStore s i x) : Stored s i (t.writeBytes a bs)
  | touch {t : State} (h : Stored s i t) (f : Fmt) (bulk : (Instr.writes i).opsReady = true) : Stored s i (t.touch f)

/-- `t` is what the command `i` can leave of `s` where it takes no fault. -/
inductive Effect (s : State) (i : Instr) : State → Prop where
  | halt (h : Instr.writes i = { status := true }) : Effect s i { s with status := .halted }
  | setP (d : RegIdx) (v : Pixel) (h : Instr.writes i = { p := some d }) : Effect s i (s.setP d v).retire
  | setV (d : RegIdx) (v : Vec4) (h : Instr.writes i = { v := some d }) : Effect s i (s.setV d v).retire
  | setS (d : RegIdx) (v : Span) (h : Instr.writes i = { span := some d }) : Effect s i (s.setS d v).retire
  | setBlender (b : Blender) (h : Instr.writes i = { blender := true }) : Effect s i { s with blender := b }.retire
  | setCi (c : CompInfo) (ok : c.ok) (h : Instr.writes i = { ci := true }) : Effect s i { s with ci := c }.retire
  | store {t : State} (h : Stored s i t) : Effect s i t.retire

/-- Storing no more bytes than a written span has. -/
theorem Stored.span {s t : State} {i : Instr} (h : Stored s i t) {u : SpanField} (field : u ∈ Instr.spanFields i)
    (written : u.written = true) {sp : Span} (reg : s.sreg u.reg = .holds sp) {bs : List Byte}
    (size : bs.length ≤ sp.len.toNat * u.elem) : Stored s i (t.writeBytes sp.base.toNat bs) :=
  h.bytes _ _ fun _ => mayStore_span field written reg size

/-- The elements of a written pixel span, all of them or only the first `n`. -/
theorem Stored.pixels {s t : State} {i : Instr} (h : Stored s i t) {r : RegIdx} {f : BitVec 8} {fmt : Fmt}
    (field : ⟨r, idBytes f, true⟩ ∈ Instr.spanFields i) (format : Fmt.ofId? f = some fmt) {sp : Span}
    (reg : s.sreg r = .holds sp) {n : Nat} (le : n ≤ sp.len.toNat) (p : Nat → Pixel) :
    Stored s i (t.writeBytes sp.base.toNat (elementBytes n fun k => pixelBytes fmt (p k))) := by
  refine h.span field rfl reg ?_
  rw [elementBytes_length _ _ _ fun k => pixelBytes_length fmt (p k), idBytes_of_ofId? format]
  exact Nat.mul_le_mul_right _ le

/-- The samples of a written plane, as many as the source span has pixels (43_bulk R186). -/
theorem Stored.samples {s t : State} {i : Instr} (h : Stored s i t) {r : RegIdx}
    (field : ⟨r, 1, true⟩ ∈ Instr.spanFields i) {sp src : Span} (reg : s.sreg r = .holds sp)
    (le : src.len.toNat ≤ sp.len.toNat) (see : View) (fmt : Fmt) (lo : Nat) :
    Stored s i (t.writeBytes sp.base.toNat (s.planeSamples see src fmt lo)) :=
  h.span field rfl reg (by simpa [State.planeSamples] using le)

/-! ## Every command -/

/-- The outcome is a next state: one with the property, or the one that takes a listed fault in `s`
(60_exceptions R261, R262). -/
def Performs (s : State) (o : Host.Outcome State Fault Refusal) (Q : State → Prop) : Prop :=
  (∃ t, o = .next t ∧ Q t) ∨ ∃ e : FaultRequest, e.code ≠ .noFault ∧ o = .next (s.takeFault e)

theorem complete_performs {s : State} {r : Except FaultRequest State} {Q : State → Prop} (h : Ensures r Q) :
    Performs s (complete s r) Q := by
  cases r with
  | ok t => exact .inl ⟨t, rfl, h⟩
  | error e => exact .inr ⟨e, h, rfl⟩

/-- Every command has its effect or takes a listed fault. -/
theorem exec_performs (i : Instr) (s : State) : Performs s (exec i s) (Effect s i) := by
  cases i with
  | endList => exact complete_performs (ensures_pure (.halt rfl))
  | span sd base len => exact complete_performs (ensures_pure (.setS sd _ rfl))
  | ldp pd f addr =>
    refine complete_performs ((format0_ensures f).bind fun fmt _ => ?_)
    exact (checkExtent_ensures s addr _).bind fun _ _ => ensures_pure (.setP pd _ rfl)
  | stp ps f addr =>
    refine complete_performs ((format0_ensures f).bind fun fmt hfmt => ?_)
    refine (readP_ensures s ps).bind fun p _ => (checkExtent_ensures s addr _).bind fun _ _ => ensures_pure ?_
    refine .store (Stored.start.bytes _ _ fun x hx => .inl ⟨ps, f, addr, rfl, ?_⟩)
    rwa [leBytes_length, ← idBytes_of_ofId? hfmt] at hx
  | ldv vd addr => exact complete_performs ((checkExtent_ensures s addr 16).bind fun _ _ => ensures_pure (.setV vd _ rfl))
  | stv vs addr =>
    refine complete_performs ((readV_ensures s vs).bind fun v _ => ?_)
    refine (checkExtent_ensures s addr 16).bind fun _ _ => ensures_pure ?_
    refine .store (Stored.start.bytes _ _ fun x hx => .inr (.inl ⟨vs, addr, rfl, ?_⟩))
    rwa [vec4_toBytes_length] at hx
  | unpack vd ps f | unpacks vd ps f =>
    exact complete_performs ((format0_ensures f).bind fun _ _ =>
      (readP_ensures s ps).bind fun _ _ => ensures_pure (.setV vd _ rfl))
  | pack pd vs f | packs pd vs f =>
    exact complete_performs ((format0_ensures f).bind fun _ _ =>
      (readV_ensures s vs).bind fun _ _ => ensures_pure (.setP pd _ rfl))
  | cvtpx pd ps fdst fsrc =>
    exact complete_performs ((format0_ensures fdst).bind fun _ _ => (format1_ensures fsrc).bind fun _ _ =>
      (readP_ensures s ps).bind fun _ _ => ensures_pure (.setP pd _ rfl))
  | mkpx pd f rgba => exact complete_performs ((format0_ensures f).bind fun _ _ => ensures_pure (.setP pd _ rfl))
  | parsehex pd stext =>
    refine complete_performs ((readS_ensures s stext).bind fun text _ => ?_)
    exact (checkExtent_ensures s text.base _).bind fun _ _ =>
      (parseHex_ensures _ text).bind fun _ _ => ensures_pure (.setP pd _ rfl)
  | tovec4 sdst ssrc f m =>
    refine complete_performs ((format0_ensures f).bind fun fmt _ => ?_)
    refine (readS_ensures s sdst).bind fun dst hdst => (readS_ensures s ssrc).bind fun src _ => ?_
    refine (sameLength_ensures src dst).bind fun _ _ => (guardSpans_ensures s _ _).bind fun _ _ => ensures_pure ?_
    refine .store ((Stored.start.span (u := ⟨sdst, 16, true⟩) List.mem_cons_self rfl hdst ?_).touch _ rfl)
    rw [elementBytes_length _ 16 _ fun k => vec4_toBytes_length _]
  | fromvec4 sdst ssrc f m =>
    refine complete_performs ((format0_ensures f).bind fun fmt hfmt => ?_)
    refine (readS_ensures s sdst).bind fun dst hdst => (readS_ensures s ssrc).bind fun src hsrc => ?_
    refine (sameLength_ensures src dst).bind fun _ _ => (guardSpans_ensures s _ _).bind fun _ _ => ensures_pure ?_
    refine .store (((Stored.start.pixels List.mem_cons_self hfmt hdst le_rfl _).bytes _ _ fun x hx => ?_).touch _ rfl)
    exact mayStore_fromvec4_source hsrc (by simpa [State.destroyedBytes] using hx)
  | convert sdst ssrc fdst fsrc =>
    refine complete_performs ((format0_ensures fdst).bind fun dfmt hfmt => (format1_ensures fsrc).bind fun sfmt _ => ?_)
    refine (readS_ensures s sdst).bind fun dst hdst => (readS_ensures s ssrc).bind fun src _ => ?_
    refine (sameLength_ensures src dst).bind fun _ _ => (guardSpans_ensures s _ _).bind fun _ _ => ensures_pure ?_
    exact .store (((Stored.start.pixels List.mem_cons_self hfmt hdst le_rfl _).touch _ rfl).touch _ rfl)
  | packplanes sdst sr sg sb f =>
    refine complete_performs ((format0_ensures f).bind fun fmt hfmt => ?_)
    refine (readS_ensures s sdst).bind fun dst hdst => (readS_ensures s sr).bind fun r _ => ?_
    refine (readS_ensures s sg).bind fun g _ => (readS_ensures s sb).bind fun b _ => ?_
    refine (sameLength_ensures g r).bind fun _ _ => (sameLength_ensures b r).bind fun _ _ => ?_
    refine (notLonger_ensures r dst _).bind fun _ hle => (guardSpans_ensures s _ _).bind fun _ _ => ensures_pure ?_
    exact .store ((Stored.start.pixels List.mem_cons_self hfmt hdst hle _).touch _ rfl)
  | unpackplanes ssrc sr sg sb f =>
    refine complete_performs ((format0_ensures f).bind fun fmt _ => ?_)
    refine (readS_ensures s ssrc).bind fun src _ => (readS_ensures s sr).bind fun r hr => ?_
    refine (readS_ensures s sg).bind fun g hg => (readS_ensures s sb).bind fun b hb => ?_
    refine (sameLength_ensures g r).bind fun _ hgr => (sameLength_ensures b r).bind fun _ hbr => ?_
    refine (notLonger_ensures src r _).bind fun _ hle => (guardSpans_ensures s _ _).bind fun _ _ => ensures_pure ?_
    have red := Stored.start.samples (i := .unpackplanes ssrc sr sg sb f) (by simp [Instr.spanFields]) hr hle s.view fmt 0
    have green := red.samples (by simp [Instr.spanFields]) hg (hgr ▸ hle) s.view fmt 8
    have blue := green.samples (by simp [Instr.spanFields]) hb (hbr ▸ hle) s.view fmt 16
    exact .store (blue.touch _ rfl)
  | setbl mode op => exact complete_performs ((blenderArg_ensures mode op).bind fun b _ => ensures_pure (.setBlender b rfl))
  | blendpx vd vb vs amount =>
    exact complete_performs ((readV_ensures s vb).bind fun _ _ =>
      (readV_ensures s vs).bind fun _ _ => ensures_pure (.setV vd _ rfl))
  | blend sdst sbg ssrc fdst fsrc amount =>
    refine complete_performs ((format0_ensures fdst).bind fun dfmt hfmt => (format1_ensures fsrc).bind fun sfmt _ => ?_)
    refine (readS_ensures s sdst).bind fun dst hdst => (readS_ensures s sbg).bind fun bg _ => ?_
    refine (readS_ensures s ssrc).bind fun src _ => (sameLength_ensures bg dst).bind fun _ _ => ?_
    refine (sameLength_ensures src dst).bind fun _ _ => (guardSpans_ensures s _ _).bind fun _ _ => ensures_pure ?_
    exact .store (((Stored.start.pixels List.mem_cons_self hfmt hdst le_rfl _).touch _ rfl).touch _ rfl)
  | blenda sdst sbg ssrc samt fdst fsrc =>
    refine complete_performs ((format0_ensures fdst).bind fun dfmt hfmt => (format1_ensures fsrc).bind fun sfmt _ => ?_)
    refine (readS_ensures s sdst).bind fun dst hdst => (readS_ensures s sbg).bind fun bg _ => ?_
    refine (readS_ensures s ssrc).bind fun src _ => (readS_ensures s samt).bind fun amt _ => ?_
    refine (sameLength_ensures bg dst).bind fun _ _ => (sameLength_ensures src dst).bind fun _ _ => ?_
    refine (sameLength_ensures amt dst).bind fun _ _ => (guardSpans_ensures s _ _).bind fun _ _ => ensures_pure ?_
    exact .store (((Stored.start.pixels List.mem_cons_self hfmt hdst le_rfl _).touch _ rfl).touch _ rfl)
  | fmtinfo f =>
    exact complete_performs ((format0_ensures f).bind fun fmt _ => ensures_pure (.setCi _ (fmtInfo_ok fmt) rfl))
  | mkinfo sprec bpp =>
    refine complete_performs ((readS_ensures s sprec).bind fun sp _ => ?_)
    refine (checkEntryCount_ensures sp.len).bind fun _ hlen => (checkExtent_ensures s sp.base _).bind fun _ _ => ?_
    have hcount : (precEntries s.view sp).length ≤ 16 := by simpa [precEntries] using hlen
    exact (buildInfo_ensures _ bpp hcount).bind fun c hc => ensures_pure (.setCi c hc rfl)
  | pxinfo pd idx => exact complete_performs ((checkIndex_ensures s.ci idx).bind fun _ _ => ensures_pure (.setP pd _ rfl))
  | rdci pd => exact complete_performs (ensures_pure (.setP pd _ rfl))

/-- The ways a command can end, from the state it leaves. -/
theorem exec_cases {i : Instr} {s t : State} (h : exec i s = .next t) :
    Effect s i t ∨ ∃ e : FaultRequest, e.code ≠ .noFault ∧ t = s.takeFault e := by
  rcases exec_performs i s with ⟨u, hu, effect⟩ | ⟨e, code, hu⟩
  · rw [h, Host.Outcome.next.injEq] at hu
    exact .inl (hu ▸ effect)
  · rw [h, Host.Outcome.next.injEq] at hu
    exact .inr ⟨e, code, hu⟩

/-- The ways a step can go: outside RUN nothing changes; in RUN it takes a listed fault, or the command it fetched, which
lies inside the space, has its effect. -/
theorem step_cases {s t : State} (h : step s = .next t) :
    t = s ∨ (∃ e : FaultRequest, e.code ≠ .noFault ∧ t = s.takeFault e) ∨
      (s.status = .run ∧ s.cpPastTop = false ∧ ∃ i, Effect s i t) := by
  unfold step at h
  split at h
  · exact .inl (Host.Outcome.next.inj h).symm
  · exact .inl (Host.Outcome.next.inj h).symm
  · exact .inl (Host.Outcome.next.inj h).symm
  · next hrun =>
    have hfetch := fetch_ensures s
    split at h
    · next e he =>
      rw [he] at hfetch
      exact .inr (.inl ⟨e, hfetch, (Host.Outcome.next.inj h).symm⟩)
    · next i hi =>
      rw [hi] at hfetch
      rcases exec_cases h with effect | fault
      · exact .inr (.inr ⟨hrun, hfetch, i, effect⟩)
      · exact .inr (.inl fault)

end Sys2Proof.Machine
end

section
/-! SUPPORT. The invariant under each way a command writes the state, fault entry among them (10_state R18, R20, R21;
20_memory R40). -/

namespace Sys2Proof.Machine

/-- Setting the bit of a format keeps bits 31:26 of `OPS_READY` zero (10_state R20). -/
theorem touch_opsReady_lt (s : State) (f : Fmt) (h : s.opsReady.toNat < 2 ^ 26) : (s.touch f).opsReady.toNat < 2 ^ 26 := by
  have hbit : (1#32 <<< Fmt.id f).toNat < 2 ^ 26 := by cases f <;> decide
  rw [touch_opsReady, BitVec.toNat_or]
  exact Nat.or_lt_two_pow h hbit

theorem inv_setP {s : State} (h : Inv s) (d : RegIdx) (v : Pixel) : Inv (s.setP d v) :=
  ⟨h.memory, h.opsReady, h.ci, h.noFault, h.fault, h.cpTop⟩

theorem inv_setV {s : State} (h : Inv s) (d : RegIdx) (v : Vec4) : Inv (s.setV d v) :=
  ⟨h.memory, h.opsReady, h.ci, h.noFault, h.fault, h.cpTop⟩

theorem inv_setS {s : State} (h : Inv s) (d : RegIdx) (v : Span) : Inv (s.setS d v) :=
  ⟨h.memory, h.opsReady, h.ci, h.noFault, h.fault, h.cpTop⟩

theorem inv_setBlender {s : State} (h : Inv s) (b : Blender) : Inv { s with blender := b } :=
  ⟨h.memory, h.opsReady, h.ci, h.noFault, h.fault, h.cpTop⟩

theorem inv_setCi {s : State} (h : Inv s) {c : CompInfo} (ok : c.ok) : Inv { s with ci := c } :=
  ⟨h.memory, h.opsReady, ok, h.noFault, h.fault, h.cpTop⟩

theorem inv_writeBytes {s : State} (h : Inv s) (a : Nat) (bs : List Byte) : Inv (s.writeBytes a bs) :=
  ⟨memWriteBytes_wf bs s.mem a h.memory, h.opsReady, h.ci, h.noFault, h.fault, h.cpTop⟩

theorem inv_touch {s : State} (h : Inv s) (f : Fmt) : Inv (s.touch f) :=
  ⟨h.memory, touch_opsReady_lt s f h.opsReady, h.ci, h.noFault, h.fault, h.cpTop⟩

/-- In RUN the engine may move past the last command that fits (10_state R15; log 5). -/
theorem inv_retire {s : State} (h : Inv s) (run : s.status = .run) : Inv s.retire where
  memory := by rw [retire_mem]; exact h.memory
  opsReady := by rw [retire_opsReady]; exact h.opsReady
  ci := by rw [retire_ci]; exact h.ci
  noFault := by simpa using h.noFault
  fault := by simpa using h.fault
  cpTop _ := .inl (by rw [retire_status, run])

/-- Fault entry writes a code of the list with `STATUS` (60_exceptions R262). -/
theorem inv_takeFault {s : State} (h : Inv s) {e : FaultRequest} (code : e.code ≠ .noFault) : Inv (s.takeFault e) where
  memory := h.memory
  opsReady := h.opsReady
  ci := h.ci
  noFault stopped := absurd rfl stopped
  fault _ := code
  cpTop _ := .inr rfl

/-- An engine in RUN halts with no fault taken and `cp` on the `END` (46_control_metadata R240). -/
theorem inv_halt {s : State} (h : Inv s) (run : s.status = .run) (inside : s.cpPastTop = false) :
    Inv { s with status := .halted } where
  memory := h.memory
  opsReady := h.opsReady
  ci := h.ci
  noFault _ := h.noFault (by simp [run])
  fault stopped := nomatch stopped
  cpTop top := absurd (inside.symm.trans top) (by decide)

/-- Stores and touches leave `STATUS` alone. -/
theorem Stored.status_eq {s t : State} {i : Instr} (h : Stored s i t) : t.status = s.status := by
  induction h with
  | start => rfl
  | bytes _ _ _ _ ih => exact ih
  | touch _ _ _ ih => exact ih

theorem Stored.inv {s t : State} {i : Instr} (h : Stored s i t) (hs : Inv s) : Inv t := by
  induction h with
  | start => exact hs
  | bytes _ a bs _ ih => exact inv_writeBytes ih a bs
  | touch _ f _ ih => exact inv_touch ih f

/-- The effect of a command that was fetched inside the space keeps the invariant. -/
theorem Effect.inv {s t : State} {i : Instr} (h : Effect s i t) (hs : Inv s) (run : s.status = .run)
    (inside : s.cpPastTop = false) : Inv t := by
  cases h with
  | halt => exact inv_halt hs run inside
  | setP d v => exact inv_retire (inv_setP hs d v) run
  | setV d v => exact inv_retire (inv_setV hs d v) run
  | setS d v => exact inv_retire (inv_setS hs d v) run
  | setBlender b => exact inv_retire (inv_setBlender hs b) run
  | setCi c ok => exact inv_retire (inv_setCi hs ok) run
  | store stored => exact inv_retire (stored.inv hs) (stored.status_eq.trans run)

/-- Settles O8: a step changes nothing, takes a fault, or has the effect of a command, and each keeps the invariant. -/
theorem everyStepKeepsTheInvariant : Obligations.EveryStepKeepsTheInvariant := by
  intro s t hs h
  rcases step_cases h with rfl | ⟨e, code, rfl⟩ | ⟨run, inside, i, effect⟩
  · exact hs
  · exact inv_takeFault hs code
  · exact effect.inv hs run inside

/-- Settles O9: after reset there is no byte, no bit, no component and no fault. -/
theorem resetMeetsTheInvariant : Obligations.ResetMeetsTheInvariant where
  memory := by decide
  opsReady := by decide
  ci := compInfo_empty_ok
  noFault _ := ⟨rfl, rfl, rfl⟩
  fault stopped := nomatch stopped
  cpTop top := nomatch top

end Sys2Proof.Machine
end

section
/-! SUPPORT. The frame of every command (10_state R13, R16; 70_reset R296), and the bits of `OPS_READY` (10_state R20). -/

namespace Sys2Proof.Machine

/-! ## Frames -/

theorem frame_refl (c : Changes) (p : Nat → Prop) (s : State) : Frame c p s s where
  pregs _ _ := rfl
  vregs _ _ := rfl
  sregs _ _ := rfl
  blender _ := rfl
  opsReady _ := rfl
  ci _ := rfl
  status _ := rfl
  faultCode := rfl
  faultCp := rfl
  faultInfo := rfl
  memValid := rfl
  memory _ _ := rfl

theorem frame_setBlender (s : State) (b : Blender) : Frame { blender := true } noBytes s { s with blender := b } :=
  { frame_refl { blender := true } noBytes s with blender := fun h => nomatch h }

theorem frame_setCi (s : State) (c : CompInfo) : Frame { ci := true } noBytes s { s with ci := c } :=
  { frame_refl { ci := true } noBytes s with ci := fun h => nomatch h }

theorem frame_halt (s : State) : Frame { status := true } noBytes s { s with status := .halted } :=
  { frame_refl { status := true } noBytes s with status := fun h => nomatch h }

/-- A frame that allows no byte of memory is a frame that allows any. -/
theorem frame_anyBytes {c : Changes} {s t : State} (h : Frame c noBytes s t) (p : Nat → Prop) : Frame c p s t :=
  frame_mono h fun _ ha => ha.elim

/-- Stores and touches stay in the frame of their command. -/
theorem Stored.frame {s t : State} {i : Instr} (h : Stored s i t) : Frame (Instr.writes i) (MayStore s i) s t := by
  induction h with
  | start => exact frame_refl _ _ s
  | bytes _ a bs may ih => exact frame_mono (frame_trans ih (frame_writeBytes _ _ a bs)) fun x hx => hx.elim id (may x)
  | touch _ f bulk ih => exact frame_touch bulk ih f

/-- The effect of a command stays in the command's frame. -/
theorem Effect.frame {s t : State} {i : Instr} (h : Effect s i t) : Frame (Instr.writes i) (MayStore s i) s t := by
  cases h with
  | halt h => exact h ▸ frame_anyBytes (frame_halt s) _
  | setP d v h => exact h ▸ frame_retire (frame_anyBytes (frame_setP s d v) _)
  | setV d v h => exact h ▸ frame_retire (frame_anyBytes (frame_setV s d v) _)
  | setS d v h => exact h ▸ frame_retire (frame_anyBytes (frame_setS s d v) _)
  | setBlender b h => exact h ▸ frame_retire (frame_anyBytes (frame_setBlender s b) _)
  | setCi c _ h => exact h ▸ frame_retire (frame_anyBytes (frame_setCi s c) _)
  | store stored => exact frame_retire stored.frame

/-- Settles O11: a command that ends outside FAULT had its effect, which stays in its frame. -/
theorem everyCommandKeepsItsFrame : Obligations.EveryCommandKeepsItsFrame := by
  intro i s t h nofault
  rcases exec_cases h with effect | ⟨e, -, rfl⟩
  · exact effect.frame
  · exact absurd (takeFault_status s e) nofault

/-! ## `OPS_READY` (10_state R20; 43_bulk R181) -/

/-- The commands that may set bits of `OPS_READY` are those that name spans. -/
theorem writes_opsReady_eq_false {i : Instr} (h : Instr.spanFields i = []) : (Instr.writes i).opsReady = false := by
  cases i with
  | tovec4 | fromvec4 | convert | packplanes | unpackplanes | blend | blenda => exact absurd h (List.cons_ne_nil _ _)
  | _ => rfl

/-- A touch keeps the bits that are set (43_bulk R181). -/
theorem Stored.opsReady_mono {s t : State} {i : Instr} (h : Stored s i t) {k : Nat}
    (bit : s.opsReady.getLsbD k = true) : t.opsReady.getLsbD k = true := by
  induction h with
  | start => exact bit
  | bytes _ _ _ _ ih => exact ih
  | touch _ f _ ih => rw [touch_bit, ih, Bool.true_or]

theorem Effect.opsReady_mono {s t : State} {i : Instr} (h : Effect s i t) {k : Nat}
    (bit : s.opsReady.getLsbD k = true) : t.opsReady.getLsbD k = true := by
  cases h with
  | halt => exact bit
  | setP | setV | setS | setBlender | setCi => rwa [retire_opsReady]
  | store stored =>
    rw [retire_opsReady]
    exact stored.opsReady_mono bit

/-- Settles O12: a touch adds a bit and nothing else writes the register; without spans it stands in the frame. -/
theorem opsReadyOnlyGrows : Obligations.OpsReadyOnlyGrows := by
  refine ⟨fun s t k h bit => ?_, fun i s t h nospans => ?_⟩
  · rcases step_cases h with rfl | ⟨e, -, rfl⟩ | ⟨-, -, i, effect⟩
    · exact bit
    · exact bit
    · exact effect.opsReady_mono bit
  · rcases exec_cases h with effect | ⟨e, -, rfl⟩
    · exact effect.frame.opsReady (writes_opsReady_eq_false nospans)
    · rfl

end Sys2Proof.Machine
end

section
/-! SUPPORT. The host's registers: the two it writes and the words it reads (10_state R17 to R24). -/

namespace Sys2Proof.Machine

/-! ## Writes (10_state R24) -/

theorem start_of_stopped {s : State} (h : s.status = .idle ∨ s.status = .halted) :
    s.start = { s with status := .run } := by
  unfold State.start
  rcases h with h | h <;> rw [h]

theorem start_of_run_or_fault {s : State} (h : s.status = .run ∨ s.status = .fault) : s.start = s := by
  unfold State.start
  rcases h with h | h <;> rw [h]

/-- Without `RESET`, `START` is all a write to `CTRL` can do. -/
theorem writeCtrl_of_not_reset {s : State} {v : Word} (h : v.getLsbD 1 = false) :
    s.writeCtrl v = if v.getLsbD 0 then s.start else s := by
  rw [State.writeCtrl, h]
  rfl

theorem writeCp_of_run {s : State} (h : s.status = .run) (v : Word) : s.writeCp v = s := by
  unfold State.writeCp
  rw [h]

theorem writeCp_of_not_run {s : State} (h : s.status ≠ .run) (v : Word) :
    s.writeCp v = { s with cp := v, cpPastTop := false } := by
  unfold State.writeCp
  split
  · contradiction
  · rfl
  · rfl
  · rfl

/-- Settles O15, by the state the engine is in: `START` and `CP` act on a stopped engine alone. -/
theorem hostStartsAndPointsTheEngine : Obligations.HostStartsAndPointsTheEngine := by
  refine fun s v => ⟨rfl, rfl, fun start noreset stopped => ?_, fun noreset idle => ?_, fun run => writeCp_of_run run v,
    fun stopped => writeCp_of_not_run stopped v⟩
  · rw [writeCtrl_of_not_reset noreset, start, if_pos rfl, start_of_stopped stopped]
  · rw [writeCtrl_of_not_reset noreset]
    rcases idle with nostart | busy
    · rw [nostart, if_neg Bool.false_ne_true]
    · rw [start_of_run_or_fault busy, ite_self]

/-! ## Reads (10_state R17 to R21, R23) -/

/-- The number of two fields side by side is the low one plus the high one shifted. -/
theorem toNat_append_eq_add {m n : Nat} (hi : BitVec m) (lo : BitVec n) :
    (hi ++ lo).toNat = lo.toNat + 2 ^ n * hi.toNat := by
  rw [BitVec.toNat_append, ← Nat.shiftLeft_add_eq_or_of_lt lo.isLt, Nat.shiftLeft_eq]
  ring

theorem blender_word_toNat (b : Blender) :
    b.word.toNat = (BlendMode.code b.mode).toNat + 16 * (CompOp.code b.op).toNat := by
  rw [Blender.word, BitVec.toNat_setWidth_of_le (by decide), toNat_append_eq_add]
  rfl

theorem hdrWord_toNat (c : CompInfo) : c.hdrWord.toNat = c.count.toNat + 2 ^ 8 * c.bpp.toNat := by
  rw [CompInfo.hdrWord, BitVec.toNat_setWidth_of_le (by decide), toNat_append_eq_add]

theorem padWord_toNat (c : CompInfo) : c.padWord.toNat = c.padding.toNat :=
  BitVec.toNat_setWidth_of_le (by decide)

/-- Byte `j` of `CI_PREC<k>` is the precision slot `4k + j` (10_state R21). -/
theorem precWord_byte (c : CompInfo) (k j : Fin 4) :
    (c.precWord k.val).extractLsb' (8 * j.val) 8 = c.prec[4 * k.val + j.val] := by
  have hslot : c.slot (4 * k.val + j.val) = c.prec[4 * k.val + j.val] := by
    rw [CompInfo.slot, Vector.getElem?_eq_getElem (by omega), Option.getD_some]
  rw [← hslot, CompInfo.precWord]
  match j with
  | 0 => exact BitVec.extractLsb'_append_eq_right
  | 1 =>
    rw [BitVec.extractLsb'_append_eq_of_le (by decide)]
    exact BitVec.extractLsb'_append_eq_right
  | 2 =>
    rw [BitVec.extractLsb'_append_eq_of_le (by decide), BitVec.extractLsb'_append_eq_of_le (by decide)]
    exact BitVec.extractLsb'_append_eq_right
  | 3 =>
    rw [BitVec.extractLsb'_append_eq_of_le (by decide), BitVec.extractLsb'_append_eq_of_le (by decide)]
    exact BitVec.extractLsb'_append_eq_left

theorem hostRead_ciPrec (s : State) (k : Fin 4) : s.hostRead (0x28 + 4 * k.val) = some (s.ci.precWord k.val) := by
  match k with
  | 0 => rfl
  | 1 => rfl
  | 2 => rfl
  | 3 => rfl

/-- Settles O16: each offset names its register, and the words of several fields hold them side by side. -/
theorem hostReadsTheRegisterMap : Obligations.HostReadsTheRegisterMap := by
  intro s
  refine ⟨rfl, ?_, rfl, ?_, rfl, rfl, rfl, ⟨_, rfl, blender_word_toNat s.blender⟩, ⟨_, rfl, hdrWord_toNat s.ci⟩,
    ⟨_, rfl, padWord_toNat s.ci⟩, fun k => ⟨_, hostRead_ciPrec s k, precWord_byte s.ci k⟩⟩
  · show some s.status.word = _
    cases s.status <;> rfl
  · show some (BitVec.ofNat 32 s.faultCode.number) = _
    cases s.faultCode <;> rfl

end Sys2Proof.Machine
end

section
/-! PROOF. The family 20_memory: the byte order of a read and of a store (20_memory R40, R42). -/

namespace Sys2Proof.Machine

/-- The bytes read at `a`, as a number: byte `k` weighs `256 ^ k` (20_memory R42). -/
theorem leValue_memReadBytes (m : List Host.Cell) (a n : Nat) :
    leValue (memReadBytes m a n) = ((List.range n).map fun k => (memRead m (a + k)).toNat * 256 ^ k).sum := by
  induction n generalizing a with
  | zero => rfl
  | succ n ih =>
    have shift (k : Nat) : (memRead m (a + (k + 1))).toNat * 256 ^ (k + 1) =
        256 * ((memRead m (a + 1 + k)).toNat * 256 ^ k) := by
      rw [Nat.add_right_comm a 1 k, Nat.add_assoc a k 1, Nat.pow_succ', Nat.mul_left_comm]
    simp only [memReadBytes, leValue, ih, List.range_succ_eq_map, List.map_cons, List.map_map, List.sum_cons,
      Function.comp_def, shift, List.sum_map_mul_left, Nat.add_zero, pow_zero, Nat.mul_one, Nat.succ_eq_add_one]

/-- Byte `k` of a stored number stands at `a + k` (20_memory R42). -/
theorem readByte_writeLE_inside (s : State) (a n v k : Nat) (h : k < n) (fits : a + n ≤ 2 ^ 32) :
    (s.writeLE a n v).readByte (a + k) = BitVec.ofNat 8 (v / 256 ^ k) := by
  have hlen : (leBytes n v).length = n := leBytes_length n v
  calc (s.writeLE a n v).readByte (a + k)
      = (leBytes n v)[k]'(hlen.symm ▸ h) := readByte_writeBytes_inside s a _ k _ (hlen.symm ▸ fits)
    _ = BitVec.ofNat 8 (v / 2 ^ (8 * k)) := leBytes_getElem n v k h
    _ = BitVec.ofNat 8 (v / 256 ^ k) := by rw [Nat.pow_mul]

/-- Storing a number of `n` bytes leaves every byte outside them alone (20_memory R42). -/
theorem readByte_writeLE_outside (s : State) (a n v x : Nat) (h : ¬ InRange a n x) :
    (s.writeLE a n v).readByte x = s.readByte x :=
  memRead_writeBytes_outside (leBytes n v) s.mem a x (by rwa [leBytes_length])

/-- Settles O17: a read sums the bytes by their place, a store puts each byte of the number in its place. -/
theorem memoryIsLittleEndian : Obligations.MemoryIsLittleEndian := fun s a n v =>
  ⟨leValue_memReadBytes s.mem a n, fun fits =>
    ⟨fun k h => readByte_writeLE_inside s a n v k h fits, readByte_writeLE_outside s a n v⟩⟩

end Sys2Proof.Machine
end

section
/-! SUPPORT. The rows of the opcode map and the fields of a command: a word is its fields, a row is found by its opcode,
and what a row builds has the fields it uses (30_encoding R61, R67, R68). -/

namespace Sys2Proof

/-! ## A word is its fields (30_encoding R61) -/

/-- The fields cover the word: nothing is lost between them (30_encoding R61). -/
theorem toCommand_ofCommand (c : Command) : (Fields.ofCommand c).toCommand = c := by
  simp only [Fields.toCommand, Fields.ofCommand]
  iterate 13 rw [BitVec.extractLsb'_append_extractLsb'_eq_extractLsb']
  · exact BitVec.extractLsb'_eq_self
  all_goals rfl

theorem toCommand_eq_iff (f : Fields) (c : Command) : f.toCommand = c ↔ Fields.ofCommand c = f where
  mp h := by rw [← h, ofCommand_toCommand]
  mpr h := by rw [← h, toCommand_ofCommand]

theorem ofCommand_inj {c d : Command} : Fields.ofCommand c = Fields.ofCommand d ↔ c = d where
  mp h := by rw [← toCommand_ofCommand c, h, toCommand_ofCommand]
  mpr h := by rw [h]

/-- A word with nothing above its opcode has only that field. -/
theorem ofCommand_setWidth_opcode (o : BitVec 8) : Fields.ofCommand (o.setWidth 128) = { opcode := o } := by
  rw [← toCommand_eq_iff, BitVec.setWidth_eq_append (by decide)]
  simp [Fields.toCommand]

/-! ## Rows of the opcode map (30_encoding R67) -/

/-- No two rows have the same opcode. -/
theorem opcodeRows_nodup : (opcodeRows.map OpcodeRow.opcode).Nodup := by decide

/-- The search by a row's opcode finds that row. -/
theorem find?_opcode {r : OpcodeRow} (hr : r ∈ opcodeRows) :
    opcodeRows.find? (fun x => x.opcode == r.opcode) = some r := by
  cases found : opcodeRows.find? (fun x => x.opcode == r.opcode) with
  | none => exact absurd (beq_self_eq_true _) (List.find?_eq_none.1 found r hr)
  | some x =>
    have same : x.opcode = r.opcode := by simpa using List.find?_some found
    rw [List.inj_on_of_nodup_map opcodeRows_nodup (List.mem_of_find?_eq_some found) hr same]

/-- A used field as it is, an unused one zero. -/
def keepIf {w : Nat} (used : Bool) (x : BitVec w) : BitVec w := if used then x else 0

theorem keepIf_eq_self_iff {w : Nat} (used : Bool) (x : BitVec w) : keepIf used x = x ↔ (used || x == 0) = true := by
  cases used
  · simp [keepIf, eq_comm (a := (0#w))]
  · simp [keepIf]

/-- The fields of a command without those its opcode does not use (30_encoding R68). -/
def Uses.restrict (u : Uses) (f : Fields) : Fields where
  opcode := f.opcode
  ra := keepIf u.ra f.ra
  rb := keepIf u.rb f.rb
  rc := keepIf u.rc f.rc
  rd := keepIf u.rd f.rd
  mods := keepIf u.mods f.mods
  fmt0 := keepIf u.fmt0 f.fmt0
  fmt1 := keepIf u.fmt1 f.fmt1
  mode := keepIf u.mode f.mode
  op := keepIf u.op f.op
  imm0 := keepIf u.imm0 f.imm0
  imm1 := keepIf u.imm1 f.imm1

/-- The unused fields are zero exactly when dropping them changes nothing (30_encoding R68). -/
theorem admits_iff_restrict (u : Uses) (f : Fields) : u.admits f = true ↔ u.restrict f = f := by
  obtain ⟨opcode, ra, rb, rc, rd, mods, z0, fmt0, fmt1, mode, op, z1, imm0, imm1⟩ := f
  simp only [Uses.admits, Uses.restrict, Fields.mk.injEq, keepIf_eq_self_iff, Bool.and_eq_true, beq_iff_eq]
  tauto

/-- The command a row builds keeps every field the row uses, has the row's opcode, and nothing else. -/
theorem fields_build : ∀ r ∈ opcodeRows, ∀ f : Fields,
    Instr.fields (r.build f) = { r.uses.restrict f with opcode := r.opcode } := by
  simp only [opcodeRows, scalarRows, bulkRows, List.cons_append, List.nil_append, List.forall_mem_cons,
    List.not_mem_nil, IsEmpty.forall_iff, implies_true, and_true]
  split_ands <;> exact fun _ => rfl

/-- From fields a row admits, the row builds the command with those fields (30_encoding R68). -/
theorem fields_build_of_admits {r : OpcodeRow} (hr : r ∈ opcodeRows) {f : Fields} (opcode : r.opcode = f.opcode)
    (admits : r.uses.admits f = true) : Instr.fields (r.build f) = f := by
  rw [fields_build r hr, (admits_iff_restrict r.uses f).1 admits, opcode]

/-- The row of a command's opcode admits its fields and builds it from them (30_encoding R67, R68). -/
theorem row_buildsBack : (i : Instr) → Laws.RowBuildsBack.Statement i
  | .endList => Laws.RowBuildsBack.endList
  | .span .. => Laws.RowBuildsBack.span ..
  | .ldp .. => Laws.RowBuildsBack.ldp ..
  | .stp .. => Laws.RowBuildsBack.stp ..
  | .ldv .. => Laws.RowBuildsBack.ldv ..
  | .stv .. => Laws.RowBuildsBack.stv ..
  | .unpack .. => Laws.RowBuildsBack.unpack ..
  | .unpacks .. => Laws.RowBuildsBack.unpacks ..
  | .pack .. => Laws.RowBuildsBack.pack ..
  | .packs .. => Laws.RowBuildsBack.packs ..
  | .cvtpx .. => Laws.RowBuildsBack.cvtpx ..
  | .mkpx .. => Laws.RowBuildsBack.mkpx ..
  | .parsehex .. => Laws.RowBuildsBack.parsehex ..
  | .tovec4 .. => Laws.RowBuildsBack.tovec4 ..
  | .fromvec4 .. => Laws.RowBuildsBack.fromvec4 ..
  | .convert .. => Laws.RowBuildsBack.convert ..
  | .packplanes .. => Laws.RowBuildsBack.packplanes ..
  | .unpackplanes .. => Laws.RowBuildsBack.unpackplanes ..
  | .setbl .. => Laws.RowBuildsBack.setbl ..
  | .blendpx .. => Laws.RowBuildsBack.blendpx ..
  | .blend .. => Laws.RowBuildsBack.blend ..
  | .blenda .. => Laws.RowBuildsBack.blenda ..
  | .fmtinfo .. => Laws.RowBuildsBack.fmtinfo ..
  | .mkinfo .. => Laws.RowBuildsBack.mkinfo ..
  | .pxinfo .. => Laws.RowBuildsBack.pxinfo ..
  | .rdci .. => Laws.RowBuildsBack.rdci ..

/-! ## The mask of a row (30_encoding R68) -/

/-- The part of a row's mask over one field. -/
def maskBits (used : Bool) (w : Nat) : BitVec w := if used then 0 else BitVec.allOnes w

theorem and_maskBits_eq_zero_iff {w : Nat} (used : Bool) (x : BitVec w) :
    x &&& maskBits used w = 0 ↔ (used || x == 0) = true := by
  cases used <;> simp [maskBits]

/-- The fields of a row's mask. -/
theorem ofCommand_mask (u : Uses) : Fields.ofCommand u.mask =
    { opcode := BitVec.allOnes 8, z0 := BitVec.allOnes 5, z1 := BitVec.allOnes 8,
      ra := maskBits u.ra 4, rb := maskBits u.rb 4, rc := maskBits u.rc 4, rd := maskBits u.rd 4,
      mods := maskBits u.mods 3, fmt0 := maskBits u.fmt0 8, fmt1 := maskBits u.fmt1 8, mode := maskBits u.mode 4,
      op := maskBits u.op 4, imm0 := maskBits u.imm0 32, imm1 := maskBits u.imm1 32 } :=
  ofCommand_toCommand _

/-- The fields of two words' conjunction. -/
theorem ofCommand_and (c d : Command) : Fields.ofCommand (c &&& d) =
    let f := Fields.ofCommand c
    let g := Fields.ofCommand d
    { opcode := f.opcode &&& g.opcode, ra := f.ra &&& g.ra, rb := f.rb &&& g.rb, rc := f.rc &&& g.rc,
      rd := f.rd &&& g.rd, mods := f.mods &&& g.mods, z0 := f.z0 &&& g.z0, fmt0 := f.fmt0 &&& g.fmt0,
      fmt1 := f.fmt1 &&& g.fmt1, mode := f.mode &&& g.mode, op := f.op &&& g.op, z1 := f.z1 &&& g.z1,
      imm0 := f.imm0 &&& g.imm0, imm1 := f.imm1 &&& g.imm1 } := by
  simp only [Fields.ofCommand, BitVec.extractLsb'_and]

/-- The mask/match test of a row looks at the opcode and at the unused fields, no more and no less (30_encoding R68). -/
theorem and_mask_eq_opcode_iff (u : Uses) (o : BitVec 8) (c : Command) :
    c &&& u.mask = o.setWidth 128 ↔ o = (Fields.ofCommand c).opcode ∧ u.admits (Fields.ofCommand c) = true := by
  rw [← ofCommand_inj, ofCommand_and, ofCommand_mask, ofCommand_setWidth_opcode]
  simp only [Fields.mk.injEq, Uses.admits, and_maskBits_eq_zero_iff, BitVec.and_allOnes, Bool.and_eq_true, beq_iff_eq,
    @eq_comm _ o]
  tauto

end Sys2Proof
end

section
/-! PROOF. The family 30_encoding: decoding undoes encoding and nothing else decodes, and a step in RUN is the decoded
command (30_encoding R60 to R69; 20_memory R50, R56). -/

namespace Sys2Proof

/-! ## Decoding by the row (30_encoding R67, R68) -/

/-- A word with a row's opcode decodes to what the row builds, if the row admits its fields (30_encoding R67, R68). -/
theorem decode_of_row {r : OpcodeRow} (hr : r ∈ opcodeRows) {c : Command}
    (opcode : r.opcode = (Fields.ofCommand c).opcode) :
    decode c = if r.uses.admits (Fields.ofCommand c) then .ok (r.build (Fields.ofCommand c))
      else .error (.nonzeroField (commandW0 c)) := by
  have found := find?_opcode hr
  rw [opcode] at found
  simp only [decode, found]

/-- What a word that decodes comes from: the row of its opcode admits its fields and builds the command from them. -/
theorem decode_eq_ok_iff (c : Command) (i : Instr) : decode c = .ok i ↔
    ∃ r ∈ opcodeRows, r.opcode = (Fields.ofCommand c).opcode ∧ r.uses.admits (Fields.ofCommand c) = true ∧
      r.build (Fields.ofCommand c) = i := by
  constructor
  · intro h
    cases found : opcodeRows.find? (fun r => r.opcode == (Fields.ofCommand c).opcode) with
    | none => simp [decode, found] at h
    | some r =>
      have hr := List.mem_of_find?_eq_some found
      have opcode : r.opcode = (Fields.ofCommand c).opcode := by simpa using List.find?_some found
      rw [decode_of_row hr opcode] at h
      split at h
      · next admits => exact ⟨r, hr, opcode, admits, Except.ok.inj h⟩
      · nomatch h
  · rintro ⟨r, hr, opcode, admits, rfl⟩
    rw [decode_of_row hr opcode, if_pos admits]

/-- The decoder reads a command back from its word (30_encoding R67). -/
theorem decode_encode (i : Instr) : decode (encode i) = .ok i := by
  obtain ⟨r, found, admits, built⟩ := row_buildsBack i
  have fields : Fields.ofCommand (encode i) = Instr.fields i := ofCommand_toCommand _
  refine (decode_eq_ok_iff _ _).2 ⟨r, List.mem_of_find?_eq_some found, ?_, ?_, ?_⟩
  · simpa [fields] using List.find?_some found
  · rwa [fields]
  · rwa [fields]

/-- The bytes of a command are read as its word (20_memory R42). -/
theorem decodeBytes_encodeBytes (i : Instr) : decodeBytes (encodeBytes i) = decode (encode i) := by
  rw [decodeBytes, encodeBytes, Machine.leValue_leBytes, Nat.mod_eq_of_lt (encode i).isLt, BitVec.ofNat_toNat,
    BitVec.setWidth_eq]

/-- Settles O3: the row of the command's opcode builds it back, and the little-endian bytes carry the whole word. -/
theorem decodeReadsBackTheEncoding : Obligations.DecodeReadsBackTheEncoding := fun i =>
  ⟨decode_encode i, (decodeBytes_encodeBytes i).trans (decode_encode i), Machine.leBytes_length 16 _⟩

/-- No bit of a word that decodes is read loosely: the word is the encoding (30_encoding R68). -/
theorem encode_of_decode {c : Command} {i : Instr} (h : decode c = .ok i) : encode i = c := by
  obtain ⟨r, hr, opcode, admits, rfl⟩ := (decode_eq_ok_iff c i).1 h
  rw [encode, toCommand_eq_iff, fields_build_of_admits hr opcode admits]

theorem decode_eq_ok_iff_encode (c : Command) (i : Instr) : decode c = .ok i ↔ encode i = c where
  mp := encode_of_decode
  mpr h := h ▸ decode_encode i

/-- A word decodes to a command of a row exactly when it has the row's opcode and the row admits its fields. -/
theorem decodes_to_row_iff {r : OpcodeRow} (hr : r ∈ opcodeRows) (c : Command) :
    (∃ i, decode c = .ok i ∧ (Instr.fields i).opcode = r.opcode) ↔
      r.opcode = (Fields.ofCommand c).opcode ∧ r.uses.admits (Fields.ofCommand c) = true := by
  constructor
  · rintro ⟨i, decoded, opcode⟩
    obtain ⟨x, hx, sameOpcode, admits, rfl⟩ := (decode_eq_ok_iff c i).1 decoded
    rw [fields_build_of_admits hx sameOpcode admits] at opcode
    have same := List.inj_on_of_nodup_map opcodeRows_nodup hx hr (sameOpcode.trans opcode)
    exact ⟨opcode.symm, same ▸ admits⟩
  · rintro ⟨opcode, admits⟩
    refine ⟨r.build (Fields.ofCommand c), (decode_eq_ok_iff c _).2 ⟨r, hr, opcode, admits, rfl⟩, ?_⟩
    rw [fields_build_of_admits hr opcode admits, opcode]

/-- Settles O4: the decoder reads every bit of the word, and the mask/match test of a row asks what the decoder asks. -/
theorem onlyItsEncodingDecodesToACommand : Obligations.OnlyItsEncodingDecodesToACommand :=
  ⟨decode_eq_ok_iff_encode, fun c r hr =>
    (and_mask_eq_opcode_iff r.uses r.opcode c).trans (decodes_to_row_iff hr c).symm⟩

/-- Settles O5: each word is the encoding of its command. -/
theorem workedEncodingsDecode : Obligations.WorkedEncodingsDecode := by
  unfold Obligations.WorkedEncodingsDecode
  simp only [decode_eq_ok_iff_encode]
  decide

namespace Machine

/-! ## Fetching (30_encoding R60, R73) -/

/-- The bytes read at `a`, as a list over their offsets. -/
theorem memReadBytes_eq_map (m : List Host.Cell) (a n : Nat) :
    memReadBytes m a n = (List.range n).map fun k => memRead m (a + k) :=
  List.ext_getElem (by simp) fun k hk _ => by
    rw [memReadBytes_getElem m a n k (by simpa using hk), List.getElem_map, List.getElem_range]

/-- The word fetched is the sixteen bytes at `cp`, lowest address first (30_encoding R60). -/
theorem decode_fetchWord (s : State) :
    decode s.fetchWord = decodeBytes ((List.range 16).map fun k => s.readByte (s.cp.toNat + k)) := by
  rw [State.fetchWord, State.readLE, memReadBytes_eq_map]
  rfl

/-- The fetch check passes exactly inside the space, on sixteen bytes that exist (60_exceptions R264). -/
theorem checkFetch_ok_iff (s : State) :
    s.checkFetch = .ok () ↔ s.cpPastTop = false ∧ ValidRange s s.cp.toNat 16 := by
  unfold State.checkFetch ValidRange raise
  rw [← firstInvalid_ge_iff]
  split
  · next h => exact iff_of_false nofun fun ⟨inside, fits, _⟩ => h.elim (by simp [inside]) (by omega)
  · next h =>
    obtain ⟨inside, fits⟩ := not_or.1 h
    split
    · simp; omega
    · simp_all

/-- A fetch that passes its check answers what the word decodes to (30_encoding R73). -/
theorem fetch_of_decode {s : State} {i : Instr} (check : s.checkFetch = .ok ()) (h : decode s.fetchWord = .ok i) :
    s.fetch = .ok i := by
  simp only [State.fetch, check, h]

/-- In RUN, a step is the fetched command (20_memory R50). -/
theorem step_of_fetch {s : State} {i : Instr} (run : s.status = .run) (h : s.fetch = .ok i) : step s = exec i s := by
  simp only [step, run, h]

/-- Settles O1: the fetch check passes, and the word fetched is those sixteen bytes. -/
theorem stepRunsTheDecodedCommand : Obligations.StepRunsTheDecodedCommand := fun s _ run inside range h =>
  step_of_fetch run (fetch_of_decode ((checkFetch_ok_iff s).2 ⟨inside, range⟩) ((decode_fetchWord s).trans h))

end Machine

end Sys2Proof
end

section
/-! SUPPORT. The patterns of a binary floating format as numbers: the mantissa and the binade of a magnitude, its value,
and that the values rise with the magnitudes (40_canonical_model R80). Then the same of binary32: its sign, magnitude,
value and order. -/

namespace Sys2Proof.Machine

/-! ## Magnitudes of a format with `f` fraction bits whose least subnormal is `2 ^ emin` -/

/-- The weight of the last bit in binade `j`; binade 0 holds the subnormals too. -/
def quantum (emin : Int) (j : Nat) : ℚ := (2 : ℚ) ^ (emin + j)

/-- The binade of a magnitude, counted from that of the subnormals. -/
def binade (f t : Nat) : Nat := t / 2 ^ f - 1

/-- The integer significand of a magnitude. -/
def mantissa (f t : Nat) : Nat := t - binade f t * 2 ^ f

/-- The value of a magnitude, were there no infinity. -/
def magnitudeValue (f : Nat) (emin : Int) (t : Nat) : ℚ := mantissa f t * quantum emin (binade f t)

theorem quantum_pos (emin : Int) (j : Nat) : 0 < quantum emin j := zpow_pos (by norm_num) _

theorem quantum_succ (emin : Int) (j : Nat) : quantum emin (j + 1) = 2 * quantum emin j := by
  rw [quantum, Nat.cast_succ, ← add_assoc, zpow_add_one₀ two_ne_zero, mul_comm, quantum]

theorem quantum_add (emin : Int) (j i : Nat) : quantum emin (j + i) = 2 ^ i * quantum emin j := by
  rw [quantum, quantum, Nat.cast_add, ← add_assoc, zpow_add₀ two_ne_zero, zpow_natCast, mul_comm]

theorem quantum_mono (emin : Int) {i j : Nat} (h : i ≤ j) : quantum emin i ≤ quantum emin j :=
  zpow_le_zpow_right₀ (by norm_num) (by omega)

/-- Below binade `j` a quantum is at most half of that of `j`. -/
theorem two_mul_quantum_le (emin : Int) {i j : Nat} (h : i < j) : 2 * quantum emin i ≤ quantum emin j :=
  (quantum_succ emin i).symm.trans_le (quantum_mono emin h)

/-- A magnitude is its binade and its mantissa. -/
theorem binade_mul_add_mantissa (f t : Nat) : binade f t * 2 ^ f + mantissa f t = t :=
  Nat.add_sub_cancel' ((Nat.mul_le_mul_right _ (Nat.sub_le _ _)).trans (Nat.div_mul_le_self t (2 ^ f)))

theorem mantissa_lt (f t : Nat) : mantissa f t < 2 ^ (f + 1) := by
  have split := binade_mul_add_mantissa f t
  have top : t < (binade f t + 2) * 2 ^ f :=
    (Nat.div_lt_iff_lt_mul (Nat.two_pow_pos f)).1 (by unfold binade; omega)
  rw [Nat.add_mul] at top
  rw [Nat.pow_succ]
  omega

/-- Outside the binade of the subnormals a mantissa has its leading bit. -/
theorem le_mantissa {f t : Nat} (h : binade f t ≠ 0) : 2 ^ f ≤ mantissa f t := by
  have split := binade_mul_add_mantissa f t
  have low : (binade f t + 1) * 2 ^ f ≤ t :=
    (Nat.le_div_iff_mul_le (Nat.two_pow_pos f)).1 (by unfold binade at h ⊢; omega)
  rw [Nat.add_mul] at low
  omega

/-- The value of binade `j` and significand `n`; a significand of `2 ^ (f + 1)` carries into the next binade. -/
theorem magnitudeValue_add {f j n : Nat} (emin : Int) (top : n ≤ 2 ^ (f + 1)) (normal : j = 0 ∨ 2 ^ f ≤ n) :
    magnitudeValue f emin (j * 2 ^ f + n) = n * quantum emin j := by
  have pos := Nat.two_pow_pos f
  have quotient : (j * 2 ^ f + n) / 2 ^ f = j + n / 2 ^ f := by
    rw [Nat.add_comm, Nat.add_mul_div_right _ _ pos, Nat.add_comm]
  rcases top.eq_or_lt with rfl | lt
  · have hb : binade f (j * 2 ^ f + 2 ^ (f + 1)) = j + 1 := by
      rw [binade, quotient, Nat.pow_succ', Nat.mul_div_cancel _ pos]; rfl
    have hm : mantissa f (j * 2 ^ f + 2 ^ (f + 1)) = 2 ^ f := by
      rw [mantissa, hb, Nat.add_mul, Nat.pow_succ]; omega
    rw [magnitudeValue, hb, hm, quantum_succ, pow_succ]
    push_cast
    ring
  · have hq : n / 2 ^ f ≤ 1 := Nat.le_of_lt_succ ((Nat.div_lt_iff_lt_mul pos).2 (by rwa [Nat.pow_succ'] at lt))
    have hb : binade f (j * 2 ^ f + n) = j := by
      rw [binade, quotient]
      rcases normal with rfl | le
      · omega
      · have := (Nat.one_le_div_iff pos).2 le
        omega
    rw [magnitudeValue, mantissa, hb, Nat.add_sub_cancel_left]

/-- The values rise with the magnitudes: one more is one quantum more. -/
theorem magnitudeValue_strictMono (f : Nat) (emin : Int) : StrictMono (magnitudeValue f emin) := by
  refine strictMono_nat_of_lt_succ fun t => ?_
  have normal : binade f t = 0 ∨ 2 ^ f ≤ mantissa f t + 1 :=
    (eq_or_ne (binade f t) 0).imp_right fun h => (le_mantissa h).trans (Nat.le_succ _)
  calc magnitudeValue f emin t
      < (mantissa f t + 1 : Nat) * quantum emin (binade f t) := by
        have := quantum_pos emin (binade f t)
        rw [magnitudeValue]; push_cast; linarith
    _ = magnitudeValue f emin (binade f t * 2 ^ f + (mantissa f t + 1)) :=
        (magnitudeValue_add emin (mantissa_lt f t) normal).symm
    _ = magnitudeValue f emin (t + 1) := by rw [← Nat.add_assoc, binade_mul_add_mantissa]

@[simp] theorem magnitudeValue_zero (f : Nat) (emin : Int) : magnitudeValue f emin 0 = 0 := by
  simp [magnitudeValue, mantissa]

theorem magnitudeValue_nonneg (f : Nat) (emin : Int) (t : Nat) : 0 ≤ magnitudeValue f emin t :=
  mul_nonneg (Nat.cast_nonneg _) (quantum_pos emin _).le

/-! ## Binary32: sign and magnitude -/

/-- A sign as a factor. -/
def signFactor (neg : Bool) : ℚ := if neg then -1 else 1

@[simp] theorem signFactor_false : signFactor false = 1 := rfl
@[simp] theorem signFactor_true : signFactor true = -1 := rfl
@[simp] theorem signFactor_not (neg : Bool) : signFactor (!neg) = -signFactor neg := by cases neg <;> simp
theorem signFactor_xor (a b : Bool) : signFactor (a != b) = signFactor a * signFactor b := by
  cases a <;> cases b <;> simp
@[simp] theorem signFactor_mul_self (neg : Bool) : signFactor neg * signFactor neg = 1 := by cases neg <;> simp
@[simp] theorem abs_signFactor (neg : Bool) : |signFactor neg| = 1 := by cases neg <;> simp

theorem F32.sign_eq (x : F32) : F32.sign x = decide (2 ^ 31 ≤ x.toNat) := by
  exact (BitVec.msb_eq_decide x)

theorem F32.toNat_ofMagnitude (neg : Bool) (t : Nat) :
    (F32.ofMagnitude neg t).toNat = (if neg then 2 ^ 31 else 0) + t % 2 ^ 31 := by
  rw [F32.ofMagnitude, BitVec.toNat_ofNat]
  cases neg <;> simp <;> omega

@[simp] theorem F32.sign_ofMagnitude (neg : Bool) (t : Nat) : F32.sign (F32.ofMagnitude neg t) = neg := by
  rw [F32.sign_eq, F32.toNat_ofMagnitude]
  cases neg <;> simp; omega

@[simp] theorem F32.magnitude_ofMagnitude (neg : Bool) (t : Nat) :
    F32.magnitude (F32.ofMagnitude neg t) = t % 2 ^ 31 := by
  rw [F32.magnitude, F32.toNat_ofMagnitude]
  cases neg <;> simp

/-- A pattern is its sign and its magnitude. -/
theorem F32.ext_sign_magnitude {x y : F32} (sign : F32.sign x = F32.sign y)
    (magnitude : F32.magnitude x = F32.magnitude y) : x = y := by
  apply BitVec.eq_of_toNat_eq
  rw [F32.sign_eq, F32.sign_eq, decide_eq_decide] at sign
  unfold F32.magnitude at magnitude
  omega

@[simp] theorem F32.sign_neg (x : F32) : F32.sign (F32.neg x) = !F32.sign x := by
  simp [F32.sign, F32.neg]

@[simp] theorem F32.magnitude_neg (x : F32) : F32.magnitude (F32.neg x) = F32.magnitude x := by
  rw [F32.magnitude, F32.neg, BitVec.toNat_xor, Nat.xor_mod_two_pow]
  exact Nat.xor_zero _

theorem F32.isNaN_iff (x : F32) : F32.isNaN x = true ↔ 0x7F800000 < F32.magnitude x := decide_eq_true_iff

theorem F32.isInf_iff (x : F32) : F32.isInf x = true ↔ F32.magnitude x = 0x7F800000 := beq_iff_eq

theorem F32.isZero_iff (x : F32) : F32.isZero x = true ↔ F32.magnitude x = 0 := beq_iff_eq

theorem F32.isFinite_iff (x : F32) : F32.isFinite x = true ↔ F32.magnitude x < 0x7F800000 := decide_eq_true_iff

@[simp] theorem F32.isNaN_neg (x : F32) : F32.isNaN (F32.neg x) = F32.isNaN x := by simp [F32.isNaN]
@[simp] theorem F32.isInf_neg (x : F32) : F32.isInf (F32.neg x) = F32.isInf x := by simp [F32.isInf]
@[simp] theorem F32.isFinite_neg (x : F32) : F32.isFinite (F32.neg x) = F32.isFinite x := by simp [F32.isFinite]

/-- A finite value is no NaN. -/
theorem F32.isNaN_of_finite {x : F32} (h : F32.isFinite x = true) : F32.isNaN x = false :=
  Bool.eq_false_iff.2 fun hn => absurd ((F32.isNaN_iff x).1 hn) (by have := (F32.isFinite_iff x).1 h; omega)

/-- A finite value is no infinity. -/
theorem F32.isInf_of_finite {x : F32} (h : F32.isFinite x = true) : F32.isInf x = false :=
  Bool.eq_false_iff.2 fun hi => absurd ((F32.isInf_iff x).1 hi) (by have := (F32.isFinite_iff x).1 h; omega)

/-! ## Binary32: value -/

theorem F32.expField_eq (x : F32) : F32.expField x = F32.magnitude x / 2 ^ 23 := by
  unfold F32.expField F32.magnitude; omega

theorem F32.fraction_eq (x : F32) : F32.fraction x = F32.magnitude x % 2 ^ 23 := by
  unfold F32.fraction F32.magnitude; omega

theorem F32.significand_eq (x : F32) : F32.significand x = mantissa 23 (F32.magnitude x) := by
  rw [F32.significand, mantissa, binade, F32.expField_eq, F32.fraction_eq]
  split <;> omega

theorem F32.exponent_eq (x : F32) : F32.exponent x = -149 + binade 23 (F32.magnitude x) := by
  rw [F32.exponent, binade, F32.expField_eq]
  split <;> omega

theorem F32.significand_lt (x : F32) : F32.significand x < 2 ^ 24 :=
  F32.significand_eq x ▸ mantissa_lt 23 _

theorem F32.two_zpow_exponent (x : F32) :
    (2 : ℚ) ^ F32.exponent x = quantum (-149) (binade 23 (F32.magnitude x)) := by
  rw [F32.exponent_eq, quantum]

/-- The value of a pattern is that of its magnitude, with its sign. -/
theorem F32.value_eq (x : F32) :
    F32.value x = signFactor (F32.sign x) * magnitudeValue 23 (-149) (F32.magnitude x) := by
  rw [F32.value, F32.signedSignificand, F32.two_zpow_exponent, F32.significand_eq, magnitudeValue]
  cases F32.sign x <;> simp

theorem F32.signedSignificand_eq (x : F32) :
    (F32.signedSignificand x : ℚ) = signFactor (F32.sign x) * F32.significand x := by
  rw [F32.signedSignificand]
  cases F32.sign x <;> simp

theorem F32.abs_value (x : F32) : |F32.value x| = magnitudeValue 23 (-149) (F32.magnitude x) := by
  rw [F32.value_eq, abs_mul, abs_signFactor, one_mul, abs_of_nonneg (magnitudeValue_nonneg _ _ _)]

theorem F32.value_eq_signFactor_mul_abs (x : F32) : F32.value x = signFactor (F32.sign x) * |F32.value x| := by
  rw [F32.abs_value, F32.value_eq]

@[simp] theorem F32.value_neg (x : F32) : F32.value (F32.neg x) = -F32.value x := by
  simp [F32.value_eq]

theorem F32.value_eq_zero_iff (x : F32) : F32.value x = 0 ↔ F32.isZero x = true := by
  rw [← abs_eq_zero, F32.abs_value, F32.isZero_iff, ← magnitudeValue_zero 23 (-149),
    (magnitudeValue_strictMono 23 (-149)).injective.eq_iff]

theorem F32.significand_eq_zero_iff (x : F32) : F32.significand x = 0 ↔ F32.isZero x = true := by
  rw [← F32.value_eq_zero_iff, F32.value, F32.signedSignificand_eq]
  have factor : signFactor (F32.sign x) ≠ 0 := by cases F32.sign x <;> simp
  simp [factor, zpow_ne_zero]

/-! ## Binary32: order -/

/-- The value at a place of the order: the odd extension of the values of the magnitudes. -/
def orderValue (o : Int) : ℚ := o.sign * magnitudeValue 23 (-149) o.natAbs

theorem orderValue_strictMono : StrictMono orderValue := by
  have nonneg {o : Int} (h : 0 ≤ o) : orderValue o = magnitudeValue 23 (-149) o.natAbs := by
    rcases h.eq_or_lt with rfl | pos
    · simp [orderValue]
    · simp [orderValue, Int.sign_eq_one_of_pos pos]
  refine strictMono_of_odd_strictMonoOn_nonneg (fun o => by simp [orderValue]) fun o ho e he lt => ?_
  rw [nonneg ho, nonneg he]
  exact magnitudeValue_strictMono 23 (-149) (Int.natAbs_lt_natAbs_of_nonneg_of_lt ho lt)

@[simp] theorem F32.natAbs_order (x : F32) : (F32.order x).natAbs = F32.magnitude x := by
  rw [F32.order]; split <;> simp

theorem F32.value_eq_orderValue (x : F32) : F32.value x = orderValue (F32.order x) := by
  have sign_of_pos (pos : 0 < F32.magnitude x) : Int.sign (F32.magnitude x) = 1 := Int.sign_natCast_of_ne_zero pos.ne'
  rw [F32.value_eq, orderValue, F32.natAbs_order, F32.order]
  rcases Nat.eq_zero_or_pos (F32.magnitude x) with zero | pos
  · simp [zero]
  · cases F32.sign x <;> simp [sign_of_pos pos]

/-- The order of patterns is that of their values (40_canonical_model R83). -/
theorem F32.order_le_order_iff (x y : F32) : F32.order x ≤ F32.order y ↔ F32.value x ≤ F32.value y := by
  rw [F32.value_eq_orderValue, F32.value_eq_orderValue, orderValue_strictMono.le_iff_le]

theorem F32.order_lt_order_iff (x y : F32) : F32.order x < F32.order y ↔ F32.value x < F32.value y := by
  rw [F32.value_eq_orderValue, F32.value_eq_orderValue, orderValue_strictMono.lt_iff_lt]

/-- But for the zeros, a pattern is known by its place in the order. -/
theorem F32.eq_of_order_eq {x y : F32} (order : F32.order x = F32.order y) (nonzero : F32.order y ≠ 0) : x = y := by
  have magnitude : F32.magnitude x = F32.magnitude y := by rw [← F32.natAbs_order, order, F32.natAbs_order]
  refine F32.ext_sign_magnitude ?_ magnitude
  rw [F32.order, F32.order, magnitude] at order
  rw [F32.order] at nonzero
  cases hx : F32.sign x <;> cases hy : F32.sign y <;> simp [hx, hy] at order nonzero ⊢ <;> omega

end Sys2Proof.Machine
end

section
/-! SUPPORT. Rounding to nearest, ties to even (40_canonical_model R81, R96): what `roundPattern` answers, said of the
exact number that is rounded; that no value of the format is nearer; when it overflows; when it is exact; how far it can
be off. -/

namespace Sys2Proof.Machine

/-! ## Rounding to an integer -/

/-- `n` is the integer nearest to `z`, the even one of two. -/
structure NearestEven (n : Nat) (z : ℚ) : Prop where
  near : |n - z| ≤ 1 / 2
  even_of_tie : |n - z| = 1 / 2 → Even n

namespace NearestEven

theorem self (n : Nat) : NearestEven n n := ⟨by simp, by simp⟩

variable {n : Nat} {z : ℚ} (h : NearestEven n z)
include h

/-- No integer is nearer. -/
theorem le_of_int (k : Int) : |n - z| ≤ |k - z| := by
  by_cases eq : k = (n : Int)
  · simp [eq]
  · have apart : (1 : ℚ) ≤ |(k : ℚ) - n| := by exact_mod_cast Int.one_le_abs (sub_ne_zero.2 eq)
    have tri : |(k : ℚ) - n| ≤ |k - z| + |n - z| := by
      simpa [abs_sub_comm z] using abs_sub_le (k : ℚ) z n
    linarith [h.near]

/-- Where another integer is as near, `n` is even. -/
theorem even_of_int {k : Int} (tie : |n - z| = |k - z|) (ne : k ≠ n) : Even n := by
  have apart : (1 : ℚ) ≤ |(k : ℚ) - n| := by exact_mod_cast Int.one_le_abs (sub_ne_zero.2 ne)
  have tri : |(k : ℚ) - n| ≤ |k - z| + |n - z| := by
    simpa [abs_sub_comm z] using abs_sub_le (k : ℚ) z n
  exact h.even_of_tie (le_antisymm h.near (by linarith))

theorem le_of_natCast_le {k : Nat} (le : (k : ℚ) ≤ z) : k ≤ n := by
  by_contra! lt
  have : (n : ℚ) + 1 ≤ k := by exact_mod_cast lt
  have := (abs_le.1 h.near).1
  linarith

theorem le_of_le_natCast {k : Nat} (le : z ≤ k) : n ≤ k := by
  by_contra! lt
  have : (k : ℚ) + 1 ≤ n := by exact_mod_cast lt
  have := (abs_le.1 h.near).2
  linarith

/-- Half way below an even integer, and from there on, the even one is reached. -/
theorem le_of_half_le {k : Nat} (even : Even k) (le : (k : ℚ) - 1 / 2 ≤ z) : k ≤ n := by
  by_contra! lt
  have below : (n : ℚ) + 1 ≤ k := by exact_mod_cast lt
  have near := (abs_le.1 h.near).1
  have place : z = n + 1 / 2 := by linarith
  have pred : k = n + 1 := by
    have : (k : ℚ) = n + 1 := by linarith
    exact_mod_cast this
  have tie : |n - z| = 1 / 2 := by rw [place, sub_add_cancel_left, abs_neg]; norm_num
  exact absurd (h.even_of_tie tie) (by rw [pred] at even; simpa [parity_simps] using even)

theorem lt_of_lt_half {k : Nat} (lt : z < (k : ℚ) - 1 / 2) : n < k := by
  by_contra! le
  have : (k : ℚ) ≤ n := by exact_mod_cast le
  have := (abs_le.1 h.near).2
  linarith

end NearestEven

/-- An odd numerator stands for every number between its even neighbours, when the divisor is a multiple of 4: the sticky
bit of a quotient. -/
theorem NearestEven.of_sticky {n a d : Nat} {y : ℚ} (pos : 0 < d) (div : 4 ∣ d) (odd : Odd a)
    (round : NearestEven n (a / d)) (above : (a : ℚ) - 1 < y) (below : y < a + 1) : NearestEven n (y / d) := by
  obtain ⟨e, rfl⟩ := div
  have pos' : (0 : ℚ) < (4 * e : Nat) := by exact_mod_cast pos
  have scale (x : ℚ) : (n - x / (4 * e : Nat)) * (4 * e : Nat) = n * (4 * e : Nat) - x := by
    rw [sub_mul, div_mul_cancel₀ _ pos'.ne']
  have within : |((n * (4 * e) : Nat) : ℚ) - a| ≤ (2 * e : Nat) := by
    have := mul_le_mul_of_nonneg_right round.near pos'.le
    rw [← abs_of_pos pos', ← abs_mul, abs_of_pos pos', scale] at this
    push_cast at this ⊢
    linarith
  have margin : |((n * (4 * e) : Nat) : Int) - a| ≤ (2 * e : Nat) - 1 := by
    have bound : |((n * (4 * e) : Nat) : Int) - a| ≤ (2 * e : Nat) := by exact_mod_cast within
    obtain ⟨b, rfl⟩ := odd
    rw [abs_le] at bound ⊢
    have multiple : n * (4 * e) = 4 * (n * e) := by ring
    omega
  have strict : |n - y / (4 * e : Nat)| < 1 / 2 := by
    have margin' : |((n * (4 * e) : Nat) : ℚ) - a| ≤ (2 * e : Nat) - 1 := by exact_mod_cast margin
    rw [← mul_lt_mul_iff_left₀ pos', ← abs_of_pos pos', ← abs_mul, abs_of_pos pos', scale, abs_lt]
    rw [abs_le] at margin'
    push_cast at margin' ⊢
    constructor <;> linarith
  exact ⟨strict.le, fun tie => absurd tie strict.ne⟩

/-- `shiftRightEven` rounds the quotient by a power of two. -/
theorem nearestEven_shiftRightEven (m k : Nat) : NearestEven (shiftRightEven m k) (m / 2 ^ k) := by
  have pos : (0 : ℚ) < 2 ^ k := by positivity
  have split : (m : ℚ) / 2 ^ k = (m / 2 ^ k : Nat) + (m % 2 ^ k : Nat) / 2 ^ k := by
    rw [div_eq_iff pos.ne', add_mul, div_mul_cancel₀ _ pos.ne']
    exact_mod_cast (Nat.div_add_mod' m (2 ^ k)).symm
  have rest : ((m % 2 ^ k : Nat) : ℚ) / 2 ^ k < 1 := by
    rw [div_lt_one pos]; exact_mod_cast Nat.mod_lt m (Nat.two_pow_pos k)
  have nonneg : (0 : ℚ) ≤ ((m % 2 ^ k : Nat) : ℚ) / 2 ^ k := by positivity
  have half_lt : 2 * (m % 2 ^ k) > 2 ^ k ↔ 1 / 2 < ((m % 2 ^ k : Nat) : ℚ) / 2 ^ k := by
    rw [lt_div_iff₀ pos, one_div_mul_eq_div, div_lt_iff₀' two_pos]; exact_mod_cast Iff.rfl
  have half_eq : 2 * (m % 2 ^ k) = 2 ^ k ↔ ((m % 2 ^ k : Nat) : ℚ) / 2 ^ k = 1 / 2 := by
    rw [div_eq_iff pos.ne', one_div_mul_eq_div, eq_div_iff two_ne_zero, mul_comm]; exact_mod_cast Iff.rfl
  simp only [shiftRightEven, split, half_lt, half_eq]
  generalize ((m % 2 ^ k : Nat) : ℚ) / 2 ^ k = r at rest nonneg
  generalize m / 2 ^ k = n
  split_ifs with up
  · have half_le : 1 / 2 ≤ r := up.elim le_of_lt fun h => h.1.ge
    have off : |((n + 1 : Nat) : ℚ) - (n + r)| = 1 - r := by
      rw [Nat.cast_succ, add_sub_add_left_eq_sub, abs_of_pos (by linarith)]
    refine ⟨by rw [off]; linarith, fun tie => ?_⟩
    rw [off] at tie
    rcases up with more | ⟨-, odd⟩
    · linarith
    · exact (Nat.odd_iff.2 odd).add_one
  · obtain ⟨le, even⟩ := not_or.1 up
    have off : |(n : ℚ) - (n + r)| = r := by rw [sub_add_cancel_left, abs_neg, abs_of_nonneg nonneg]
    refine ⟨off.trans_le (not_lt.1 le), fun tie => ?_⟩
    exact Nat.not_odd_iff_even.1 fun odd => even ⟨off.symm.trans tie, Nat.odd_iff.1 odd⟩

/-! ## Rounding to a format with `f` fraction bits whose least subnormal is `2 ^ emin` -/

/-- `y` rounds, were there no overflow, to the significand `n` in binade `j`; `n` is `2 ^ (f + 1)` where the rounding
carries into the next binade. -/
structure RoundedAt (f : Nat) (emin : Int) (y : ℚ) (j n : Nat) : Prop where
  nonneg : 0 ≤ y
  nearest : NearestEven n (y / quantum emin j)
  below : y < 2 ^ (f + 1) * quantum emin j
  normal : j = 0 ∨ 2 ^ f * quantum emin j ≤ y

/-- What `roundPattern` answers, by the exact number it rounds. -/
theorem roundPattern_roundedAt (f : Nat) (emin : Int) (inf m : Nat) (e : Int) :
    ∃ j n, RoundedAt f emin (m * 2 ^ e) j n ∧ roundPattern (f + 1) emin inf m e = min (j * 2 ^ f + n) inf := by
  rcases eq_or_ne m 0 with rfl | nonzero
  · exact ⟨0, 0, ⟨by simp, by simpa using NearestEven.self 0, by simpa using quantum_pos emin 0, .inl rfl⟩, by
      simp [roundPattern]⟩
  set q : Int := max emin ((Nat.log2 m : Int) + e - f) with hq
  have hj : quantum emin (q - emin).toNat = 2 ^ q := by
    rw [quantum, Int.toNat_of_nonneg (by omega), add_sub_cancel]
  refine ⟨(q - emin).toNat, if q ≤ e then m * 2 ^ (e - q).toNat else shiftRightEven m (q - e).toNat,
    ⟨by positivity, ?_, ?_, ?_⟩, ?_⟩
  · rw [hj, mul_div_assoc, ← zpow_sub₀ two_ne_zero]
    split
    · next le =>
      convert NearestEven.self (m * 2 ^ (e - q).toNat) using 1
      rw [Nat.cast_mul, Nat.cast_pow, Nat.cast_two, ← zpow_natCast, Int.toNat_of_nonneg (by omega)]
    · next lt =>
      convert nearestEven_shiftRightEven m (q - e).toNat using 1
      rw [← zpow_natCast, Int.toNat_of_nonneg (by omega), div_eq_mul_inv, ← zpow_neg, neg_sub]
  · have log : (m : ℚ) < 2 ^ ((Nat.log2 m : Int) + 1) := by exact_mod_cast Nat.lt_log2_self (n := m)
    calc (m : ℚ) * 2 ^ e
        < 2 ^ ((Nat.log2 m : Int) + 1) * 2 ^ e := mul_lt_mul_of_pos_right log (by positivity)
      _ = 2 ^ ((Nat.log2 m : Int) + 1 + e) := (zpow_add₀ two_ne_zero _ _).symm
      _ ≤ 2 ^ (((f + 1 : Nat) : Int) + q) := zpow_le_zpow_right₀ one_le_two (by omega)
      _ = 2 ^ (f + 1) * quantum emin (q - emin).toNat := by rw [hj, zpow_add₀ two_ne_zero, zpow_natCast]
  · refine (max_choice emin ((Nat.log2 m : Int) + e - f)).imp (fun h => by omega) fun h => ?_
    have log : (2 : ℚ) ^ (Nat.log2 m : Int) ≤ m := by exact_mod_cast Nat.log2_self_le nonzero
    calc (2 : ℚ) ^ f * quantum emin (q - emin).toNat
        = 2 ^ ((f : Int) + q) := by rw [hj, zpow_add₀ two_ne_zero, zpow_natCast]
      _ = 2 ^ (Nat.log2 m : Int) * 2 ^ e := by rw [← zpow_add₀ two_ne_zero]; congr 1; omega
      _ ≤ m * 2 ^ e := mul_le_mul_of_nonneg_right log (by positivity)
  · have precision : (((f + 1 : Nat) : Int) - 1) = f := by omega
    simp only [roundPattern, if_neg nonzero, Nat.add_sub_cancel, precision, ← hq]

/-- A distance, counted in quanta. -/
theorem abs_mul_quantum_sub (emin : Int) (j : Nat) (c y : ℚ) :
    |c * quantum emin j - y| = |c - y / quantum emin j| * quantum emin j := by
  have pos := quantum_pos emin j
  rw [← abs_of_pos pos, ← abs_mul, abs_of_pos pos, sub_mul, div_mul_cancel₀ _ pos.ne']

namespace RoundedAt

variable {f : Nat} {emin : Int} {y : ℚ} {j n : Nat} (h : RoundedAt f emin y j n)
include h

theorem le_carry : n ≤ 2 ^ (f + 1) :=
  h.nearest.le_of_le_natCast (by
    rw [div_le_iff₀ (quantum_pos emin j)]; exact_mod_cast h.below.le)

theorem normal_le : j = 0 ∨ 2 ^ f ≤ n :=
  h.normal.imp_right fun le => h.nearest.le_of_natCast_le (by
    rw [le_div_iff₀ (quantum_pos emin j)]; exact_mod_cast le)

/-- The magnitude that is rounded to has the value of its significand. -/
theorem value : magnitudeValue f emin (j * 2 ^ f + n) = n * quantum emin j :=
  magnitudeValue_add emin h.le_carry h.normal_le

/-- No other value of the format is nearer: it is a whole number of quanta of binade `j`, or lies below all of them. -/
theorem closest {k : Int} {i : Nat} (hk : |k| < 2 ^ (f + 1)) :
    |n * quantum emin j - y| ≤ |k * quantum emin i - y| ∧
      (|n * quantum emin j - y| = |k * quantum emin i - y| →
        (k : ℚ) * quantum emin i ≠ n * quantum emin j → Even n) := by
  have pos := quantum_pos emin j
  rcases le_or_gt j i with le | lt
  · obtain ⟨d, rfl⟩ := Nat.exists_eq_add_of_le le
    have whole : (k : ℚ) * quantum emin (j + d) = (k * 2 ^ d : Int) * quantum emin j := by
      rw [quantum_add]; push_cast; ring
    rw [whole, abs_mul_quantum_sub, abs_mul_quantum_sub, mul_le_mul_iff_left₀ pos, mul_left_inj' pos.ne']
    exact ⟨h.nearest.le_of_int _, fun tie ne => h.nearest.even_of_int tie fun eq => ne (by rw [eq]; rfl)⟩
  · have normal : 2 ^ f * quantum emin j ≤ y := h.normal.resolve_left (by omega)
    have small : (k : ℚ) * quantum emin i < 2 ^ f * quantum emin j := by
      have top : (k : ℚ) < 2 ^ (f + 1) := by exact_mod_cast (le_abs_self k).trans_lt hk
      calc (k : ℚ) * quantum emin i
          < 2 ^ (f + 1) * quantum emin i := mul_lt_mul_of_pos_right top (quantum_pos emin i)
        _ = 2 ^ f * (2 * quantum emin i) := by rw [pow_succ]; ring
        _ ≤ 2 ^ f * quantum emin j := mul_le_mul_of_nonneg_left (two_mul_quantum_le emin lt) (by positivity)
    have bound : |n * quantum emin j - y| ≤ |2 ^ f * quantum emin j - y| := by
      rw [abs_mul_quantum_sub, abs_mul_quantum_sub]
      exact mul_le_mul_of_nonneg_right (by exact_mod_cast h.nearest.le_of_int (2 ^ f)) pos.le
    have strict : |n * quantum emin j - y| < |k * quantum emin i - y| := by
      rw [abs_of_nonpos (sub_nonpos.2 normal)] at bound
      rw [abs_of_neg (a := _ * quantum emin i - y) (by linarith)]
      linarith
    exact ⟨strict.le, fun tie => absurd tie strict.ne⟩

/-- A number the format has is not changed. -/
theorem exact {k : Nat} {i : Nat} (hk : k < 2 ^ (f + 1)) (hy : y = k * quantum emin i) : n * quantum emin j = y := by
  have near := (h.closest (k := (k : Int)) (i := i) (by rw [Nat.abs_cast]; exact_mod_cast hk)).1
  rw [Int.cast_natCast, ← hy, sub_self, abs_zero] at near
  exact sub_eq_zero.1 (abs_nonpos_iff.1 near)

/-- Rounding is off by half a quantum: relative to the number, or of the least subnormal. -/
theorem error_le : |n * quantum emin j - y| ≤ y / 2 ^ (f + 1) + quantum emin 0 / 2 := by
  have pos := quantum_pos emin 0
  have half : |n * quantum emin j - y| ≤ quantum emin j / 2 := by
    rw [abs_mul_quantum_sub, ← one_div_mul_eq_div 2 (quantum emin j)]
    exact mul_le_mul_of_nonneg_right h.nearest.near (quantum_pos emin j).le
  refine half.trans ?_
  rcases h.normal with rfl | le
  · exact le_add_of_nonneg_left (div_nonneg h.nonneg (by positivity))
  · have : quantum emin j / 2 ≤ y / 2 ^ (f + 1) := by
      rw [div_le_div_iff₀ two_pos (by positivity), pow_succ]
      linarith
    linarith

/-- Below half a quantum under the first value beyond binade `J`, rounding stays inside it. -/
theorem lt_of_lt {J : Nat} (lt : y < (2 ^ (f + 1) - 1 / 2) * quantum emin J) : j * 2 ^ f + n < (J + 2) * 2 ^ f := by
  have pos := quantum_pos emin J
  have inside : j ≤ J := by
    by_contra! beyond
    have := h.normal.resolve_left (by omega)
    have : 2 ^ f * (2 * quantum emin J) ≤ 2 ^ f * quantum emin j :=
      mul_le_mul_of_nonneg_left (two_mul_quantum_le emin beyond) (by positivity)
    rw [sub_mul, pow_succ] at lt
    linarith
  rcases inside.eq_or_lt with rfl | lower
  · have : n < 2 ^ (f + 1) := h.nearest.lt_of_lt_half (by rw [div_lt_iff₀ pos]; exact_mod_cast lt)
    rw [Nat.add_mul, ← Nat.pow_succ']
    omega
  · have := h.le_carry
    calc j * 2 ^ f + n
        ≤ j * 2 ^ f + 2 * 2 ^ f := by rw [← Nat.pow_succ']; omega
      _ = (j + 2) * 2 ^ f := by rw [Nat.add_mul]
      _ < (J + 2) * 2 ^ f := Nat.mul_lt_mul_of_pos_right (by omega) (Nat.two_pow_pos f)

/-- From there on, rounding goes beyond binade `J`. -/
theorem le_of_le {J : Nat} (le : (2 ^ (f + 1) - 1 / 2) * quantum emin J ≤ y) : (J + 2) * 2 ^ f ≤ j * 2 ^ f + n := by
  have pos := quantum_pos emin J
  have inside : J ≤ j := by
    by_contra! below
    have : 2 ^ f * (2 * quantum emin j) ≤ 2 ^ f * quantum emin J :=
      mul_le_mul_of_nonneg_left (two_mul_quantum_le emin below) (by positivity)
    have : (1 : ℚ) * quantum emin J ≤ 2 ^ f * quantum emin J :=
      mul_le_mul_of_nonneg_right (one_le_pow₀ one_le_two) pos.le
    have := h.below
    rw [pow_succ] at this
    rw [sub_mul, pow_succ] at le
    linarith
  rcases inside.eq_or_lt with rfl | higher
  · have : 2 ^ (f + 1) ≤ n := h.nearest.le_of_half_le (by simp [Nat.even_pow]) (by
      rw [le_div_iff₀ pos]; exact_mod_cast le)
    rw [Nat.add_mul, ← Nat.pow_succ']
    omega
  · have := h.normal_le.resolve_left (by omega)
    calc (J + 2) * 2 ^ f
        ≤ (j + 1) * 2 ^ f := Nat.mul_le_mul_right _ (by omega)
      _ = j * 2 ^ f + 2 ^ f := by rw [Nat.add_mul, Nat.one_mul]
      _ ≤ j * 2 ^ f + n := by omega

/-- An odd significand of enough bits stands for every number between its even neighbours: the sticky bit of a quotient. -/
theorem of_sticky {a : Nat} {e : Int} {z : ℚ} (hy : y = a * 2 ^ e) (long : 2 ^ (f + 3) ≤ a) (odd : Odd a)
    (above : (a : ℚ) - 1 < z) (below : z < a + 1) : RoundedAt f emin (z * 2 ^ e) j n := by
  subst hy
  have unit : (0 : ℚ) < 2 ^ e := by positivity
  have deep : e + 2 ≤ emin + j := by
    have : (2 : ℚ) ^ (((f + 3 : Nat) : Int) + e) < 2 ^ (((f + 1 : Nat) : Int) + (emin + j)) := by
      rw [zpow_add₀ two_ne_zero, zpow_add₀ two_ne_zero, zpow_natCast, zpow_natCast]
      exact (mul_le_mul_of_nonneg_right (by exact_mod_cast long) unit.le).trans_lt h.below
    have := (zpow_lt_zpow_iff_right₀ one_lt_two).1 this
    omega
  obtain ⟨s, hs⟩ : ∃ s : Nat, emin + j = (s + 2 : Nat) + e := ⟨(emin + j - e - 2).toNat, by omega⟩
  have hq : quantum emin j = (2 ^ (s + 2) : Nat) * 2 ^ e := by
    rw [quantum, hs, zpow_add₀ two_ne_zero, zpow_natCast, Nat.cast_pow, Nat.cast_two]
  have cancel (x : ℚ) : x * 2 ^ e / quantum emin j = x / (2 ^ (s + 2) : Nat) := by
    rw [hq, mul_div_mul_right _ _ unit.ne']
  have even (t : Nat) : Even (2 ^ t * 2 ^ (s + 2)) := by simp [Nat.even_pow]
  refine ⟨mul_nonneg ?_ unit.le, ?_, ?_, ?_⟩
  · have : (1 : ℚ) ≤ a := by exact_mod_cast odd.pos
    linarith
  · rw [cancel]
    exact NearestEven.of_sticky (Nat.two_pow_pos _) (by rw [pow_add]; exact Dvd.intro_left _ rfl) odd
      (cancel a ▸ h.nearest) above below
  · have lt : (a : ℚ) < (2 ^ (f + 1) * 2 ^ (s + 2) : Nat) := by
      have := h.below
      rw [hq, ← mul_assoc] at this
      exact_mod_cast lt_of_mul_lt_mul_right this unit.le
    have step : (a : ℚ) + 1 ≤ (2 ^ (f + 1) * 2 ^ (s + 2) : Nat) := by exact_mod_cast lt
    rw [hq, ← mul_assoc]
    exact mul_lt_mul_of_pos_right (by push_cast at step ⊢; linarith) unit
  · refine h.normal.imp_right fun normal => ?_
    have le : 2 ^ f * 2 ^ (s + 2) ≤ a := by
      rw [hq, ← mul_assoc] at normal
      exact_mod_cast le_of_mul_le_mul_right normal unit
    have lt : 2 ^ f * 2 ^ (s + 2) < a := le.lt_of_ne fun eq => Nat.not_even_iff_odd.2 odd (eq ▸ even f)
    have step : ((2 ^ f * 2 ^ (s + 2) : Nat) : ℚ) + 1 ≤ a := by exact_mod_cast lt
    rw [hq, ← mul_assoc]
    exact mul_le_mul_of_nonneg_right (by push_cast at step ⊢; linarith) unit.le

end RoundedAt

/-- A value of the format below the infinity rounds to itself. -/
theorem roundPattern_exact {f : Nat} {emin : Int} {inf m t : Nat} {e : Int} (fits : t < inf)
    (value : (m : ℚ) * 2 ^ e = magnitudeValue f emin t) : roundPattern (f + 1) emin inf m e = t := by
  obtain ⟨j, n, h, eq⟩ := roundPattern_roundedAt f emin inf m e
  have same : magnitudeValue f emin (j * 2 ^ f + n) = magnitudeValue f emin t := by
    rw [h.value, h.exact (mantissa_lt f t) value, value]
  rw [eq, (magnitudeValue_strictMono f emin).injective same, min_eq_left fits.le]

end Sys2Proof.Machine
end

section
/-! PROOF. The family 40_canonical_model: the four operations are the exact rationals rounded once, to nearest, ties to
even, and `i2f` and `round_haz` are exact (40_canonical_model R81 to R88). -/

namespace Sys2Proof.Machine

/-! ## One rounding to binary32 (40_canonical_model R81) -/

/-- `r` is the exact `x` rounded to binary32: in words of the significand and the binade it is rounded to. -/
def F32.Rounds (x : ℚ) (r : F32) : Prop :=
  ∃ (neg : Bool) (y : ℚ) (j n : Nat), RoundedAt 23 (-149) y j n ∧ x = signFactor neg * y ∧
    r = F32.ofMagnitude neg (min (j * 2 ^ 23 + n) 0x7F800000)

/-- `F32.round` rounds. -/
theorem F32.round_rounds (neg : Bool) (m : Nat) (e : Int) :
    F32.Rounds (signFactor neg * (m * 2 ^ e)) (F32.round neg m e) := by
  obtain ⟨j, n, h, eq⟩ := roundPattern_roundedAt 23 (-149) 0x7F800000 m e
  exact ⟨neg, _, j, n, h, rfl, congrArg (F32.ofMagnitude neg) eq⟩

theorem F32.zero_rounds (neg : Bool) : F32.Rounds 0 (F32.ofMagnitude neg 0) := by
  have zero := F32.round_rounds neg 0 0
  rwa [Nat.cast_zero, zero_mul, mul_zero] at zero

@[simp] theorem F32.sign_round (neg : Bool) (m : Nat) (e : Int) : F32.sign (F32.round neg m e) = neg :=
  F32.sign_ofMagnitude _ _

/-- The infinity of a sign. -/
theorem F32.ofMagnitude_inf (neg : Bool) :
    F32.ofMagnitude neg 0x7F800000 = if neg then 0xFF800000 else 0x7F800000 := by cases neg <;> rfl

/-- Half a quantum above the largest finite value. -/
theorem overflow_threshold : (2 : ℚ) ^ 128 - 2 ^ 103 = (2 ^ (23 + 1) - 1 / 2) * quantum (-149) 253 := by
  norm_num [quantum]

/-- A value with its sign flipped or not, as a signed number of quanta. -/
theorem F32.signFactor_mul_value (neg : Bool) (c : F32) :
    ∃ k : Int, |k| < 2 ^ (23 + 1) ∧
      signFactor neg * F32.value c = k * quantum (-149) (binade 23 (F32.magnitude c)) := by
  have lt := F32.significand_lt c
  refine ⟨if neg then -F32.signedSignificand c else F32.signedSignificand c, ?_, ?_⟩
  · unfold F32.signedSignificand
    rw [abs_lt]
    split <;> split <;> omega
  · rw [F32.value, F32.two_zpow_exponent]
    cases neg <;> simp

namespace F32.Rounds

variable {x : ℚ} {r : F32} (h : F32.Rounds x r)
include h

/-- Below the overflow threshold the result is finite and its value is the rounded one. -/
theorem of_lt (lt : |x| < 2 ^ 128 - 2 ^ 103) :
    ∃ (neg : Bool) (y : ℚ) (j n : Nat), RoundedAt 23 (-149) y j n ∧ x = signFactor neg * y ∧
      r = F32.ofMagnitude neg (j * 2 ^ 23 + n) ∧ j * 2 ^ 23 + n < 0x7F800000 ∧
      F32.value r = signFactor neg * (n * quantum (-149) j) := by
  obtain ⟨neg, y, j, n, rounded, rfl, rfl⟩ := h
  rw [abs_mul, abs_signFactor, one_mul, abs_of_nonneg rounded.nonneg, overflow_threshold] at lt
  have fits : j * 2 ^ 23 + n < 0x7F800000 := rounded.lt_of_lt lt
  rw [min_eq_left fits.le]
  refine ⟨neg, y, j, n, rounded, rfl, rfl, fits, ?_⟩
  rw [F32.value_eq, F32.sign_ofMagnitude, F32.magnitude_ofMagnitude, Nat.mod_eq_of_lt (fits.trans (by norm_num)),
    rounded.value]

theorem isFinite (lt : |x| < 2 ^ 128 - 2 ^ 103) : F32.isFinite r = true := by
  obtain ⟨neg, y, j, n, -, -, rfl, fits, -⟩ := h.of_lt lt
  rw [F32.isFinite_iff, F32.magnitude_ofMagnitude]
  exact (Nat.mod_le _ _).trans_lt fits

/-- No finite binary32 is nearer, and of two as near the even one is taken (40_canonical_model R81). -/
theorem nearestTo (lt : |x| < 2 ^ 128 - 2 ^ 103) : NearestTo x r := by
  obtain ⟨neg, y, j, n, rounded, rfl, rfl, fits, value⟩ := h.of_lt lt
  have unsign (c : ℚ) : |c - signFactor neg * y| = |signFactor neg * c - y| := by
    cases neg
    · simp
    · rw [signFactor_true, neg_one_mul, neg_one_mul, sub_neg_eq_add, ← neg_add', abs_neg]
  have result : signFactor neg * F32.value (F32.ofMagnitude neg (j * 2 ^ 23 + n)) = n * quantum (-149) j := by
    rw [value, ← mul_assoc, signFactor_mul_self, one_mul]
  intro c _
  obtain ⟨k, hk, hc⟩ := F32.signFactor_mul_value neg c
  obtain ⟨near, even⟩ := rounded.closest (i := binade 23 (F32.magnitude c)) hk
  rw [unsign, unsign, result, hc]
  refine ⟨near, fun tie ne => ?_⟩
  have other : (k : ℚ) * quantum (-149) (binade 23 (F32.magnitude c)) ≠ n * quantum (-149) j := fun eq =>
    ne (mul_left_cancel₀ (by cases neg <;> simp : signFactor neg ≠ 0) (by rw [hc, result, eq]))
  have split := binade_mul_add_mantissa 23 (j * 2 ^ 23 + n)
  have := Nat.even_iff.1 (even tie other)
  rw [F32.significand_eq, F32.magnitude_ofMagnitude, Nat.mod_eq_of_lt (fits.trans (by norm_num))]
  omega

/-- From the threshold on, the result is the infinity of the sign. -/
theorem overflow (le : 2 ^ 128 - 2 ^ 103 ≤ |x|) : r = if x < 0 then 0xFF800000 else 0x7F800000 := by
  obtain ⟨neg, y, j, n, rounded, rfl, rfl⟩ := h
  rw [abs_mul, abs_signFactor, one_mul, abs_of_nonneg rounded.nonneg] at le
  have pos : 0 < y := lt_of_lt_of_le (by norm_num) le
  have overflowed : 0x7F800000 ≤ j * 2 ^ 23 + n := rounded.le_of_le (overflow_threshold ▸ le)
  rw [min_eq_right overflowed, F32.ofMagnitude_inf]
  cases neg <;> simp [pos, pos.le]

theorem roundsTo : RoundsTo x r := by
  refine ⟨fun lt => ⟨h.isFinite lt, h.nearestTo lt⟩, fun le => ?_, fun le => ?_⟩
  · rw [h.overflow (le.trans (le_abs_self x)), if_neg (by linarith)]
  · rw [h.overflow (by rw [le_abs]; right; linarith), if_pos (by linarith)]

/-- One rounding is off by at most one part in `2 ^ 24` and half the least subnormal. -/
theorem error_le (lt : |x| < 2 ^ 128 - 2 ^ 103) : |F32.value r - x| ≤ |x| / 2 ^ 24 + 1 / 2 ^ 150 := by
  obtain ⟨neg, y, j, n, rounded, rfl, -, -, value⟩ := h.of_lt lt
  have tiny : quantum (-149) 0 / 2 = 1 / 2 ^ 150 := by norm_num [quantum]
  rw [value, ← mul_sub, abs_mul, abs_mul, abs_signFactor, one_mul, one_mul, abs_of_nonneg rounded.nonneg, ← tiny]
  exact rounded.error_le

/-- A number binary32 has is not changed. -/
theorem exact {k : Int} {i : Nat} (hk : |k| < 2 ^ 24) (hx : x = k * quantum (-149) i)
    (lt : |x| < 2 ^ 128 - 2 ^ 103) : F32.value r = x := by
  obtain ⟨neg, y, j, n, rounded, rfl, -, -, value⟩ := h.of_lt lt
  have hy : y = k.natAbs * quantum (-149) i := by
    have := congrArg abs hx
    rw [abs_mul, abs_mul, abs_signFactor, one_mul, abs_of_nonneg rounded.nonneg, abs_of_pos (quantum_pos _ _)] at this
    rw [this, Nat.cast_natAbs, Int.cast_abs]
  rw [value, rounded.exact (by rw [Int.abs_eq_natAbs] at hk; omega) hy]

end F32.Rounds

/-! ## The operations on finite operands (40_canonical_model R82) -/

/-- A value at any exponent up to its own. -/
theorem F32.value_eq_shifted (x : F32) {e : Int} (le : e ≤ F32.exponent x) :
    F32.value x = (F32.signedSignificand x * 2 ^ (F32.exponent x - e).toNat : Int) * 2 ^ e := by
  have : (2 : ℚ) ^ F32.exponent x = 2 ^ (F32.exponent x - e).toNat * 2 ^ e := by
    rw [← zpow_natCast, ← zpow_add₀ two_ne_zero, Int.toNat_of_nonneg (by omega), sub_add_cancel]
  rw [F32.value, this]
  push_cast
  ring

/-- The exact sum of two finite values, as `fadd` computes it: a number of units at the lower of the exponents. -/
def exactSum (a b : F32) : Int :=
  let e := min (F32.exponent a) (F32.exponent b)
  F32.signedSignificand a * 2 ^ (F32.exponent a - e).toNat + F32.signedSignificand b * 2 ^ (F32.exponent b - e).toNat

theorem value_add_value (a b : F32) :
    F32.value a + F32.value b = exactSum a b * 2 ^ min (F32.exponent a) (F32.exponent b) := by
  rw [F32.value_eq_shifted a (min_le_left _ (F32.exponent b)), F32.value_eq_shifted b (min_le_right (F32.exponent a) _),
    ← add_mul, exactSum]
  push_cast
  rfl

section
variable {a b : F32} (ha : F32.isFinite a = true) (hb : F32.isFinite b = true)
include ha hb

theorem fadd_of_finite : fadd a b =
    if exactSum a b = 0 then F32.ofMagnitude (F32.sign a && F32.sign b) 0
    else F32.round (exactSum a b < 0) (exactSum a b).natAbs (min (F32.exponent a) (F32.exponent b)) := by
  simp only [fadd, F32.isNaN_of_finite ha, F32.isNaN_of_finite hb, F32.isInf_of_finite ha, F32.isInf_of_finite hb,
    Bool.or_false, Bool.false_eq_true, if_false]
  rfl

theorem fmul_of_finite : fmul a b = F32.round (F32.sign a != F32.sign b) (F32.significand a * F32.significand b)
    (F32.exponent a + F32.exponent b) := by
  simp [fmul, F32.isNaN_of_finite ha, F32.isNaN_of_finite hb, F32.isInf_of_finite ha, F32.isInf_of_finite hb]

theorem fadd_rounds : F32.Rounds (F32.value a + F32.value b) (fadd a b) := by
  rw [fadd_of_finite ha hb, value_add_value]
  split
  · next zero => simpa [zero] using F32.zero_rounds (F32.sign a && F32.sign b)
  · have magnitude : ((exactSum a b : Int) : ℚ) = signFactor (exactSum a b < 0) * (exactSum a b).natAbs := by
      rw [Nat.cast_natAbs, Int.cast_abs]
      rcases lt_or_ge (exactSum a b) 0 with neg | nonneg
      · simp [neg, abs_of_neg]
      · simp [not_lt.2 nonneg, abs_of_nonneg, nonneg]
    rw [magnitude, mul_assoc]
    exact F32.round_rounds _ _ _

theorem sign_fadd_of_zero (zero : F32.value a + F32.value b = 0) :
    F32.sign (fadd a b) = (F32.sign a && F32.sign b) := by
  rw [value_add_value, mul_eq_zero, or_iff_left (zpow_ne_zero _ two_ne_zero), Int.cast_eq_zero] at zero
  rw [fadd_of_finite ha hb, if_pos zero, F32.sign_ofMagnitude]

theorem fsub_rounds : F32.Rounds (F32.value a - F32.value b) (fsub a b) := by
  rw [fsub, sub_eq_add_neg, ← F32.value_neg]
  exact fadd_rounds ha (by rwa [F32.isFinite_neg])

theorem sign_fsub_of_zero (zero : F32.value a - F32.value b = 0) :
    F32.sign (fsub a b) = (F32.sign a && !F32.sign b) := by
  rw [fsub, sign_fadd_of_zero ha (by rwa [F32.isFinite_neg]) (by rwa [F32.value_neg, ← sub_eq_add_neg]), F32.sign_neg]

theorem fmul_rounds : F32.Rounds (F32.value a * F32.value b) (fmul a b) := by
  have product : F32.value a * F32.value b = signFactor (F32.sign a != F32.sign b) *
      ((F32.significand a * F32.significand b : Nat) * 2 ^ (F32.exponent a + F32.exponent b)) := by
    rw [F32.value, F32.value, F32.signedSignificand_eq, F32.signedSignificand_eq, signFactor_xor, zpow_add₀ two_ne_zero]
    push_cast
    ring
  rw [fmul_of_finite ha hb, product]
  exact F32.round_rounds _ _ _

theorem sign_fmul : F32.sign (fmul a b) = (F32.sign a != F32.sign b) := by
  rw [fmul_of_finite ha hb, F32.sign_round]

end

/-- The quotient as `fdiv` computes it: a significand 64 bits longer by the divisor's, and one sticky bit. -/
def stickyQuotient (a b : Nat) : Nat := 2 * (a * 2 ^ 64 / b) + if a * 2 ^ 64 % b = 0 then 0 else 1

/-- Rounding the quotient with its sticky bit is rounding the exact quotient. -/
theorem stickyQuotient_rounds (neg : Bool) {a b : Nat} (e : Int) (pos : 0 < b) (lt : b < 2 ^ 24) :
    F32.Rounds (signFactor neg * (a / b * 2 ^ e)) (F32.round neg (stickyQuotient a b) (e - 65)) := by
  have pos' : (0 : ℚ) < b := by exact_mod_cast pos
  have scaled : (a : ℚ) / b * 2 ^ e = 2 * (a * 2 ^ 64) / b * 2 ^ (e - 65) := by
    rw [zpow_sub₀ two_ne_zero, show ((2 : ℚ) ^ (65 : Int)) = 2 * 2 ^ 64 by norm_num]
    field_simp
  have division : (a : ℚ) * 2 ^ 64 = (a * 2 ^ 64 / b : Nat) * b + (a * 2 ^ 64 % b : Nat) := by
    exact_mod_cast (Nat.div_add_mod' (a * 2 ^ 64) b).symm
  obtain ⟨j, n, rounded, eq⟩ := roundPattern_roundedAt 23 (-149) 0x7F800000 (stickyQuotient a b) (e - 65)
  refine ⟨neg, _, j, n, ?_, rfl, congrArg (F32.ofMagnitude neg) eq⟩
  rw [scaled, division]
  rw [stickyQuotient] at rounded
  split_ifs at rounded with rest
  · convert rounded using 2
    rw [rest, Nat.cast_zero, add_zero, mul_div_assoc, mul_div_cancel_right₀ _ pos'.ne']
    push_cast
    ring
  · have nonzero : a ≠ 0 := by rintro rfl; simp at rest
    have long : 2 ^ 40 ≤ a * 2 ^ 64 / b := by
      rw [Nat.le_div_iff_mul_le pos]
      calc 2 ^ 40 * b ≤ 2 ^ 40 * 2 ^ 24 := Nat.mul_le_mul_left _ lt.le
        _ ≤ a * 2 ^ 64 := by omega
    have below : ((a * 2 ^ 64 % b : Nat) : ℚ) < b := by exact_mod_cast Nat.mod_lt _ pos
    have above : (0 : ℚ) < (a * 2 ^ 64 % b : Nat) := by exact_mod_cast Nat.pos_of_ne_zero rest
    refine rounded.of_sticky rfl (by omega) (by simp) ?_ ?_
    all_goals generalize a * 2 ^ 64 / b = q at *; generalize a * 2 ^ 64 % b = r at *; push_cast
    · rw [lt_div_iff₀ pos']
      linarith
    · rw [div_lt_iff₀ pos']
      linarith

section
variable {a b : F32} (ha : F32.isFinite a = true) (hb : F32.isFinite b = true) (nonzero : F32.isZero b = false)
include ha hb nonzero

theorem fdiv_of_finite : fdiv a b = F32.round (F32.sign a != F32.sign b)
    (stickyQuotient (F32.significand a) (F32.significand b)) (F32.exponent a - F32.exponent b - 65) := by
  simp only [fdiv, F32.isNaN_of_finite ha, F32.isNaN_of_finite hb, F32.isInf_of_finite ha, F32.isInf_of_finite hb,
    nonzero, Bool.or_false, Bool.false_eq_true, if_false]
  rfl

theorem fdiv_rounds : F32.Rounds (F32.value a / F32.value b) (fdiv a b) := by
  have pos : 0 < F32.significand b := Nat.pos_of_ne_zero fun zero => by
    rw [F32.significand_eq_zero_iff, nonzero] at zero
    exact absurd zero Bool.false_ne_true
  have inverse : signFactor (F32.sign a) / signFactor (F32.sign b) = signFactor (F32.sign a) * signFactor (F32.sign b) := by
    cases F32.sign b <;> simp [div_neg]
  have quotient : F32.value a / F32.value b = signFactor (F32.sign a != F32.sign b) *
      (F32.significand a / F32.significand b * 2 ^ (F32.exponent a - F32.exponent b)) := by
    rw [F32.value, F32.value, F32.signedSignificand_eq, F32.signedSignificand_eq, signFactor_xor, ← inverse,
      zpow_sub₀ two_ne_zero]
    ring
  rw [fdiv_of_finite ha hb nonzero, quotient]
  exact stickyQuotient_rounds _ _ pos (F32.significand_lt b)

theorem sign_fdiv : F32.sign (fdiv a b) = (F32.sign a != F32.sign b) := by
  rw [fdiv_of_finite ha hb nonzero, F32.sign_round]

end

/-- A quotient by zero: of a zero it is invalid, of anything else an infinity. -/
theorem fdiv_zero {a b : F32} (ha : F32.isFinite a = true) (zero : F32.isZero b = true) :
    fdiv a b = if F32.isZero a then F32.nan else F32.ofMagnitude (F32.sign a != F32.sign b) 0x7F800000 := by
  have hb : F32.isFinite b = true := by rw [F32.isFinite_iff, (F32.isZero_iff b).1 zero]; norm_num
  simp only [fdiv, F32.isNaN_of_finite ha, F32.isNaN_of_finite hb, F32.isInf_of_finite ha, F32.isInf_of_finite hb, zero,
    Bool.or_false, Bool.false_eq_true, if_false, if_true]

/-- `i2f` is exact on the integers of 24 bits (40_canonical_model R86). -/
theorem i2f_exact {n : Int} (h : |n| < 2 ^ 24) : F32.isFinite (i2f n) = true ∧ F32.value (i2f n) = n := by
  have magnitude : (n : ℚ) = signFactor (n < 0) * (n.natAbs * 2 ^ (0 : Int)) := by
    rw [zpow_zero, mul_one, Nat.cast_natAbs, Int.cast_abs]
    rcases lt_or_ge n 0 with neg | nonneg
    · simp [neg, abs_of_neg]
    · simp [not_lt.2 nonneg, abs_of_nonneg, nonneg]
  have rounds : F32.Rounds n (i2f n) := magnitude ▸ F32.round_rounds _ _ _
  have lt : |(n : ℚ)| < 2 ^ 128 - 2 ^ 103 :=
    lt_trans (b := 2 ^ 24) (by exact_mod_cast h) (by norm_num)
  exact ⟨rounds.isFinite lt, rounds.exact (i := 149) h (by simp [quantum]) lt⟩

/-! ## NaNs and infinities (40_canonical_model R81, R88) -/

@[simp] theorem F32.isNaN_nan : F32.isNaN F32.nan = true := by decide

/-- A NaN operand gives a NaN. -/
theorem isNaN_of_nan_operand {a b : F32} (h : F32.isNaN a = true ∨ F32.isNaN b = true) {op : F32 → F32 → F32}
    (mem : op ∈ [fadd, fsub, fmul, fdiv]) : F32.isNaN (op a b) = true := by
  have any : (F32.isNaN a || F32.isNaN b) = true := Bool.or_eq_true_iff.2 h
  simp only [List.mem_cons, List.not_mem_nil, or_false] at mem
  rcases mem with rfl | rfl | rfl | rfl <;> simp [fadd, fsub, fmul, fdiv, any]

section
variable {a : F32} (ha : F32.isInf a = true)
include ha

theorem F32.isNaN_of_inf : F32.isNaN a = false := by
  rw [Bool.eq_false_iff, Ne, F32.isNaN_iff, (F32.isInf_iff a).1 ha]; norm_num

theorem F32.isZero_of_inf : F32.isZero a = false := by
  rw [Bool.eq_false_iff, Ne, F32.isZero_iff, (F32.isInf_iff a).1 ha]; norm_num

/-- An infinity is known by its sign. -/
theorem F32.inf_eq : a = F32.ofMagnitude (F32.sign a) 0x7F800000 :=
  F32.ext_sign_magnitude (by simp) (by simp [(F32.isInf_iff a).1 ha])

variable {b : F32} (hb : F32.isNaN b = false)
include hb

/-- Infinities of opposite signs cancel to a NaN; otherwise the infinity stands. -/
theorem fadd_inf_left : fadd a b = if F32.isInf b = true ∧ F32.sign a ≠ F32.sign b then F32.nan else a := by
  simp [fadd, F32.isNaN_of_inf ha, hb, ha]

theorem fadd_inf_right : fadd b a = if F32.isInf b = true ∧ F32.sign a ≠ F32.sign b then F32.nan else a := by
  cases inf : F32.isInf b
  · simp [fadd, F32.isNaN_of_inf ha, hb, ha, inf]
  · rw [fadd_inf_left inf (F32.isNaN_of_inf ha), ha]
    by_cases sign : F32.sign a = F32.sign b
    · rw [F32.inf_eq ha, F32.inf_eq inf, sign]
    · simp [sign, Ne.symm sign]

/-- Subtracting from an infinity. -/
theorem fsub_inf_left : fsub a b = if F32.isInf b = true ∧ F32.sign a = F32.sign b then F32.nan else a := by
  rw [fsub, fadd_inf_left ha (by rwa [F32.isNaN_neg])]
  simp

/-- Subtracting an infinity. -/
theorem fsub_inf_right (finite : F32.isInf b = false) :
    fsub b a = F32.ofMagnitude (!F32.sign a) 0x7F800000 := by
  have hn : F32.isInf (F32.neg a) = true := by rwa [F32.isInf_neg]
  rw [fsub, fadd_inf_right hn hb, finite, if_neg (by simp), F32.inf_eq hn, F32.sign_neg]

/-- An infinity times a zero is a NaN, times anything else an infinity. -/
theorem fmul_inf_left :
    fmul a b = if F32.isZero b then F32.nan else F32.ofMagnitude (F32.sign a != F32.sign b) 0x7F800000 := by
  simp [fmul, F32.isNaN_of_inf ha, hb, ha, F32.isZero_of_inf ha]

theorem fmul_inf_right :
    fmul b a = if F32.isZero b then F32.nan else F32.ofMagnitude (F32.sign a != F32.sign b) 0x7F800000 := by
  simp [fmul, F32.isNaN_of_inf ha, hb, ha, F32.isZero_of_inf ha, bne_comm (a := F32.sign b)]

/-- An infinity over an infinity is a NaN, over anything else an infinity. -/
theorem fdiv_inf_left :
    fdiv a b = if F32.isInf b then F32.nan else F32.ofMagnitude (F32.sign a != F32.sign b) 0x7F800000 := by
  simp [fdiv, F32.isNaN_of_inf ha, hb, ha]

/-- A finite value over an infinity is a zero. -/
theorem fdiv_inf_right (finite : F32.isInf b = false) : fdiv b a = F32.ofMagnitude (F32.sign b != F32.sign a) 0 := by
  simp [fdiv, F32.isNaN_of_inf ha, hb, ha, finite]

end

/-- The four operations on finite operands (40_canonical_model R82). -/
theorem finite_operations {a b : F32} (ha : F32.isFinite a = true) (hb : F32.isFinite b = true) :
    RoundsTo (F32.value a + F32.value b) (fadd a b) ∧ RoundsTo (F32.value a - F32.value b) (fsub a b) ∧
    RoundsTo (F32.value a * F32.value b) (fmul a b) ∧
    (F32.isZero b = false → RoundsTo (F32.value a / F32.value b) (fdiv a b)) :=
  ⟨(fadd_rounds ha hb).roundsTo, (fsub_rounds ha hb).roundsTo, (fmul_rounds ha hb).roundsTo,
    fun nonzero => (fdiv_rounds ha hb nonzero).roundsTo⟩

/-- Settles O58: each operation on finite operands is one rounding of the exact rational, the other operands are the cases
of IEEE 754, and an integer of at most 24 bits is one of binary32. -/
theorem arithmeticRoundsToNearestEven : Obligations.ArithmeticRoundsToNearestEven := by
  refine ⟨fun a b ha hb => ?_, fun a b nan op mem => isNaN_of_nan_operand nan mem, fun a b ha hb => ?_,
    fun n hn => i2f_exact (by omega)⟩
  · obtain ⟨sum, difference, product, quotient⟩ := finite_operations ha hb
    refine ⟨sum, difference, product, quotient, sign_fadd_of_zero ha hb, sign_fsub_of_zero ha hb, sign_fmul ha hb,
      sign_fdiv ha hb, fun hb0 ha0 => ?_, fun hb0 ha0 => ?_⟩
    · rw [fdiv_zero ha hb0, if_pos ha0, F32.isNaN_nan]
    · rw [fdiv_zero ha hb0, ha0, if_neg Bool.false_ne_true, F32.ofMagnitude_inf]
      simp [ite_not]
  · simp only [fadd_inf_left ha hb, fadd_inf_right ha hb, fsub_inf_left ha hb, fmul_inf_left ha hb,
      fmul_inf_right ha hb, fdiv_inf_left ha hb, F32.ofMagnitude_inf]
    refine ⟨?_, ?_, fun hi => ?_, ?_, ?_, fun hi => ?_⟩
    · split <;> simp [*]
    · split <;> simp [*]
    · rw [fsub_inf_right ha hb hi, F32.ofMagnitude_inf]
    · split <;> simp [*]
    · split <;> simp [*]
    · rw [fdiv_inf_right ha hb hi]
      cases F32.sign a <;> cases F32.sign b <;> rfl

/-! ## Rounding to an integer (40_canonical_model R85) -/

/-- The magnitude of `round_haz` is the floor of the magnitude plus one half. -/
theorem roundHazMagnitude_eq (x : F32) : (roundHazMagnitude x : Int) = ⌊|F32.value x| + 1 / 2⌋ := by
  have magnitude : |F32.value x| = F32.significand x * 2 ^ F32.exponent x := by
    rw [F32.value, F32.signedSignificand_eq, abs_mul, abs_mul, abs_signFactor, one_mul, Nat.abs_cast,
      abs_of_pos (by positivity)]
  rw [magnitude, roundHazMagnitude]
  split_ifs with whole
  · obtain ⟨e, he⟩ := Int.eq_ofNat_of_zero_le whole
    rw [he, Int.toNat_natCast, zpow_natCast, eq_comm, Int.floor_eq_iff]
    push_cast
    constructor <;> linarith
  · obtain ⟨k, hk⟩ := Int.eq_ofNat_of_zero_le (a := -F32.exponent x) (by omega)
    have half : (F32.significand x : ℚ) * 2 ^ F32.exponent x + 1 / 2 =
        ((2 * F32.significand x + 2 ^ k : Nat) : ℚ) / ((2 ^ (k + 1) : Nat) : ℚ) := by
      rw [← neg_neg (F32.exponent x), hk, zpow_neg, zpow_natCast, pow_succ]
      push_cast
      field_simp
    rw [half, hk, Int.toNat_natCast, Rat.floor_natCast_div_natCast]
    rfl

/-- `round_haz` is the sign, and the floor of the magnitude plus one half. -/
theorem roundHaz_eq (x : F32) : roundHaz x = (if F32.sign x then -1 else 1) * ⌊|F32.value x| + 1 / 2⌋ := by
  rw [roundHaz, roundHazMagnitude_eq]
  split <;> simp

/-- Settles O57. -/
theorem roundHazRoundsHalfAway : Obligations.RoundHazRoundsHalfAway := fun x _ => roundHaz_eq x

end Sys2Proof.Machine
end

section
/-! PROOF. The family 40_canonical_model: clamping, and the codes that a clamped component packs to
(40_canonical_model R83, R84, R87, R92, R94 to R96, R108). -/

namespace Sys2Proof.Machine

/-! ## The least, the greatest, the clamp (40_canonical_model R83, R84) -/

section
variable {a b : F32} (ha : F32.isNaN a = false) (hb : F32.isNaN b = false)
include ha hb

theorem fmax_of_lt (lt : F32.order b < F32.order a) : fmax a b = a := by simp [fmax, F32.lt, ha, hb, lt]

theorem fmax_of_le (le : F32.order a ≤ F32.order b) : fmax a b = b := by simp [fmax, F32.lt, ha, hb, not_lt.2 le]

theorem fmin_of_lt (lt : F32.order a < F32.order b) : fmin a b = a := by simp [fmin, F32.lt, ha, hb, lt]

theorem fmin_of_le (le : F32.order b ≤ F32.order a) : fmin a b = b := by simp [fmin, F32.lt, ha, hb, not_lt.2 le]

theorem fmax_eq_or : fmax a b = a ∧ F32.order b < F32.order a ∨ fmax a b = b ∧ F32.order a ≤ F32.order b :=
  (lt_or_ge (F32.order b) (F32.order a)).imp (fun lt => ⟨fmax_of_lt ha hb lt, lt⟩) fun le => ⟨fmax_of_le ha hb le, le⟩

end

section
variable {v lo hi : F32} (hv : F32.isNaN v = false) (hlo : F32.isNaN lo = false) (hhi : F32.isNaN hi = false)
include hv hlo hhi

/-- At or above its upper bound a value is clamped to that bound. -/
theorem fclamp_of_ge (ge : F32.order hi ≤ F32.order v) : fclamp v lo hi = hi := by
  rcases fmax_eq_or hv hlo with ⟨eq, -⟩ | ⟨eq, low⟩
  · rw [fclamp, eq, fmin_of_le hv hhi ge]
  · rw [fclamp, eq, fmin_of_le hlo hhi (ge.trans low)]

/-- At or below its lower bound a value is clamped to that bound. -/
theorem fclamp_of_le (lt : F32.order lo < F32.order hi) (le : F32.order v ≤ F32.order lo) : fclamp v lo hi = lo := by
  rw [fclamp, fmax_of_le hv hlo le, fmin_of_lt hlo hhi lt]

/-- Strictly between its bounds a value is not changed. -/
theorem fclamp_of_between (above : F32.order lo < F32.order v) (below : F32.order v < F32.order hi) :
    fclamp v lo hi = v := by
  rw [fclamp, fmax_of_lt hv hlo above, fmin_of_lt hv hhi below]

/-- A value is clamped to a bound, or it lies between them and is not changed. -/
theorem fclamp_cases (lt : F32.order lo < F32.order hi) :
    (F32.order v ≤ F32.order lo ∧ fclamp v lo hi = lo) ∨ (F32.order hi ≤ F32.order v ∧ fclamp v lo hi = hi) ∨
      (F32.order lo < F32.order v ∧ F32.order v < F32.order hi ∧ fclamp v lo hi = v) := by
  rcases le_or_gt (F32.order v) (F32.order lo) with below | above
  · exact .inl ⟨below, fclamp_of_le hv hlo hhi lt below⟩
  rcases le_or_gt (F32.order hi) (F32.order v) with beyond | inside
  · exact .inr (.inl ⟨beyond, fclamp_of_ge hv hlo hhi beyond⟩)
  · exact .inr (.inr ⟨above, inside, fclamp_of_between hv hlo hhi above inside⟩)

/-- The value of a clamped component lies between the bounds, and clamping brings it no farther from any number there. -/
theorem value_fclamp (lt : F32.order lo < F32.order hi) :
    F32.value lo ≤ F32.value (fclamp v lo hi) ∧ F32.value (fclamp v lo hi) ≤ F32.value hi ∧
      ∀ t, F32.value lo ≤ t → t ≤ F32.value hi → |F32.value (fclamp v lo hi) - t| ≤ |F32.value v - t| := by
  have bounds := ((F32.order_lt_order_iff lo hi).1 lt).le
  rcases fclamp_cases hv hlo hhi lt with ⟨le, eq⟩ | ⟨ge, eq⟩ | ⟨above, below, eq⟩ <;> rw [eq]
  · rw [F32.order_le_order_iff] at le
    refine ⟨le_rfl, bounds, fun t ht _ => ?_⟩
    rw [abs_of_nonpos (by linarith), abs_of_nonpos (by linarith)]
    linarith
  · rw [F32.order_le_order_iff] at ge
    refine ⟨bounds, le_rfl, fun t _ ht => ?_⟩
    rw [abs_of_nonneg (by linarith), abs_of_nonneg (by linarith)]
    linarith
  · exact ⟨((F32.order_lt_order_iff lo v).1 above).le, ((F32.order_lt_order_iff v hi).1 below).le, fun _ _ _ => le_rfl⟩

/-- Between finite bounds the clamped component is finite, an infinity too (40_canonical_model R88). -/
theorem isFinite_fclamp (flo : F32.isFinite lo = true) (fhi : F32.isFinite hi = true)
    (lt : F32.order lo < F32.order hi) : F32.isFinite (fclamp v lo hi) = true := by
  rcases fclamp_cases hv hlo hhi lt with ⟨_, eq⟩ | ⟨_, eq⟩ | ⟨above, below, eq⟩ <;> rw [eq]
  · exact flo
  · exact fhi
  · rw [F32.isFinite_iff, ← F32.natAbs_order] at *
    omega

end

/-! ## Fixed-point codes (40_canonical_model R92, R94, R95) -/

/-- Within less than one half of an integer, `round_haz` is that integer. -/
theorem roundHaz_of_near {x : F32} {k : Int} (near : |F32.value x - k| < 1 / 2) : roundHaz x = k := by
  have value := F32.value_eq_signFactor_mul_abs x
  rw [abs_lt] at near
  rw [roundHaz_eq]
  cases hs : F32.sign x <;> rw [hs] at value
  · have floor : ⌊|F32.value x| + 1 / 2⌋ = k := Int.floor_eq_iff.2 (by
      rw [signFactor_false, one_mul] at value
      constructor <;> linarith)
    rw [floor]; simp
  · have floor : ⌊|F32.value x| + 1 / 2⌋ = -k := Int.floor_eq_iff.2 (by
      rw [signFactor_true, neg_one_mul] at value
      push_cast
      constructor <;> linarith)
    rw [floor]; simp

/-- Within less than one half beyond an integer, `round_haz` stays inside it. -/
theorem abs_roundHaz_le {x : F32} {k : Nat} (lt : |F32.value x| < k + 1 / 2) : |roundHaz x| ≤ k := by
  have magnitude : (roundHazMagnitude x : Int) ≤ k := by
    rw [roundHazMagnitude_eq]
    exact Int.le_of_lt_add_one (Int.floor_lt.2 (by push_cast; linarith))
  rw [roundHaz]
  split <;> simpa using magnitude

theorem F32.value_zero : F32.value F32.zero = 0 := (F32.value_eq_zero_iff _).2 (by decide)

theorem F32.value_one : F32.value F32.one = 1 := by
  have s : F32.signedSignificand F32.one = 8388608 := by decide
  have e : F32.exponent F32.one = -23 := by decide
  norm_num [F32.value, s, e]

theorem F32.value_negOne : F32.value F32.negOne = -1 :=
  (F32.value_neg F32.one).trans (congrArg Neg.neg F32.value_one)

section
variable {c : F32} {M : Nat} (hc : F32.isFinite c = true) (unit : |F32.value c| ≤ 1) (hM : M < 2 ^ 16)
include hc unit hM

/-- The product of a unit component and the greatest code is off by less than one part in 200. -/
theorem value_fmul_i2f : |F32.value (fmul c (i2f M)) - F32.value c * M| ≤ 1 / 200 := by
  obtain ⟨finite, value⟩ := i2f_exact (n := M) (by rw [Nat.abs_cast]; omega)
  have rounds := fmul_rounds hc finite
  rw [value, Int.cast_natCast] at rounds
  have product : |F32.value c * M| ≤ 65535 := by
    rw [abs_mul, Nat.abs_cast]
    have code : (M : ℚ) ≤ 65535 := by exact_mod_cast Nat.le_of_lt_succ hM
    simpa using mul_le_mul unit code (by positivity) one_pos.le
  refine (rounds.error_le (by linarith)).trans ?_
  linarith

/-- The code of a unit component near `k / M`. -/
theorem roundHaz_fmul_of_near {k : Int} (near : |F32.value c * M - k| ≤ 1 / 4) : roundHaz (fmul c (i2f M)) = k := by
  refine roundHaz_of_near ?_
  have := abs_sub_le (F32.value (fmul c (i2f M))) (F32.value c * M) k
  linarith [value_fmul_i2f hc unit hM]

/-- No code exceeds the greatest one. -/
theorem abs_roundHaz_fmul_le : |roundHaz (fmul c (i2f M))| ≤ M := by
  refine abs_roundHaz_le ?_
  have tri := abs_sub_abs_le_abs_sub (F32.value (fmul c (i2f M))) (F32.value c * M)
  have product : |F32.value c * M| ≤ M := by
    rw [abs_mul, Nat.abs_cast]
    exact mul_le_of_le_one_left (Nat.cast_nonneg M) unit
  linarith [value_fmul_i2f hc unit hM]

end

/-- The code of a component in a fixed-point field whose greatest code is `M` (40_canonical_model R92). -/
def fixedCode (lo v : F32) (M : Nat) : Int := roundHaz (fmul (fclamp v lo F32.one) (i2f M))

theorem packU_eq (u : BitVec 32) {v : F32} (hv : F32.isNaN v = false) (w : Nat) :
    packU u v w = BitVec.ofInt w (fixedCode F32.zero v (2 ^ w - 1)) := if_neg (by simp [hv])

theorem packS_eq (u : BitVec 32) {v : F32} (hv : F32.isNaN v = false) (w : Nat) :
    packS u v w = BitVec.ofInt w (fixedCode F32.negOne v (2 ^ (w - 1) - 1)) := if_neg (by simp [hv])

/-- The lower bounds of the two fixed-point laws: 0 and -1. -/
structure UnitBound (lo : F32) (bound : Int) : Prop where
  finite : F32.isFinite lo = true
  lt_one : F32.order lo < F32.order F32.one
  value : F32.value lo = bound
  within : |bound| ≤ 1

theorem unitBound_zero : UnitBound F32.zero 0 := ⟨by decide, by decide, by simp [F32.value_zero], by decide⟩

theorem unitBound_negOne : UnitBound F32.negOne (-1) := ⟨by decide, by decide, by simp [F32.value_negOne], by decide⟩

section
variable {lo v : F32} {bound : Int} {M : Nat} (hlo : UnitBound lo bound) (hv : F32.isNaN v = false)
include hlo hv

theorem isFinite_fclamp_one : F32.isFinite (fclamp v lo F32.one) = true :=
  isFinite_fclamp hv (F32.isNaN_of_finite hlo.finite) (by decide) hlo.finite (by decide) hlo.lt_one

theorem abs_value_fclamp_one : |F32.value (fclamp v lo F32.one)| ≤ 1 := by
  obtain ⟨low, high, -⟩ := value_fclamp hv (F32.isNaN_of_finite hlo.finite) (by decide) hlo.lt_one
  have : (-1 : ℚ) ≤ bound := by exact_mod_cast (abs_le.1 hlo.within).1
  rw [hlo.value] at low
  rw [F32.value_one] at high
  exact abs_le.2 ⟨this.trans low, high⟩

variable (hM : M < 2 ^ 16)
include hM

theorem abs_fixedCode_le : |fixedCode lo v M| ≤ M :=
  abs_roundHaz_fmul_le (isFinite_fclamp_one hlo hv) (abs_value_fclamp_one hlo hv) hM

/-- At or above 1 the code is the greatest (40_canonical_model R108). -/
theorem fixedCode_of_ge (ge : F32.order F32.one ≤ F32.order v) : fixedCode lo v M = M := by
  rw [fixedCode, fclamp_of_ge hv (F32.isNaN_of_finite hlo.finite) (by decide) ge]
  exact roundHaz_fmul_of_near (by decide) (by rw [F32.value_one, abs_one]) hM (by norm_num [F32.value_one])

/-- At or below the lower bound the code is the least (40_canonical_model R108). -/
theorem fixedCode_of_le (le : F32.order v ≤ F32.order lo) : fixedCode lo v M = bound * M := by
  rw [fixedCode, fclamp_of_le hv (F32.isNaN_of_finite hlo.finite) (by decide) hlo.lt_one le]
  exact roundHaz_fmul_of_near hlo.finite (by rw [hlo.value]; exact_mod_cast hlo.within) hM (by norm_num [hlo.value])

/-- Close to a code's own value the code is that one: a rounding error is not enough to miss it. -/
theorem fixedCode_of_near {k : Int} {t : ℚ} (code : t * M = k) (low : (bound : ℚ) ≤ t) (high : t ≤ 1)
    (near : |F32.value v - t| ≤ 1 / 2 ^ 18) : fixedCode lo v M = k := by
  refine roundHaz_fmul_of_near (isFinite_fclamp_one hlo hv) (abs_value_fclamp_one hlo hv) hM ?_
  obtain ⟨-, -, closer⟩ := value_fclamp hv (F32.isNaN_of_finite hlo.finite) (by decide) hlo.lt_one
  have clamped := (closer t (hlo.value.trans_le low) (high.trans_eq F32.value_one.symm)).trans near
  rw [← code, ← sub_mul, abs_mul, Nat.abs_cast]
  calc |F32.value (fclamp v lo F32.one) - t| * M
      ≤ 1 / 2 ^ 18 * 2 ^ 16 := mul_le_mul clamped (by exact_mod_cast hM.le) (by positivity) (by positivity)
    _ = 1 / 4 := by norm_num

end

/-! ## Legal and extreme codes (40_canonical_model R87, R108) -/

/-- A signed code of either sign, and its field. -/
theorem toInt_ofInt_of_abs_le {w : Nat} {k : Int} (pos : 0 < w) (le : |k| ≤ (2 ^ (w - 1) - 1 : Nat)) :
    (BitVec.ofInt w k).toInt = k := by
  have cast : (2 : Int) ^ (w - 1) = (2 ^ (w - 1) : Nat) := by simp
  have := Nat.two_pow_pos (w - 1)
  rw [abs_le] at le
  refine BitVec.toInt_ofInt_eq_self pos ?_ ?_ <;> rw [cast] <;> omega

theorem two_pow_sub_one_lt {w : Nat} (small : w ≤ 16) : 2 ^ w - 1 < 2 ^ 16 := by
  have := Nat.pow_le_pow_right two_pos small
  have := Nat.two_pow_pos w
  omega

/-- A signed field never holds the most negative code, for a NaN neither (40_canonical_model R87). -/
theorem abs_toInt_packS_le (u : BitVec 32) (v : F32) {w : Nat} (pos : 0 < w) (small : w ≤ 16) :
    |(packS u v w).toInt| ≤ (2 ^ (w - 1) - 1 : Nat) := by
  cases hv : F32.isNaN v
  · have code := abs_fixedCode_le unitBound_negOne hv (two_pow_sub_one_lt (w := w - 1) (by omega))
    rwa [packS_eq u hv, toInt_ofInt_of_abs_le pos code]
  · have draw : |((u.toNat % (2 * (2 ^ (w - 1) - 1) + 1) : Nat) : Int) - (2 ^ (w - 1) - 1 : Nat)| ≤
        (2 ^ (w - 1) - 1 : Nat) := by
      have := Nat.mod_lt u.toNat (show 0 < 2 * (2 ^ (w - 1) - 1) + 1 by omega)
      rw [abs_le]
      omega
    rwa [packS, if_pos hv, drawSignedCode, toInt_ofInt_of_abs_le pos draw]

section
variable (u : BitVec 32) {v : F32} (hv : F32.isNaN v = false) {w : Nat} (small : w ≤ 16)
include hv small

theorem packU_of_ge (ge : F32.order F32.one ≤ F32.order v) : (packU u v w).toNat = 2 ^ w - 1 := by
  rw [packU_eq u hv, fixedCode_of_ge unitBound_zero hv (two_pow_sub_one_lt small) ge, BitVec.ofInt_natCast,
    BitVec.toNat_ofNat, Nat.mod_eq_of_lt (Nat.sub_one_lt (Nat.two_pow_pos w).ne')]

theorem packU_of_le (le : F32.order v ≤ F32.order F32.zero) : (packU u v w).toNat = 0 := by
  rw [packU_eq u hv, fixedCode_of_le unitBound_zero hv (two_pow_sub_one_lt small) le]
  simp

variable (pos : 0 < w)
include pos

theorem packS_of_ge (ge : F32.order F32.one ≤ F32.order v) : (packS u v w).toInt = (2 ^ (w - 1) - 1 : Nat) := by
  rw [packS_eq u hv, fixedCode_of_ge unitBound_negOne hv (two_pow_sub_one_lt (by omega)) ge,
    toInt_ofInt_of_abs_le pos (Nat.abs_cast _).le]

theorem packS_of_le (le : F32.order v ≤ F32.order F32.negOne) : (packS u v w).toInt = -(2 ^ (w - 1) - 1 : Nat) := by
  rw [packS_eq u hv, fixedCode_of_le unitBound_negOne hv (two_pow_sub_one_lt (by omega)) le, neg_one_mul,
    toInt_ofInt_of_abs_le pos (by rw [abs_neg, Nat.abs_cast])]

end

/-- A half field packs the clamped component (40_canonical_model R96). -/
theorem packH_eq (u : BitVec 32) {v : F32} (hv : F32.isNaN v = false) :
    packH u v = toBinary16 (fclamp v halfMin halfMax) := if_neg (by simp [hv])

/-- Settles O56: a component at or beyond a bound is clamped to it, and the product of a clamped component is within less
than one half of the greatest code. -/
theorem packedCodesAreLegalAndClamped : Obligations.PackedCodesAreLegalAndClamped := by
  intro u v
  have widths {w : Nat} (mem : w ∈ [8, 16]) : 0 < w ∧ w ≤ 16 ∧ ((2 ^ (w - 1) - 1 : Nat) : Int) = 2 ^ (w - 1) - 1 := by
    simp only [List.mem_cons, List.not_mem_nil, or_false] at mem
    rcases mem with rfl | rfl <;> decide
  refine ⟨fun w mem => ?_, fun hv => ⟨fun w mem => ?_, fun w mem => ?_, fun ge => ?_, fun le => ?_⟩⟩
  · obtain ⟨pos, small, max⟩ := widths mem
    exact abs_le.1 (max ▸ abs_toInt_packS_le u v pos small)
  · have small : w ≤ 16 := by
      simp only [List.mem_cons, List.not_mem_nil, or_false] at mem
      omega
    exact ⟨packU_of_ge u hv small, packU_of_le u hv small⟩
  · obtain ⟨pos, small, max⟩ := widths mem
    exact max ▸ ⟨packS_of_ge u hv small pos, packS_of_le u hv small pos⟩
  · rw [packH_eq u hv, fclamp_of_ge hv (by decide) (by decide) ge]
    decide
  · rw [packH_eq u hv, fclamp_of_le hv (by decide) (by decide) (by decide) le]
    decide

end Sys2Proof.Machine
end

section
/-! PROOF. The family 40_canonical_model: one field packs back what it unpacked to (40_canonical_model R94 to R98, R106,
R107). A fixed-point code `k` is unpacked to a value within a few roundings of `k / M`, and every value that near packs to
`k`; a half pattern is unpacked and packed exactly. -/

namespace Sys2Proof.Machine

/-! ## Roundings of small numbers -/

/-- One rounding of a number up to 4 is off by at most one part in `2 ^ 21`. -/
theorem F32.Rounds.near {x : ℚ} {r : F32} (h : F32.Rounds x r) (small : |x| ≤ 4) :
    F32.isFinite r = true ∧ |F32.value r - x| ≤ 1 / 2 ^ 21 := by
  have lt : |x| < 2 ^ 128 - 2 ^ 103 := small.trans_lt (by norm_num)
  exact ⟨h.isFinite lt, (h.error_le lt).trans (by linarith)⟩

theorem two_pow_sub_one_pos {w : Nat} (pos : 0 < w) : 0 < 2 ^ w - 1 :=
  Nat.sub_pos_of_lt (Nat.one_lt_two_pow pos.ne')

/-- A code over the greatest code is of the unit range. -/
theorem abs_div_le_one {k : Int} {M : Nat} (le : |k| ≤ M) : |(k : ℚ) / M| ≤ 1 := by
  rw [abs_div, Nat.abs_cast]
  exact div_le_one_of_le₀ (by exact_mod_cast le) (Nat.cast_nonneg M)

theorem toNat_div_le_one {w : Nat} (raw : BitVec w) : (raw.toNat : ℚ) / (2 ^ w - 1 : Nat) ≤ 1 :=
  div_le_one_of_le₀ (by exact_mod_cast Nat.le_sub_one_of_lt raw.isLt) (Nat.cast_nonneg _)

/-- A code over the greatest code, rounded. -/
theorem fdiv_i2f_near {k : Int} {M : Nat} (pos : 0 < M) (hM : M < 2 ^ 16) (le : |k| ≤ M) :
    F32.isFinite (fdiv (i2f k) (i2f M)) = true ∧ |F32.value (fdiv (i2f k) (i2f M)) - k / M| ≤ 1 / 2 ^ 21 := by
  obtain ⟨fk, vk⟩ := i2f_exact (n := k) (by omega)
  obtain ⟨fM, vM⟩ := i2f_exact (n := M) (by rw [Nat.abs_cast]; omega)
  have nonzero : F32.isZero (i2f M) = false := by
    rw [Bool.eq_false_iff, Ne, ← F32.value_eq_zero_iff, vM]
    exact_mod_cast pos.ne'
  have rounds := fdiv_rounds fk fM nonzero
  rw [vk, vM, Int.cast_natCast] at rounds
  exact rounds.near ((abs_div_le_one le).trans (by norm_num))

/-! ## Fixed-point fields (40_canonical_model R94, R95) -/

section
variable {w : Nat} (pos : 0 < w) (small : w ≤ 16) (raw : BitVec w)
include pos small

theorem unpackU_near : F32.isFinite (unpackU raw) = true ∧
    |F32.value (unpackU raw) - raw.toNat / (2 ^ w - 1 : Nat)| ≤ 1 / 2 ^ 21 :=
  fdiv_i2f_near (k := raw.toNat) (two_pow_sub_one_pos pos) (two_pow_sub_one_lt small)
    (by rw [Nat.abs_cast]; exact_mod_cast Nat.le_sub_one_of_lt raw.isLt)

/-- An unsigned field packs to the code a component is near to. -/
theorem packU_of_near (u : BitVec 32) {v : F32} (hv : F32.isFinite v = true)
    (near : |F32.value v - raw.toNat / (2 ^ w - 1 : Nat)| ≤ 1 / 2 ^ 18) : packU u v w = raw := by
  have posM : (0 : ℚ) < (2 ^ w - 1 : Nat) := by exact_mod_cast two_pow_sub_one_pos pos
  have code : fixedCode F32.zero v (2 ^ w - 1) = raw.toNat :=
    fixedCode_of_near unitBound_zero (F32.isNaN_of_finite hv) (two_pow_sub_one_lt small)
      (by rw [div_mul_cancel₀ _ posM.ne', Int.cast_natCast]) (by rw [Int.cast_zero]; positivity)
      (toNat_div_le_one raw) near
  rw [packU_eq u (F32.isNaN_of_finite hv), code, BitVec.ofInt_natCast, BitVec.ofNat_toNat, BitVec.setWidth_eq]

variable (wide : 1 < w) (le : |raw.toInt| ≤ (2 ^ (w - 1) - 1 : Nat))
include wide le

theorem unpackS_near : F32.isFinite (unpackS raw) = true ∧
    |F32.value (unpackS raw) - raw.toInt / (2 ^ (w - 1) - 1 : Nat)| ≤ 1 / 2 ^ 21 :=
  fdiv_i2f_near (two_pow_sub_one_pos (by omega)) (two_pow_sub_one_lt (by omega)) le

/-- A signed field packs to the code a component is near to. -/
theorem packS_of_near (u : BitVec 32) {v : F32} (hv : F32.isFinite v = true)
    (near : |F32.value v - raw.toInt / (2 ^ (w - 1) - 1 : Nat)| ≤ 1 / 2 ^ 18) : packS u v w = raw := by
  have posM : (0 : ℚ) < (2 ^ (w - 1) - 1 : Nat) := by exact_mod_cast two_pow_sub_one_pos (w := w - 1) (by omega)
  have unit := abs_le.1 (abs_div_le_one le)
  have code : fixedCode F32.negOne v (2 ^ (w - 1) - 1) = raw.toInt :=
    fixedCode_of_near unitBound_negOne (F32.isNaN_of_finite hv) (two_pow_sub_one_lt (by omega))
      (div_mul_cancel₀ _ posM.ne') (by exact_mod_cast unit.1) unit.2 near
  rw [packS_eq u (F32.isNaN_of_finite hv), code, BitVec.ofInt_toInt]

end

/-- The scaled component maps back to the native one, but for four roundings (40_canonical_model R106). -/
theorem scaleDown_scaleUp_near {c : F32} (hc : F32.isFinite c = true) (small : |F32.value c| ≤ 2) :
    F32.isFinite (scaleDown (scaleUp c)) = true ∧ |F32.value (scaleDown (scaleUp c)) - F32.value c| ≤ 5 / 2 ^ 21 := by
  have finite_one : F32.isFinite F32.one = true := by decide
  have finite_two : F32.isFinite F32.two = true := by decide
  have value_two : F32.value F32.two = 2 := by
    have s : F32.signedSignificand F32.two = 8388608 := by decide
    have e : F32.exponent F32.two = -22 := by decide
    norm_num [F32.value, s, e]
  rw [abs_le] at small
  obtain ⟨finite_sum, sum⟩ := (fadd_rounds hc finite_one).near (by
    rw [F32.value_one, abs_le]; constructor <;> linarith)
  rw [F32.value_one, abs_le] at sum
  obtain ⟨finite_up, up⟩ := (fdiv_rounds finite_sum finite_two (by decide)).near (by
    rw [value_two, abs_le]; constructor <;> linarith)
  rw [value_two, abs_le] at up
  obtain ⟨finite_double, double⟩ := (fmul_rounds finite_up finite_two).near (by
    rw [value_two, abs_le]; constructor <;> linarith)
  rw [value_two, abs_le] at double
  obtain ⟨finite_down, down⟩ := (fsub_rounds finite_double finite_one).near (by
    rw [F32.value_one, abs_le]; constructor <;> linarith)
  rw [F32.value_one, abs_le] at down
  refine ⟨finite_down, ?_⟩
  rw [scaleDown, scaleUp, abs_le]
  constructor <;> linarith

/-! ## Luminance fields (40_canonical_model R98) -/

/-- The luminance of a grey is the grey, but for five roundings and the coefficients' own. -/
theorem luma_grey_near {c : F32} (hc : F32.isFinite c = true) {t : ℚ} (low : 0 ≤ t) (high : t ≤ 1)
    (near : |F32.value c - t| ≤ 1 / 2 ^ 21) :
    F32.isFinite (luma c c c) = true ∧ |F32.value (luma c c c) - t| ≤ 1 / 2 ^ 18 := by
  have hn := F32.isNaN_of_finite hc
  have red : F32.isFinite lumaRed = true ∧ F32.value lumaRed = 14267344 / 2 ^ 26 := by
    have s : F32.signedSignificand lumaRed = 14267344 := by decide
    have e : F32.exponent lumaRed = -26 := by decide
    exact ⟨by decide, by norm_num [F32.value, s, e]⟩
  have green : F32.isFinite lumaGreen = true ∧ F32.value lumaGreen = 11999065 / 2 ^ 24 := by
    have s : F32.signedSignificand lumaGreen = 11999065 := by decide
    have e : F32.exponent lumaGreen = -24 := by decide
    exact ⟨by decide, by norm_num [F32.value, s, e]⟩
  have blue : F32.isFinite lumaBlue = true ∧ F32.value lumaBlue = 9690520 / 2 ^ 27 := by
    have s : F32.signedSignificand lumaBlue = 9690520 := by decide
    have e : F32.exponent lumaBlue = -27 := by decide
    exact ⟨by decide, by norm_num [F32.value, s, e]⟩
  have clamped := isFinite_fclamp_one unitBound_zero hn
  obtain ⟨nonneg, le_one, closer⟩ := value_fclamp hn (by decide) (by decide) unitBound_zero.lt_one
  rw [F32.value_zero] at nonneg
  rw [F32.value_one] at le_one
  have grey := abs_le.1 ((closer t (F32.value_zero.trans_le low) (high.trans_eq F32.value_one.symm)).trans near)
  rw [luma]
  generalize fclamp c F32.zero F32.one = g at *
  obtain ⟨fr, r⟩ := (fmul_rounds red.1 clamped).near (by rw [red.2, abs_le]; constructor <;> linarith)
  obtain ⟨fg, g'⟩ := (fmul_rounds green.1 clamped).near (by rw [green.2, abs_le]; constructor <;> linarith)
  obtain ⟨fb, b⟩ := (fmul_rounds blue.1 clamped).near (by rw [blue.2, abs_le]; constructor <;> linarith)
  rw [red.2, abs_le] at r
  rw [green.2, abs_le] at g'
  rw [blue.2, abs_le] at b
  obtain ⟨frg, rg⟩ := (fadd_rounds fr fg).near (by rw [abs_le]; constructor <;> linarith)
  rw [abs_le] at rg
  obtain ⟨frgb, rgb⟩ := (fadd_rounds frg fb).near (by rw [abs_le]; constructor <;> linarith)
  rw [abs_le] at rgb
  refine ⟨frgb, ?_⟩
  rw [abs_le]
  constructor <;> linarith

/-- A luminance field packs back the grey it unpacked to. -/
theorem packL_unpackU {w : Nat} (pos : 0 < w) (small : w ≤ 16) (u : BitVec 32) (raw : BitVec w) :
    packL u (unpackU raw) (unpackU raw) (unpackU raw) w = raw := by
  obtain ⟨finite, near⟩ := unpackU_near pos small raw
  obtain ⟨finite_luma, near_luma⟩ := luma_grey_near finite (t := raw.toNat / (2 ^ w - 1 : Nat)) (by positivity)
    (toNat_div_le_one raw) near
  rw [packL, F32.isNaN_of_finite finite, Bool.or_self, Bool.or_self, if_neg Bool.false_ne_true]
  exact packU_of_near pos small raw u finite_luma near_luma

/-- An unsigned field packs back what it unpacked to. -/
theorem packU_unpackU {w : Nat} (pos : 0 < w) (small : w ≤ 16) (u : BitVec 32) (raw : BitVec w) :
    packU u (unpackU raw) w = raw := by
  obtain ⟨finite, near⟩ := unpackU_near pos small raw
  exact packU_of_near pos small raw u finite (near.trans (by norm_num))

section
variable {w : Nat} (wide : 1 < w) (small : w ≤ 16) (u : BitVec 32) {raw : BitVec w}
  (le : |raw.toInt| ≤ (2 ^ (w - 1) - 1 : Nat))
include wide small le

/-- A signed field packs back what it unpacked to. -/
theorem packS_unpackS : packS u (unpackS raw) w = raw := by
  obtain ⟨finite, near⟩ := unpackS_near (by omega) small raw wide le
  exact packS_of_near (by omega) small raw wide le u finite (near.trans (by norm_num))

/-- In the scaled flavour too. -/
theorem packS_scaled_unpackS : packS u (scaleDown (scaleUp (unpackS raw))) w = raw := by
  obtain ⟨finite, near⟩ := unpackS_near (by omega) small raw wide le
  have unit := abs_div_le_one le
  have bounded : |F32.value (unpackS raw)| ≤ 2 := by
    have := abs_sub_abs_le_abs_sub (F32.value (unpackS raw)) (raw.toInt / (2 ^ (w - 1) - 1 : Nat))
    linarith
  obtain ⟨finite_scaled, near_scaled⟩ := scaleDown_scaleUp_near finite bounded
  refine packS_of_near (by omega) small raw wide le u finite_scaled ?_
  have := abs_sub_le (F32.value (scaleDown (scaleUp (unpackS raw)))) (F32.value (unpackS raw))
    (raw.toInt / (2 ^ (w - 1) - 1 : Nat))
  linarith

end

/-! ## Half fields (40_canonical_model R96) -/

/-- The largest finite half. -/
theorem magnitudeValue_halfMax : magnitudeValue 10 (-24) 0x7BFF = 65504 := by
  norm_num [magnitudeValue, mantissa, binade, quantum]

theorem magnitudeValue_half_le {t : Nat} (finite : t < 0x7C00) : magnitudeValue 10 (-24) t ≤ 65504 :=
  magnitudeValue_halfMax ▸ (magnitudeValue_strictMono 10 (-24)).monotone (Nat.le_of_lt_succ finite)

theorem ofBinary16_eq {h : BitVec 16} (finite : h.toNat % 2 ^ 15 < 0x7C00) :
    ofBinary16 h = F32.round (h.getLsbD 15) (mantissa 10 (h.toNat % 2 ^ 15)) (-24 + binade 10 (h.toNat % 2 ^ 15)) := by
  simp only [ofBinary16]
  generalize h.toNat % 2 ^ 15 = t at *
  rw [if_neg (by omega)]
  split_ifs with subnormal
  · have zero : binade 10 t = 0 := by rw [binade]; omega
    rw [mantissa, zero, Nat.zero_mul, Nat.sub_zero, Nat.cast_zero, add_zero]
  · have place : binade 10 t = t / 2 ^ 10 - 1 := rfl
    have digits : mantissa 10 t = t % 2 ^ 10 + 2 ^ 10 := by rw [mantissa, place]; omega
    rw [digits, place, show (-24 + ((t / 2 ^ 10 - 1 : Nat) : Int)) = (t / 2 ^ 10 : Nat) - 25 by omega]

/-- A half pattern that is no infinity and no NaN unpacks to its value, with its sign. -/
theorem ofBinary16_exact {h : BitVec 16} (finite : h.toNat % 2 ^ 15 < 0x7C00) :
    F32.isFinite (ofBinary16 h) = true ∧ F32.sign (ofBinary16 h) = h.getLsbD 15 ∧
      F32.value (ofBinary16 h) = signFactor (h.getLsbD 15) * magnitudeValue 10 (-24) (h.toNat % 2 ^ 15) := by
  rw [ofBinary16_eq finite]
  have top := magnitudeValue_half_le finite
  generalize h.toNat % 2 ^ 15 = t at *
  generalize h.getLsbD 15 = neg
  have rounds : F32.Rounds (signFactor neg * magnitudeValue 10 (-24) t)
      (F32.round neg (mantissa 10 t) (-24 + binade 10 t)) := F32.round_rounds _ _ _
  have lt : |signFactor neg * magnitudeValue 10 (-24) t| < 2 ^ 128 - 2 ^ 103 := by
    rw [abs_mul, abs_signFactor, one_mul, abs_of_nonneg (magnitudeValue_nonneg _ _ _)]
    exact top.trans_lt (by norm_num)
  refine ⟨rounds.isFinite lt, F32.sign_round _ _ _, ?_⟩
  have small := mantissa_lt 10 t
  refine rounds.exact (k := if neg then -mantissa 10 t else mantissa 10 t) (i := 125 + binade 10 t) ?_ ?_ lt
  · split <;> simp <;> omega
  · have same : quantum (-24) (binade 10 t) = quantum (-149) (125 + binade 10 t) := by
      rw [quantum, quantum]; congr 1; push_cast; ring
    rw [magnitudeValue, same]
    cases neg <;> simp

/-- A binary32 with a finite half's value packs to that half. -/
theorem toBinary16_exact {x : F32} {t : Nat} (fits : t < 0x7C00) (value : |F32.value x| = magnitudeValue 10 (-24) t) :
    toBinary16 x = BitVec.ofNat 16 ((if F32.sign x then 2 ^ 15 else 0) + t) := by
  have magnitude : (F32.significand x : ℚ) * 2 ^ F32.exponent x = magnitudeValue 10 (-24) t := by
    rw [← value, F32.abs_value, F32.significand_eq, F32.two_zpow_exponent, magnitudeValue]
  have exact : roundPattern 11 (-24) 0x7C00 (F32.significand x) (F32.exponent x) = t := roundPattern_exact fits magnitude
  rw [toBinary16, exact]

/-- Within bounds that are no zeros a value is not changed by the clamp. -/
theorem fclamp_of_within {v lo hi : F32} (hv : F32.isFinite v = true) (hlo : F32.isFinite lo = true)
    (hhi : F32.isFinite hi = true) (lt : F32.order lo < F32.order hi) (nlo : F32.order lo ≠ 0) (nhi : F32.order hi ≠ 0)
    (above : F32.value lo ≤ F32.value v) (below : F32.value v ≤ F32.value hi) : fclamp v lo hi = v := by
  rw [← F32.order_le_order_iff] at above below
  rcases fclamp_cases (F32.isNaN_of_finite hv) (F32.isNaN_of_finite hlo) (F32.isNaN_of_finite hhi) lt with
    ⟨le, eq⟩ | ⟨ge, eq⟩ | ⟨-, -, eq⟩
  · rw [eq, F32.eq_of_order_eq (le.antisymm above) nlo]
  · rw [eq, F32.eq_of_order_eq (below.antisymm ge) nhi]
  · exact eq

/-- The bounds of a half field (40_canonical_model R96). -/
theorem value_halfMax : F32.value halfMax = 65504 := by
  have s : F32.signedSignificand halfMax = 16769024 := by decide
  have e : F32.exponent halfMax = -8 := by decide
  norm_num [F32.value, s, e]

theorem value_halfMin : F32.value halfMin = -65504 :=
  (F32.value_neg halfMax).trans (congrArg Neg.neg value_halfMax)

/-- A half is its sign and its magnitude. -/
theorem ofNat_sign_add_magnitude (h : BitVec 16) :
    BitVec.ofNat 16 ((if h.getLsbD 15 then 2 ^ 15 else 0) + h.toNat % 2 ^ 15) = h := by
  have sign : h.getLsbD 15 = decide (2 ^ 15 ≤ h.toNat) := BitVec.msb_eq_decide h
  apply BitVec.eq_of_toNat_eq
  rw [BitVec.toNat_ofNat, sign]
  simp only [decide_eq_true_eq]
  split <;> omega

/-- A half field packs back the finite pattern it unpacked to. -/
theorem packH_unpackH (u u' : BitVec 32) {h : BitVec 16} (finite : h.toNat % 2 ^ 15 < 0x7C00) :
    packH u (unpackH u' h) = h := by
  have number : isNaN16 h = false := by rw [isNaN16, decide_eq_false_iff_not]; omega
  obtain ⟨finite32, sign, value⟩ := ofBinary16_exact finite
  have magnitude : |F32.value (ofBinary16 h)| = magnitudeValue 10 (-24) (h.toNat % 2 ^ 15) := by
    rw [value, abs_mul, abs_signFactor, one_mul, abs_of_nonneg (magnitudeValue_nonneg _ _ _)]
  obtain ⟨low, high⟩ := abs_le.1 (magnitude.trans_le (magnitudeValue_half_le finite))
  have unclamped : fclamp (ofBinary16 h) halfMin halfMax = ofBinary16 h :=
    fclamp_of_within finite32 (by decide) (by decide) (by decide) (by decide) (by decide)
      (value_halfMin.trans_le low) (high.trans_eq value_halfMax.symm)
  rw [unpackH, if_neg (by simp [number]), packH_eq u (F32.isNaN_of_finite finite32), unclamped,
    toBinary16_exact finite magnitude, sign, ofNat_sign_add_magnitude]

end Sys2Proof.Machine
end

section
/-! PROOF. The family 40_canonical_model: a packed value survives unpacking and packing (40_canonical_model R106, R107).
The fields of a format tile its bits, each is unpacked into components of its own, and each packs back its own bits. -/

namespace Sys2Proof.Machine

/-! ## The layout of a format (41_codec_formats R120) -/

/-- The two channels share no component; luminance stands for the three colours. -/
def Channel.apart : Channel → Channel → Bool
  | .luma, .alpha | .alpha, .luma => true
  | .luma, _ | _, .luma => false
  | a, b => a != b

/-- The fields lie side by side, from bit `lo` up to bit `hi`. -/
def tiles : Nat → List Field → Nat → Bool
  | lo, [], hi => lo == hi
  | lo, fld :: rest, hi => fld.lo == lo && tiles (lo + fld.width) rest hi

/-- The widths the laws of the kinds are for (40_canonical_model R94 to R98). -/
def Field.legal (fld : Field) : Bool :=
  match fld.kind with
  | .unsigned => 0 < fld.width && fld.width ≤ 16
  | .luminance => fld.channel == .luma && 0 < fld.width && fld.width ≤ 16
  | .signed => 1 < fld.width && fld.width ≤ 16
  | .half => fld.width == 16
  | .float => fld.width == 32

theorem fields_tiles (f : Fmt) : tiles 0 (Fmt.fields f) (Fmt.bits f) = true := by cases f <;> decide

theorem fields_apart (f : Fmt) :
    (Fmt.fields f).Pairwise fun a b => Channel.apart b.channel a.channel = true := by cases f <;> decide

theorem fields_legal (f : Fmt) : ∀ fld ∈ Fmt.fields f, Field.legal fld = true := by cases f <;> decide

theorem fields_signed (f : Fmt) (signed : Fmt.isSigned f = true) : ∀ fld ∈ Fmt.fields f, fld.kind = .signed := by
  cases f <;> revert signed <;> decide

/-! ## Unpacking into components (41_codec_formats R121) -/

/-- Every component the channel stands for is `x`. -/
def Vec4.Reads (v : Vec4) (c : Channel) (x : F32) : Prop := v.component c = x ∧ (c = .luma → v.y = x ∧ v.z = x)

theorem setComponent_reads (v : Vec4) (c : Channel) (x : F32) : (v.setComponent c x).Reads c x := by
  cases c <;> simp [Vec4.Reads, Vec4.setComponent, Vec4.component]

/-- Writing a channel keeps the components of the channels apart from it. -/
theorem Vec4.Reads.setComponent {v : Vec4} {c : Channel} {x : F32} (h : v.Reads c x) {other : Channel}
    (apart : Channel.apart other c = true) (y : F32) : (v.setComponent other y).Reads c x := by
  revert h apart
  cases other <;> cases c <;> simp [Vec4.Reads, Vec4.setComponent, Vec4.component, Channel.apart]

/-- Writing fields keeps the components of a channel apart from all of theirs. -/
theorem Vec4.Reads.foldl_setComponent (g : Field → F32) {c : Channel} {x : F32} (fs : List Field)
    (apart : ∀ fld ∈ fs, Channel.apart fld.channel c = true) {v : Vec4} (h : v.Reads c x) :
    (fs.foldl (fun v fld => v.setComponent fld.channel (g fld)) v).Reads c x := by
  induction fs generalizing v with
  | nil => exact h
  | cons fld rest ih =>
    rw [List.forall_mem_cons] at apart
    exact ih apart.2 (h.setComponent apart.1 _)

/-- Each field is read into the components of its channel, and no other field changes them. -/
theorem foldl_setComponent_reads (g : Field → F32) {fs : List Field}
    (apart : fs.Pairwise fun a b => Channel.apart b.channel a.channel = true) (v : Vec4) {fld : Field} (mem : fld ∈ fs) :
    (fs.foldl (fun v fld => v.setComponent fld.channel (g fld)) v).Reads fld.channel (g fld) := by
  induction fs generalizing v with
  | nil => exact absurd mem (List.not_mem_nil)
  | cons head rest ih =>
    obtain ⟨from_head, tail⟩ := List.pairwise_cons.1 apart
    rcases List.mem_cons.1 mem with rfl | mem
    · exact (setComponent_reads v _ _).foldl_setComponent g rest from_head
    · exact ih tail _ mem

theorem toCanonical_reads (d : Draws) (f : Fmt) (p : Pixel) {fld : Field} (mem : fld ∈ Fmt.fields f) :
    (toCanonical d f p).Reads fld.channel (unpackField d p fld) :=
  foldl_setComponent_reads (unpackField d p) (fields_apart f) _ mem

/-- The scaled flavour of a signed format reads the scaled component (40_canonical_model R106). -/
theorem toScaled_reads (d : Draws) (f : Fmt) (p : Pixel) (signed : Fmt.isSigned f = true) {fld : Field}
    (mem : fld ∈ Fmt.fields f) : (toScaled d f p).Reads fld.channel (scaleUp (unpackField d p fld)) := by
  rw [toScaled, if_pos signed]
  exact foldl_setComponent_reads (fun fld => scaleUp (unpackField d p fld)) (fields_apart f) _ mem

/-! ## One field there and back (40_canonical_model R94 to R98) -/

/-- The bits of one field, where they stand in the packed value. -/
def fieldBits (p : Pixel) (fld : Field) : Pixel := (p.extractLsb' fld.lo fld.width).setWidth 128 <<< fld.lo

/-- A code that is not the most negative one is at most the greatest in magnitude. -/
theorem abs_toInt_le {w : Nat} (pos : 0 < w) {raw : BitVec w} (ne : raw.toNat ≠ 2 ^ (w - 1)) :
    |raw.toInt| ≤ (2 ^ (w - 1) - 1 : Nat) := by
  have double : 2 ^ w = 2 * 2 ^ (w - 1) := (mul_pow_sub_one pos.ne' 2).symm
  have lt := raw.isLt
  rw [BitVec.toInt_eq_toNat_cond, double, abs_le]
  rw [double] at lt
  split <;> omega

section
variable (du dp : Draws) (f : Fmt) {p : Pixel} (trips : RoundTrips f p) {fld : Field} (mem : fld ∈ Fmt.fields f)
include trips mem

theorem toNat_extract_signed (kind : fld.kind = .signed) :
    (p.extractLsb' fld.lo fld.width).toNat ≠ 2 ^ (fld.width - 1) := by
  rw [BitVec.extractLsb'_toNat, Nat.shiftRight_eq_div_pow]
  exact (trips.2 fld mem).1 kind

theorem toNat_extract_half (kind : fld.kind = .half) : (p.extractLsb' fld.lo 16).toNat % 2 ^ 15 < 0x7C00 := by
  have finite := (trips.2 fld mem).2 kind
  rw [Nat.pow_add, ← Nat.div_div_eq_div_mul] at finite
  rw [BitVec.extractLsb'_toNat, Nat.shiftRight_eq_div_pow]
  omega

/-- A field packs its own bits from a vector that reads it. -/
theorem packField_of_reads {v : Vec4} (reads : v.Reads fld.channel (unpackField du p fld)) :
    packField dp v fld = fieldBits p fld := by
  have legal := fields_legal f fld mem
  have signed := toNat_extract_signed f trips mem
  have half := toNat_extract_half f trips mem
  obtain ⟨channel, lo, width, kind⟩ := fld
  obtain ⟨component, grey⟩ := reads
  cases kind <;> simp only [Field.legal, Bool.and_eq_true, decide_eq_true_eq, beq_iff_eq] at legal <;>
    simp only [packField, fieldBits, unpackField] at component grey ⊢
  case unsigned => rw [component, packU_unpackU legal.1 legal.2]
  case signed =>
    rw [component, packS_unpackS legal.1 legal.2 _ (abs_toInt_le (by omega) (signed rfl))]
  case half =>
    subst legal
    rw [component, packH_unpackH _ _ (half rfl)]
  case float =>
    subst legal
    rw [component]
  case luminance =>
    obtain ⟨⟨rfl, pos⟩, small⟩ := legal
    obtain ⟨y, z⟩ := grey rfl
    rw [y, z, show v.x = _ from component, packL_unpackU pos small]

/-- A signed field packs its own bits from a vector that reads its scaled component (40_canonical_model R106). -/
theorem packField_of_reads_scaled (kind : fld.kind = .signed) {v : Vec4}
    (component : v.component fld.channel = scaleDown (scaleUp (unpackField du p fld))) :
    packField dp v fld = fieldBits p fld := by
  have legal := fields_legal f fld mem
  have signed := toNat_extract_signed f trips mem kind
  obtain ⟨channel, lo, width, kind⟩ := fld
  subst kind
  simp only [Field.legal, Bool.and_eq_true, decide_eq_true_eq] at legal
  simp only [packField, fieldBits, unpackField] at component ⊢
  rw [component, packS_scaled_unpackS legal.1 legal.2 _ (abs_toInt_le (by omega) signed)]

end

/-! ## All fields (41_codec_formats R122) -/

theorem getLsbD_fieldBits (p : Pixel) (fld : Field) {k : Nat} (lt : k < 128) :
    (fieldBits p fld).getLsbD k = (decide (fld.lo ≤ k) && decide (k < fld.lo + fld.width) && p.getLsbD k) := by
  rw [fieldBits, BitVec.getLsbD_shiftLeft, BitVec.getLsbD_setWidth, BitVec.getLsbD_extractLsb']
  rcases lt_or_ge k fld.lo with below | above
  · simp [below]
  · have inside : k - fld.lo < fld.width ↔ k < fld.lo + fld.width := by omega
    simp [above, lt, inside, show k - fld.lo < 128 by omega]

theorem tiles_le {lo hi : Nat} {fs : List Field} (tiled : tiles lo fs hi = true) : lo ≤ hi := by
  induction fs generalizing lo with
  | nil => exact (beq_iff_eq.1 tiled).le
  | cons fld rest ih => exact (Nat.le_add_right _ _).trans (ih (Bool.and_eq_true_iff.1 tiled).2)

/-- The bits of fields that tile a range are the bits of the value in it. -/
theorem getLsbD_foldl_fieldBits (p : Pixel) {lo hi : Nat} {fs : List Field} (tiled : tiles lo fs hi = true) (acc : Pixel)
    {k : Nat} (lt : k < 128) :
    (fs.foldl (fun q fld => q ||| fieldBits p fld) acc).getLsbD k =
      (acc.getLsbD k || (decide (lo ≤ k) && decide (k < hi) && p.getLsbD k)) := by
  induction fs generalizing lo acc with
  | nil =>
    have nothing : ¬ (lo ≤ k ∧ k < hi) := by have := beq_iff_eq.1 tiled; omega
    rw [← Bool.decide_and, decide_eq_false nothing, Bool.false_and, Bool.or_false, List.foldl_nil]
  | cons fld rest ih =>
    obtain ⟨place, tail⟩ := Bool.and_eq_true_iff.1 tiled
    have le := tiles_le tail
    have cover : lo ≤ k ∧ k < hi ↔ (lo ≤ k ∧ k < lo + fld.width) ∨ (lo + fld.width ≤ k ∧ k < hi) := by omega
    rw [List.foldl_cons, ih tail, BitVec.getLsbD_or, getLsbD_fieldBits p fld lt, beq_iff_eq.1 place, Bool.or_assoc,
      ← Bool.and_or_distrib_right, ← Bool.decide_and, ← Bool.decide_and, ← Bool.decide_and, ← Bool.decide_or,
      decide_eq_decide.2 cover]

/-- A vector from which every field packs its own bits packs to the packed value. -/
theorem fromCanonical_eq_self (d : Draws) (f : Fmt) {p : Pixel} (fits : p.toNat < 2 ^ Fmt.bits f) {v : Vec4}
    (fields : ∀ fld ∈ Fmt.fields f, packField d v fld = fieldBits p fld) : fromCanonical d f v = p := by
  have pieces : fromCanonical d f v = (Fmt.fields f).foldl (fun q fld => q ||| fieldBits p fld) 0 :=
    List.foldl_ext _ _ _ fun q fld mem => by rw [fields fld mem]
  apply BitVec.eq_of_getLsbD_eq
  intro k lt
  rw [pieces, getLsbD_foldl_fieldBits p (fields_tiles f) 0 lt]
  rcases lt_or_ge k (Fmt.bits f) with inside | outside
  · simp [inside]
  · have zero : p.getLsbD k = false := Nat.testBit_lt_two_pow (fits.trans_le (Nat.pow_le_pow_right two_pos outside))
    simp [zero]

/-- The vector that the scaled flavour of a signed format packs (40_canonical_model R106). -/
theorem component_scaleDown (v : Vec4) (c : Channel) :
    Vec4.component { x := scaleDown v.x, y := scaleDown v.y, z := scaleDown v.z, w := scaleDown v.w } c =
      scaleDown (v.component c) := by
  cases c <;> rfl

/-- Settles O55: every field packs its own bits, in both flavours. -/
theorem unpackThenPackIsTheIdentity : Obligations.UnpackThenPackIsTheIdentity := by
  intro du dp f p trips
  have native : fromCanonical dp f (toCanonical du f p) = p :=
    fromCanonical_eq_self dp f trips.1 fun _ mem => packField_of_reads du dp f trips mem (toCanonical_reads du f p mem)
  refine ⟨native, ?_⟩
  cases signed : Fmt.isSigned f
  · rw [fromScaled, toScaled, signed, if_neg Bool.false_ne_true, if_neg Bool.false_ne_true, native]
  · rw [fromScaled, if_pos signed]
    refine fromCanonical_eq_self dp f trips.1 fun fld mem =>
      packField_of_reads_scaled du dp f trips mem (fields_signed f signed fld mem) ?_
    rw [component_scaleDown, (toScaled_reads du f p signed mem).1]

end Sys2Proof.Machine
end

section
/-! PROOF. The family 40_canonical_model: the companding functions on the unit range, and the order of the modifiers
(40_canonical_model R99 to R103). -/

namespace Sys2Proof.Machine

/-! ## Companding (40_canonical_model R100) -/

/-- A pattern at or above zero in the order is -0, or its own magnitude. -/
theorem F32.eq_negZero_or_toNat_eq {c : F32} (low : 0 ≤ F32.order c) :
    c = F32.negZero ∨ c.toNat = F32.magnitude c := by
  rw [F32.order] at low
  cases sign : F32.sign c
  · rw [F32.sign_eq, decide_eq_false_iff_not] at sign
    exact .inr (Nat.mod_eq_of_lt (by omega)).symm
  · rw [sign, if_pos rfl] at low
    refine .inl (F32.ext_sign_magnitude (sign.trans (by decide)) ?_)
    rw [show F32.magnitude F32.negZero = 0 by decide]
    omega

/-- A small number is the pattern of its place. -/
theorem F32.order_ofNat {n : Nat} (lt : n < unitPatterns) :
    F32.order (BitVec.ofNat 32 n) = n ∧ F32.isNaN (BitVec.ofNat 32 n) = false := by
  have small : n < 0x3F800001 := lt
  have pattern : BitVec.ofNat 32 n = F32.ofMagnitude false n := by
    rw [F32.ofMagnitude, if_neg Bool.false_ne_true, Nat.zero_add, Nat.mod_eq_of_lt (by omega)]
  have magnitude : F32.magnitude (F32.ofMagnitude false n) = n := by
    rw [F32.magnitude_ofMagnitude, Nat.mod_eq_of_lt (by omega)]
  rw [pattern, F32.order, F32.sign_ofMagnitude, magnitude, if_neg Bool.false_ne_true, F32.isNaN, magnitude]
  exact ⟨rfl, decide_eq_false (by omega)⟩

theorem order_signedZero (neg : Bool) :
    F32.order (F32.signedZero neg) = 0 ∧ F32.isNaN (F32.signedZero neg) = false := by revert neg; decide

section
variable (unit : BoundedOrderHom (Fin unitPatterns) (Fin unitPatterns)) (zeroIsNeg : F32 → Bool) (outside : F32 → F32)

/-- A component in [0,1], -0 too, is companded to the place that the parameter gives for its magnitude; it is no NaN. -/
theorem order_compand {c : F32} (low : 0 ≤ F32.order c) (place : F32.magnitude c < unitPatterns) :
    F32.order (compand unit zeroIsNeg outside c) = (unit ⟨F32.magnitude c, place⟩).val ∧
      F32.isNaN (compand unit zeroIsNeg outside c) = false := by
  unfold compand
  split_ifs with negZero inside zero
  · subst negZero
    have bottom : unit ⟨F32.magnitude F32.negZero, place⟩ = ⊥ := map_bot unit
    rw [bottom]
    exact order_signedZero _
  all_goals have toNat := (F32.eq_negZero_or_toNat_eq low).resolve_left negZero
  · simp only [toNat] at zero
    rw [zero]
    exact order_signedZero _
  · simp only [toNat]
    exact F32.order_ofNat (Fin.isLt _)
  · exact absurd (toNat ▸ place) inside

/-- The companding functions on the unit range, whatever the parameter (40_canonical_model R100 P2, P3). -/
theorem compand_keeps_unit_range :
    let g := compand unit zeroIsNeg outside
    F32.isZero (g F32.zero) = true ∧ F32.isZero (g F32.negZero) = true ∧ g F32.one = F32.one ∧
    (∀ c, F32.isNaN c = false → 0 ≤ F32.order c → F32.order c ≤ F32.order F32.one →
      F32.isNaN (g c) = false ∧ 0 ≤ F32.order (g c) ∧ F32.order (g c) ≤ F32.order F32.one) ∧
    ∀ c e, F32.isNaN c = false → F32.isNaN e = false → 0 ≤ F32.order c → F32.order c ≤ F32.order e →
      F32.order e ≤ F32.order F32.one → F32.order (g c) ≤ F32.order (g e) := by
  have top : F32.order F32.one = (0x3F800000 : Nat) := by decide
  have place {c : F32} (low : 0 ≤ F32.order c) (high : F32.order c ≤ F32.order F32.one) :
      F32.magnitude c < 0x3F800001 := by rw [← F32.natAbs_order]; omega
  have zero {c : F32} (low : 0 ≤ F32.order c) (hc : F32.magnitude c = 0) :
      F32.isZero (compand unit zeroIsNeg outside c) = true := by
    obtain ⟨order, -⟩ := order_compand unit zeroIsNeg outside low (hc.trans_lt (by decide))
    have bottom : unit ⟨F32.magnitude c, hc.trans_lt (by decide)⟩ = ⊥ := by simp only [hc]; exact map_bot unit
    rw [F32.isZero_iff, ← F32.natAbs_order, order, bottom]
    rfl
  have one : compand unit zeroIsNeg outside F32.one = F32.one := by
    obtain ⟨order, -⟩ := order_compand unit zeroIsNeg outside (c := F32.one) (by decide) (by decide)
    have greatest : unit ⟨F32.magnitude F32.one, by decide⟩ = ⊤ := map_top unit
    refine F32.eq_of_order_eq ?_ (by decide)
    rw [order, greatest, top]
    rfl
  refine ⟨zero (by decide) (by decide), zero (by decide) (by decide), one, fun c _ low high => ?_,
    fun c e _ _ low le high => ?_⟩
  · obtain ⟨order, number⟩ := order_compand unit zeroIsNeg outside low (place low high)
    have := (unit ⟨F32.magnitude c, place low high⟩).isLt
    rw [order, top]
    exact ⟨number, Int.natCast_nonneg _, by exact_mod_cast Nat.le_of_lt_succ this⟩
  · obtain ⟨order_c, -⟩ := order_compand unit zeroIsNeg outside low (place low (le.trans high))
    obtain ⟨order_e, -⟩ := order_compand unit zeroIsNeg outside (low.trans le) (place (low.trans le) high)
    have magnitudes : F32.magnitude c ≤ F32.magnitude e := by
      rw [← F32.natAbs_order, ← F32.natAbs_order]; omega
    rw [order_c, order_e]
    exact_mod_cast OrderHomClass.mono unit (Fin.mk_le_mk.2 magnitudes)

end

/-- Settles O59: both functions are a monotone function of the places from 0 to 1. -/
theorem compandingKeepsTheUnitRange : Obligations.CompandingKeepsTheUnitRange := by
  intro g mem
  simp only [List.mem_cons, List.not_mem_nil, or_false] at mem
  rcases mem with rfl | rfl
  · exact compand_keeps_unit_range Config.srgbExpandUnit _ _
  · exact compand_keeps_unit_range Config.srgbCompressUnit _ _

/-! ## The modifiers (40_canonical_model R99, R101 to R103) -/

/-- The effective Scale bit: SRgbCompand brings Scale with it (40_canonical_model R99). -/
theorem and_five_eq_zero_iff (m : BitVec 3) : m &&& 5 = 0 ↔ (Modifiers.ofField m).effective.scale = false := by
  revert m; decide

theorem and_six_eq_zero_iff (m : BitVec 3) : m &&& 6 = 0 ↔ m.getLsbD 1 = false ∧ m.getLsbD 2 = false := by
  revert m; decide

/-- The unpacked vector, in the flavour that the modifiers select. -/
def unpackFlavour (d : Draws) (f : Fmt) (p : Pixel) (m : BitVec 3) : Vec4 :=
  if m &&& 5 = 0 then toCanonical d f p else toScaled d f p

/-- The packed value, in the flavour that the modifiers select. -/
def packFlavour (d : Draws) (f : Fmt) (m : BitVec 3) (v : Vec4) : Pixel :=
  if m &&& 5 = 0 then fromCanonical d f v else fromScaled d f v

/-- Companding of a component where the modifiers ask for it. -/
def compandUnder (h : F32 → F32) (m : BitVec 3) (c : F32) : F32 := if m.getLsbD 2 then h c else c

/-- Division of a component by alpha where the modifiers ask for it and alpha is no zero. -/
def divideUnder (m : BitVec 3) (alpha c : F32) : F32 := if m.getLsbD 1 && !F32.isZero alpha then fdiv c alpha else c

/-- The companded vector, where the modifiers ask for it. -/
def compandVec (h : F32 → F32) (d : Draws) (m : BitVec 3) (v : Vec4) : Vec4 :=
  if m.getLsbD 2 then compandColour h d v else v

/-- The vector divided by its alpha, where the modifiers ask for it. -/
def divideVec (da : Draws) (m : BitVec 3) (v : Vec4) : Vec4 := if m.getLsbD 1 then unpremultiply da v else v

/-- Forward: the flavour, expansion, the product with alpha (40_canonical_model R102). -/
theorem toVector4Elem_eq (du da : Draws) (f : Fmt) (p : Pixel) (m : BitVec 3) :
    toVector4Elem du da f p m =
      if m.getLsbD 1 then premultiply da (compandVec srgbExpand da m (unpackFlavour du f p m))
      else compandVec srgbExpand da m (unpackFlavour du f p m) := by
  have flavour : unpackFlavour du f p m =
      if (Modifiers.ofField m).effective.scale then toScaled du f p else toCanonical du f p := by
    simp only [unpackFlavour, and_five_eq_zero_iff]
    cases (Modifiers.ofField m).effective.scale <;> rfl
  rw [flavour]
  rfl

/-- Backward: the quotient by alpha, compression, the flavour (40_canonical_model R103). -/
theorem fromVector4Elem_eq (da dp : Draws) (f : Fmt) (v : Vec4) (m : BitVec 3) :
    fromVector4Elem da dp f v m = packFlavour dp f m (compandVec srgbCompress da m (divideVec da m v)) := by
  have flavour (x : Vec4) : packFlavour dp f m x =
      if (Modifiers.ofField m).effective.scale then fromScaled dp f x else fromCanonical dp f x := by
    simp only [packFlavour, and_five_eq_zero_iff]
    cases (Modifiers.ofField m).effective.scale <;> rfl
  rw [flavour]
  rfl

/-- A function of the colours acts on each of them, with a free word of its own. -/
theorem colour_mapColour {g : Vec4 → F32} (mem : g ∈ [Vec4.x, Vec4.y, Vec4.z]) (d : Draws) (slot : Nat)
    (f : BitVec 32 → F32 → F32) (v : Vec4) : ∃ u, g (v.mapColour d slot f) = f u (g v) := by
  simp only [List.mem_cons, List.not_mem_nil, or_false] at mem
  rcases mem with rfl | rfl | rfl <;> exact ⟨_, rfl⟩

section
variable {g : Vec4 → F32} (mem : g ∈ [Vec4.x, Vec4.y, Vec4.z]) (d : Draws) (v : Vec4) (number : F32.isNaN (g v) = false)
include mem number

/-- Companding of a colour that is no NaN. -/
theorem colour_compandColour (h : F32 → F32) : g (compandColour h d v) = h (g v) := by
  obtain ⟨u, eq⟩ := colour_mapColour mem d 0 (compandComponent h) v
  rw [compandColour, eq, compandComponent_of_not_nan h u number]

/-- The product of a colour with alpha, where it is no NaN, and where it is one. -/
theorem colour_premultiply (alpha : F32.isNaN v.w = false) :
    (F32.isNaN (fmul (g v) v.w) = false → g (premultiply d v) = fmul (g v) v.w) ∧
      (F32.isNaN (fmul (g v) v.w) = true → F32.isNaN (g (premultiply d v)) = true) := by
  obtain ⟨u, eq⟩ := colour_mapColour mem d 4 (alphaComponent fmul v.w) v
  rw [premultiply, eq]
  exact ⟨alphaComponent_of_not_nan fmul u number alpha, alphaComponent_invalid fmul u number alpha⟩

/-- The quotient of a colour by alpha, where it is no NaN. -/
theorem colour_divideVec (m : BitVec 3) (quotient : F32.isNaN (divideUnder m v.w (g v)) = false) :
    g (divideVec d m v) = divideUnder m v.w (g v) := by
  rw [divideVec]
  rw [divideUnder] at quotient ⊢
  cases divide : m.getLsbD 1
  · rfl
  cases zero : F32.isZero v.w
  · simp only [divide, zero, Bool.not_false, Bool.and_self, if_true] at quotient ⊢
    have alpha : F32.isNaN v.w = false := Bool.eq_false_iff.2 fun nan =>
      absurd (isNaN_of_nan_operand (.inr nan) (by simp)) (Bool.eq_false_iff.1 quotient)
    obtain ⟨u, eq⟩ := colour_mapColour mem d 4 (alphaComponent fdiv v.w) v
    rw [unpremultiply, zero, if_neg Bool.false_ne_true, eq, alphaComponent_of_not_nan fdiv u number alpha quotient]
  · simp [unpremultiply, zero]

theorem colour_compandVec (h : F32 → F32) (m : BitVec 3) : g (compandVec h d m v) = compandUnder h m (g v) := by
  rw [compandVec, compandUnder, ← colour_compandColour mem d v number h]
  split <;> rfl

end

@[simp] theorem compandVec_w (h : F32 → F32) (d : Draws) (m : BitVec 3) (v : Vec4) :
    (compandVec h d m v).w = v.w := by
  unfold compandVec; split <;> rfl

@[simp] theorem divideVec_w (d : Draws) (m : BitVec 3) (v : Vec4) : (divideVec d m v).w = v.w := by
  unfold divideVec; split <;> simp

section
variable (du da dp : Draws) (f : Fmt) (p : Pixel) (m : BitVec 3)

theorem toVector4Elem_w : (toVector4Elem du da f p m).w = (unpackFlavour du f p m).w := by
  rw [toVector4Elem_eq]
  split <;> simp [premultiply]

theorem toVector4Elem_of_none (none : m &&& 6 = 0) : toVector4Elem du da f p m = unpackFlavour du f p m := by
  obtain ⟨multiply, expand⟩ := (and_six_eq_zero_iff m).1 none
  rw [toVector4Elem_eq, compandVec, multiply, expand]
  rfl

/-- A colour forward: expanded, then multiplied by alpha (40_canonical_model R102). -/
theorem colour_toVector4Elem {g : Vec4 → F32} (mem : g ∈ [Vec4.x, Vec4.y, Vec4.z]) {u : Vec4}
    (hu : unpackFlavour du f p m = u) (number : F32.isNaN (g u) = false) :
    (m.getLsbD 1 = false → g (toVector4Elem du da f p m) = compandUnder srgbExpand m (g u)) ∧
    (m.getLsbD 1 = true → F32.isNaN u.w = false → F32.isNaN (compandUnder srgbExpand m (g u)) = false →
      (F32.isNaN (fmul (compandUnder srgbExpand m (g u)) u.w) = false →
        g (toVector4Elem du da f p m) = fmul (compandUnder srgbExpand m (g u)) u.w) ∧
      (F32.isNaN (fmul (compandUnder srgbExpand m (g u)) u.w) = true →
        F32.isNaN (g (toVector4Elem du da f p m)) = true)) := by
  have expanded := colour_compandVec mem da u number srgbExpand m
  rw [toVector4Elem_eq, hu, ← expanded, ← compandVec_w srgbExpand da m u]
  refine ⟨fun off => by rw [off]; rfl, fun on alpha num => ?_⟩
  rw [on, if_pos rfl]
  exact colour_premultiply mem da _ num alpha

theorem fromVector4Elem_of_none (v : Vec4) (none : m &&& 6 = 0) : fromVector4Elem da dp f v m = packFlavour dp f m v := by
  obtain ⟨divide, compress⟩ := (and_six_eq_zero_iff m).1 none
  rw [fromVector4Elem_eq, compandVec, divideVec, divide, compress]
  rfl

/-- The colours backward: divided by alpha, then compressed, then packed (40_canonical_model R103). -/
theorem fromVector4Elem_of_numbers (v : Vec4)
    (numbers : ∀ g ∈ [Vec4.x, Vec4.y, Vec4.z],
      F32.isNaN (g v) = false ∧ F32.isNaN (divideUnder m v.w (g v)) = false) :
    fromVector4Elem da dp f v m = packFlavour dp f m
      { x := compandUnder srgbCompress m (divideUnder m v.w v.x), y := compandUnder srgbCompress m (divideUnder m v.w v.y),
        z := compandUnder srgbCompress m (divideUnder m v.w v.z), w := v.w } := by
  have colour {g : Vec4 → F32} (mem : g ∈ [Vec4.x, Vec4.y, Vec4.z]) :
      g (compandVec srgbCompress da m (divideVec da m v)) = compandUnder srgbCompress m (divideUnder m v.w (g v)) := by
    obtain ⟨number, quotient⟩ := numbers g mem
    have divided := colour_divideVec mem da v number m quotient
    rw [colour_compandVec mem da _ (by rwa [divided]), divided]
  rw [fromVector4Elem_eq, ← colour (g := Vec4.x) (by simp), ← colour (g := Vec4.y) (by simp),
    ← colour (g := Vec4.z) (by simp), ← divideVec_w da m v, ← compandVec_w srgbCompress da m (divideVec da m v)]

end

/-- Settles O60: forward and backward the modifiers are applied one after the other, and each acts on a colour that is no
NaN as its function does. -/
theorem modifiersApplyInOrder : Obligations.ModifiersApplyInOrder := fun du da dp f p v m =>
  ⟨toVector4Elem_w du da f p m, toVector4Elem_of_none du da f p m,
    fun _ mem number => colour_toVector4Elem du da f p m mem rfl number,
    fromVector4Elem_of_none da dp f m v, fromVector4Elem_of_numbers da dp f m v⟩

end Sys2Proof.Machine
end

section
/-! PROOF. The family 41_codec_formats: a packed value holds the code of every field at the field's bits and nothing else,
and a component within the range of binary16 packs to the nearest half (41_codec_formats R122; 40_canonical_model R94 to
R98, R106). -/

namespace Sys2Proof.Machine

/-! ## Binary16: sign, magnitude, value (40_canonical_model R96) -/

theorem halfExponent_eq (h : BitVec 16) : halfExponent h = h.toNat % 2 ^ 15 / 2 ^ 10 := by rw [halfExponent]; omega

/-- A half is finite where its magnitude lies below that of the infinity. -/
theorem halfExponent_ne_iff (h : BitVec 16) : halfExponent h ≠ 31 ↔ h.toNat % 2 ^ 15 < 0x7C00 := by
  rw [halfExponent_eq]; omega

/-- The value of a half is that of its magnitude, with its sign. -/
theorem halfValue_eq (h : BitVec 16) :
    halfValue h = signFactor (h.getLsbD 15) * magnitudeValue 10 (-24) (h.toNat % 2 ^ 15) := by
  have fraction : h.toNat % 2 ^ 10 = h.toNat % 2 ^ 15 % 2 ^ 10 := by omega
  rw [halfValue, signFactor, halfExponent_eq, fraction]
  generalize h.toNat % 2 ^ 15 = t
  congr 1
  split_ifs with subnormal
  · have zero : binade 10 t = 0 := by rw [binade]; omega
    have digits : mantissa 10 t = t % 2 ^ 10 := by rw [mantissa, zero]; omega
    rw [magnitudeValue, digits, zero, quantum, Nat.cast_zero, add_zero]
  · have place : ((t / 2 ^ 10 : Nat) : Int) - 25 = -24 + binade 10 t := by rw [binade]; omega
    have digits : mantissa 10 t = t % 2 ^ 10 + 2 ^ 10 := by rw [mantissa, binade]; omega
    rw [magnitudeValue, digits, place, quantum]

section
variable (neg : Bool) {t : Nat} (lt : t < 2 ^ 15)
include lt

theorem toNat_half : (BitVec.ofNat 16 ((if neg then 2 ^ 15 else 0) + t)).toNat = (if neg then 2 ^ 15 else 0) + t := by
  rw [BitVec.toNat_ofNat, Nat.mod_eq_of_lt (by split <;> omega)]

theorem getLsbD_half_sign : (BitVec.ofNat 16 ((if neg then 2 ^ 15 else 0) + t)).getLsbD 15 = neg := by
  have sign (h : BitVec 16) : h.getLsbD 15 = decide (2 ^ 15 ≤ h.toNat) := BitVec.msb_eq_decide h
  rw [sign, toNat_half neg lt]
  cases neg <;> simp
  omega

theorem toNat_half_mod : (BitVec.ofNat 16 ((if neg then 2 ^ 15 else 0) + t)).toNat % 2 ^ 15 = t := by
  rw [toNat_half neg lt]
  split <;> omega

end

/-! ## Packing to the nearest half (40_canonical_model R96) -/

/-- A half's value with its sign flipped or not, as a signed number of quanta. -/
theorem signFactor_mul_halfValue (neg : Bool) (h : BitVec 16) :
    ∃ k : Int, |k| < 2 ^ (10 + 1) ∧
      signFactor neg * halfValue h = k * quantum (-24) (binade 10 (h.toNat % 2 ^ 15)) := by
  have lt := mantissa_lt 10 (h.toNat % 2 ^ 15)
  rw [halfValue_eq, magnitudeValue, ← mul_assoc, ← mul_assoc, ← signFactor_xor]
  refine ⟨(if neg != h.getLsbD 15 then -1 else 1) * mantissa 10 (h.toNat % 2 ^ 15), ?_, ?_⟩
  · rw [abs_mul, Nat.abs_cast]
    split <;> simp <;> omega
  · rw [signFactor]
    push_cast
    rfl

/-- `toBinary16` rounds the magnitude, and keeps the sign; within ±65504 it does not overflow. -/
theorem toBinary16_roundedAt {c : F32} (within : |F32.value c| ≤ 65504) :
    ∃ j n, RoundedAt 10 (-24) |F32.value c| j n ∧ j * 2 ^ 10 + n < 0x7C00 ∧
      toBinary16 c = BitVec.ofNat 16 ((if F32.sign c then 2 ^ 15 else 0) + (j * 2 ^ 10 + n)) := by
  obtain ⟨j, n, rounded, pattern⟩ :=
    roundPattern_roundedAt 10 (-24) 0x7C00 (F32.significand c) (F32.exponent c)
  have magnitude : (F32.significand c : ℚ) * 2 ^ F32.exponent c = |F32.value c| := by
    rw [F32.abs_value, F32.significand_eq, F32.two_zpow_exponent, magnitudeValue]
  rw [magnitude] at rounded
  have fits : j * 2 ^ 10 + n < 0x7C00 :=
    rounded.lt_of_lt (J := 29) (within.trans_lt (by norm_num [quantum]))
  exact ⟨j, n, rounded, fits, by rw [toBinary16, pattern, min_eq_left fits.le]⟩

/-- Within ±65504 a binary32 is packed to the nearest half, of two as near the even one, with its sign. -/
theorem toBinary16_nearest {c : F32} (within : |F32.value c| ≤ 65504) :
    NearestHalf (F32.value c) (toBinary16 c) ∧ (toBinary16 c).getLsbD 15 = F32.sign c := by
  obtain ⟨j, n, rounded, fits, eq⟩ := toBinary16_roundedAt within
  have lt : j * 2 ^ 10 + n < 2 ^ 15 := fits.trans (by norm_num)
  have sign : (toBinary16 c).getLsbD 15 = F32.sign c := by rw [eq, getLsbD_half_sign _ lt]
  have mag : (toBinary16 c).toNat % 2 ^ 15 = j * 2 ^ 10 + n := by rw [eq, toNat_half_mod _ lt]
  refine ⟨⟨by rwa [halfExponent_ne_iff, mag], fun h _ => ?_⟩, sign⟩
  have unsign (q : ℚ) : |q - F32.value c| = |signFactor (F32.sign c) * q - (|F32.value c|)| := by
    conv_rhs => rw [← one_mul |F32.value c|, ← signFactor_mul_self (F32.sign c), mul_assoc,
      ← F32.value_eq_signFactor_mul_abs, ← mul_sub, abs_mul, abs_signFactor, one_mul]
  have result : signFactor (F32.sign c) * halfValue (toBinary16 c) = n * quantum (-24) j := by
    rw [halfValue_eq, sign, mag, rounded.value, ← mul_assoc, signFactor_mul_self, one_mul]
  obtain ⟨k, hk, value⟩ := signFactor_mul_halfValue (F32.sign c) h
  obtain ⟨near, even⟩ := rounded.closest (i := binade 10 (h.toNat % 2 ^ 15)) hk
  rw [unsign, unsign, result, value]
  refine ⟨near, fun tie ne => ?_⟩
  have other : (k : ℚ) * quantum (-24) (binade 10 (h.toNat % 2 ^ 15)) ≠ n * quantum (-24) j := fun same =>
    ne (mul_left_cancel₀ (by cases F32.sign c <;> simp : signFactor (F32.sign c) ≠ 0) (by rw [value, result, same]))
  have last := Nat.even_iff.1 (even tie other)
  rw [BitVec.getLsbD, Nat.testBit_zero, decide_eq_false_iff_not]
  omega

/-- A half field packs a component within ±65504 unclamped. -/
theorem packH_of_within (u : BitVec 32) {c : F32} (finite : F32.isFinite c = true) (within : |F32.value c| ≤ 65504) :
    packH u c = toBinary16 c := by
  obtain ⟨low, high⟩ := abs_le.1 within
  rw [packH_eq u (F32.isNaN_of_finite finite), fclamp_of_within finite (by decide) (by decide) (by decide) (by decide)
    (by decide) (value_halfMin.trans_le low) (high.trans_eq value_halfMax.symm)]

/-- A luminance field packs the weighted sum of the clamped colours (40_canonical_model R98). -/
theorem packL_eq (u : BitVec 32) {r g b : F32} (hr : F32.isNaN r = false) (hg : F32.isNaN g = false)
    (hb : F32.isNaN b = false) (w : Nat) : packL u r g b w = packU u (luma r g b) w := if_neg (by simp [hr, hg, hb])

/-! ## Fields that tile a range (41_codec_formats R120) -/

/-- Bit `k` is one of the field's. -/
def Field.Covers (fld : Field) (k : Nat) : Prop := fld.lo ≤ k ∧ k < fld.lo + fld.width

theorem tiles_covers {lo hi : Nat} {fs : List Field} (tiled : tiles lo fs hi = true) {fld : Field} (mem : fld ∈ fs)
    {k : Nat} (covers : fld.Covers k) : lo ≤ k ∧ k < hi := by
  induction fs generalizing lo with
  | nil => exact absurd mem List.not_mem_nil
  | cons head rest ih =>
    obtain ⟨place, tail⟩ := Bool.and_eq_true_iff.1 tiled
    have start := beq_iff_eq.1 place
    rcases List.mem_cons.1 mem with rfl | mem
    · exact ⟨start ▸ covers.1, covers.2.trans_le (start ▸ tiles_le tail)⟩
    · exact (ih tail mem).imp_left (Nat.le_add_right _ _).trans

/-- No bit is in two fields. -/
theorem tiles_unique {lo hi : Nat} {fs : List Field} (tiled : tiles lo fs hi = true) {a b : Field} (ha : a ∈ fs)
    (hb : b ∈ fs) {k : Nat} (ca : a.Covers k) (cb : b.Covers k) : a = b := by
  induction fs generalizing lo with
  | nil => exact absurd ha List.not_mem_nil
  | cons head rest ih =>
    obtain ⟨place, tail⟩ := Bool.and_eq_true_iff.1 tiled
    have start := beq_iff_eq.1 place
    have beyond {other : Field} (mem : other ∈ rest) (co : other.Covers k) : ¬ head.Covers k := fun ch =>
      absurd ((start ▸ (tiles_covers tail mem co).1).trans_lt ch.2) (lt_irrefl _)
    rcases List.mem_cons.1 ha with rfl | ra <;> rcases List.mem_cons.1 hb with rfl | rb
    · rfl
    · exact absurd ca (beyond rb cb)
    · exact absurd cb (beyond ra ca)
    · exact ih tail ra rb

/-! ## The code of a field and its place (41_codec_formats R122) -/

/-- The code a vector packs to in a field, by the field's law (40_canonical_model R94 to R98). -/
def Field.code (d : Draws) (v : Vec4) (fld : Field) : Nat :=
  match fld.kind with
  | .unsigned => (packU (d fld.channel.slot) (v.component fld.channel) fld.width).toNat
  | .luminance => (packL (d fld.channel.slot) v.x v.y v.z fld.width).toNat
  | .signed => (packS (d fld.channel.slot) (v.component fld.channel) fld.width).toNat
  | .half => (packH (d fld.channel.slot) (v.component fld.channel)).toNat
  | .float => (v.component fld.channel).toNat

/-- `packField` is the code, shifted to the field's bits. -/
theorem packField_eq_code (d : Draws) (v : Vec4) (fld : Field) :
    packField d v fld = BitVec.ofNat 128 (fld.code d v) <<< fld.lo := by
  unfold packField Field.code
  cases fld.kind <;> simp only [BitVec.ofNat_toNat]

section
variable (d : Draws) (v : Vec4) {fld : Field} (legal : fld.legal = true)
include legal

/-- A code fits its field. -/
theorem code_lt : fld.code d v < 2 ^ fld.width := by
  unfold Field.legal at legal
  unfold Field.code
  cases kind : fld.kind <;> rw [kind] at legal <;> simp only
  case half | float => rw [beq_iff_eq.1 legal]; exact BitVec.isLt _
  all_goals exact BitVec.isLt _

/-- The bits a field sets are its own. -/
theorem covers_of_getLsbD_packField {k : Nat} (bit : (packField d v fld).getLsbD k = true) : fld.Covers k := by
  rw [packField_eq_code, BitVec.getLsbD_shiftLeft, BitVec.getLsbD_ofNat] at bit
  simp only [Bool.and_eq_true, Bool.not_eq_true', decide_eq_true_eq, decide_eq_false_iff_not, not_lt] at bit
  obtain ⟨⟨-, above⟩, -, set⟩ := bit
  refine ⟨above, ?_⟩
  by_contra! beyond
  have clear := Nat.testBit_lt_two_pow ((code_lt d v legal).trans_le (Nat.pow_le_pow_right two_pos
    (show fld.width ≤ k - fld.lo by omega)))
  exact Bool.false_ne_true (clear.symm.trans set)

end

/-! ## All fields (41_codec_formats R122) -/

theorem bits_le (f : Fmt) : Fmt.bits f ≤ 128 := by cases f <;> decide

/-- A bit of fields put together is a bit of one of them. -/
theorem getLsbD_foldl_or (g : Field → Pixel) (fs : List Field) (acc : Pixel) (k : Nat) :
    (fs.foldl (fun p fld => p ||| g fld) acc).getLsbD k = true ↔
      acc.getLsbD k = true ∨ ∃ fld ∈ fs, (g fld).getLsbD k = true := by
  induction fs generalizing acc with
  | nil => simp
  | cons fld rest ih => simp [ih, or_assoc]

theorem getLsbD_fromCanonical (d : Draws) (f : Fmt) (v : Vec4) (k : Nat) :
    (fromCanonical d f v).getLsbD k = true ↔ ∃ fld ∈ Fmt.fields f, (packField d v fld).getLsbD k = true := by
  rw [fromCanonical, getLsbD_foldl_or]
  simp

/-- No bit stands outside the format. -/
theorem toNat_fromCanonical_lt (d : Draws) (f : Fmt) (v : Vec4) : (fromCanonical d f v).toNat < 2 ^ Fmt.bits f := by
  refine Nat.lt_pow_two_of_testBit _ fun k outside => ?_
  rw [← Bool.not_eq_true]
  intro bit
  obtain ⟨fld, mem, set⟩ := (getLsbD_fromCanonical d f v k).1 bit
  have inside := tiles_covers (fields_tiles f) mem (covers_of_getLsbD_packField d v (fields_legal f fld mem) set)
  omega

/-- At the bits of a field only that field sets bits. -/
theorem getLsbD_fromCanonical_of_covers (d : Draws) (f : Fmt) (v : Vec4) {fld : Field} (mem : fld ∈ Fmt.fields f)
    {k : Nat} (covers : fld.Covers k) : (fromCanonical d f v).getLsbD k = (packField d v fld).getLsbD k := by
  rw [Bool.eq_iff_iff, getLsbD_fromCanonical]
  refine ⟨fun ⟨other, mem', set⟩ => ?_, fun set => ⟨fld, mem, set⟩⟩
  have same := tiles_unique (fields_tiles f) mem' mem
    (covers_of_getLsbD_packField d v (fields_legal f other mem') set) covers
  rwa [← same]

/-- The bits of a field hold its code. -/
theorem fromCanonical_field (d : Draws) (f : Fmt) (v : Vec4) {fld : Field} (mem : fld ∈ Fmt.fields f) :
    (fromCanonical d f v).toNat / 2 ^ fld.lo % 2 ^ fld.width = fld.code d v := by
  refine Nat.eq_of_testBit_eq fun i => ?_
  rw [Nat.testBit_mod_two_pow, Nat.testBit_div_two_pow]
  rcases lt_or_ge i fld.width with inside | outside
  · have covers : fld.Covers (i + fld.lo) := ⟨Nat.le_add_left _ _, by omega⟩
    have top : i + fld.lo < 128 := (tiles_covers (fields_tiles f) mem covers).2.trans_le (bits_le f)
    have bit := getLsbD_fromCanonical_of_covers d f v mem covers
    rw [packField_eq_code, BitVec.getLsbD_shiftLeft, BitVec.getLsbD_ofNat, Nat.add_sub_cancel] at bit
    rw [← BitVec.getLsbD, bit]
    simp [inside, top, show i < 128 by omega]
  · rw [Nat.testBit_lt_two_pow ((code_lt d v (fields_legal f fld mem)).trans_le (Nat.pow_le_pow_right two_pos outside))]
    simp [outside]

/-! ## The scaled flavour (40_canonical_model R106) -/

/-- All fields of a signed format are signed, and no others. -/
theorem field_signed_iff (f : Fmt) : ∀ fld ∈ Fmt.fields f, fld.kind = .signed ↔ Fmt.isSigned f = true := by
  cases f <;> decide

theorem fields_ne_nil (f : Fmt) : Fmt.fields f ≠ [] := by cases f <;> decide

theorem isSigned_of_fields {f : Fmt} (signed : ∀ fld ∈ Fmt.fields f, fld.kind = .signed) : Fmt.isSigned f = true := by
  obtain ⟨fld, mem⟩ := List.exists_mem_of_ne_nil _ (fields_ne_nil f)
  exact (field_signed_iff f fld mem).1 (signed fld mem)

theorem not_isSigned_of_fields {f : Fmt} (other : ∀ fld ∈ Fmt.fields f, fld.kind ≠ .signed) :
    ¬ Fmt.isSigned f = true := by
  obtain ⟨fld, mem⟩ := List.exists_mem_of_ne_nil _ (fields_ne_nil f)
  exact fun signed => other fld mem ((field_signed_iff f fld mem).2 signed)

/-- Settles O53: the fields tile the bits of the format and each sets its own bits only, so that they hold its code; a
component within ±65504 is not clamped, and one rounding of its magnitude gives the nearest half. -/
theorem packedFieldsHoldTheirCodes : Obligations.PackedFieldsHoldTheirCodes := by
  intro d f v
  refine ⟨toNat_fromCanonical_lt d f v, fun fld mem => ?_, fun u c w number => ?_, fun u c finite within => ?_,
    fun u r g b w hr hg hb => packL_eq u hr hg hb w, fun signed => if_pos (isSigned_of_fields signed),
    fun other => if_neg (not_isSigned_of_fields other)⟩
  · dsimp only
    rw [fromCanonical_field d f v mem]
    refine ⟨fun kind => ?_, fun kind => ?_, fun kind => ?_, fun kind => ?_, fun kind => ?_⟩ <;> rw [Field.code, kind]
  · exact ⟨packU_eq u number w, packS_eq u number w, packH_eq u number⟩
  · rw [packH_of_within u finite within]
    exact toBinary16_nearest within

end Sys2Proof.Machine
end

section
/-! PROOF. The family 41_codec_formats: every field is read into its component, a component without a field has its fixed
value, and a half pattern unpacks to its own value (41_codec_formats R121; 40_canonical_model R93 to R98, R106). -/

namespace Sys2Proof.Machine

/-! ## Components without a field (40_canonical_model R93) -/

/-- A component apart from every field keeps its value of `Vec4.absent`, in both flavours. -/
theorem reads_absent (d : Draws) (f : Fmt) (p : Pixel) {w : Vec4} (flavour : w ∈ [toCanonical d f p, toScaled d f p])
    {c : Channel} {x : F32} (absent : Vec4.absent.Reads c x)
    (apart : ∀ fld ∈ Fmt.fields f, Channel.apart fld.channel c = true) : w.Reads c x := by
  have native : (toCanonical d f p).Reads c x := absent.foldl_setComponent (unpackField d p) _ apart
  simp only [List.mem_cons, List.not_mem_nil, or_false] at flavour
  rcases flavour with rfl | rfl
  · exact native
  · rw [toScaled]
    split
    · exact absent.foldl_setComponent (fun fld => scaleUp (unpackField d p fld)) _ apart
    · exact native

theorem apart_colour {c colour : Channel} (mem : colour ∈ [Channel.red, .green, .blue])
    (ne : c ≠ colour ∧ c ≠ .luma) : Channel.apart c colour = true := by
  cases colour <;> cases c <;> simp [Channel.apart] at mem ne ⊢

theorem apart_alpha {c : Channel} (ne : c ≠ .alpha) : Channel.apart c .alpha = true := by
  cases c <;> simp [Channel.apart] at ne ⊢

/-! ## Fields (40_canonical_model R94 to R98) -/

theorem channel_of_luminance {f : Fmt} {fld : Field} (mem : fld ∈ Fmt.fields f) (kind : fld.kind = .luminance) :
    fld.channel = .luma := by
  have legal := fields_legal f fld mem
  rw [Field.legal, kind] at legal
  simp only [Bool.and_eq_true, beq_iff_eq] at legal
  exact legal.1.1

/-! ## Half patterns (40_canonical_model R96) -/

section
variable (u : BitVec 32) {h : BitVec 16}

theorem unpackH_of_number (number : h.toNat % 2 ^ 15 ≤ 0x7C00) : unpackH u h = ofBinary16 h :=
  if_neg (by rwa [isNaN16, decide_eq_true_eq, gt_iff_lt, not_lt])

/-- A finite half unpacks to its value, with its sign. -/
theorem unpackH_of_finite (finite : halfExponent h ≠ 31) :
    F32.isFinite (unpackH u h) = true ∧ F32.value (unpackH u h) = halfValue h ∧
      F32.sign (unpackH u h) = h.getLsbD 15 := by
  rw [halfExponent_ne_iff] at finite
  obtain ⟨finite32, sign, value⟩ := ofBinary16_exact finite
  rw [unpackH_of_number u finite.le, halfValue_eq]
  exact ⟨finite32, value, sign⟩

/-- An infinity unpacks to the infinity of its sign. -/
theorem unpackH_of_inf (inf : h.toNat % 2 ^ 15 = 0x7C00) :
    unpackH u h = if h.getLsbD 15 then 0xFF800000 else 0x7F800000 := by
  rw [unpackH_of_number u inf.le, ← F32.ofMagnitude_inf, ofBinary16, inf]
  rfl

/-- A NaN unpacks to a NaN. -/
theorem unpackH_of_nan (nan : 0x7C00 < h.toNat % 2 ^ 15) : F32.isNaN (unpackH u h) = true := by
  rw [unpackH, if_pos (show isNaN16 h = true from decide_eq_true nan), drawNaN_isNaN]

end

/-- Settles O54: a component is read from the field of its channel and from no other; without such a field it keeps the
value the unpacking starts from. -/
theorem unpackedComponentsReadTheirFields : Obligations.UnpackedComponentsReadTheirFields := by
  intro d f p
  refine ⟨fun fld mem => ?_, fun w flavour => ⟨fun none => ?_, fun none => ?_, fun none => ?_, fun none => ?_⟩,
    fun other => if_neg (not_isSigned_of_fields other),
    fun u h => ⟨unpackH_of_finite u, unpackH_of_inf u, unpackH_of_nan u⟩⟩
  · obtain ⟨component, grey⟩ := toCanonical_reads d f p mem
    refine ⟨fun kind => ?_, fun kind => ?_, fun kind => ?_, fun kind => ?_, fun kind => ?_⟩ <;>
      simp only [unpackField, kind] at component grey
    · exact component
    · have scaled := (toScaled_reads d f p ((field_signed_iff f fld mem).1 kind) mem).1
      simp only [unpackField, kind] at scaled
      exact ⟨component, by rw [scaled, component, scaleUp]⟩
    · exact component
    · exact component
    · have luma := channel_of_luminance mem kind
      obtain ⟨y, z⟩ := grey luma
      rw [luma] at component
      exact ⟨component, y.trans component.symm, z.trans component.symm⟩
  · exact (reads_absent d f p flavour (c := .red) ⟨rfl, nofun⟩ fun fld mem => apart_colour (by simp) (none fld mem)).1
  · exact (reads_absent d f p flavour (c := .green) ⟨rfl, nofun⟩ fun fld mem => apart_colour (by simp) (none fld mem)).1
  · exact (reads_absent d f p flavour (c := .blue) ⟨rfl, nofun⟩ fun fld mem => apart_colour (by simp) (none fld mem)).1
  · exact (reads_absent d f p flavour (c := .alpha) ⟨rfl, nofun⟩ fun fld mem => apart_alpha (none fld mem)).1

end Sys2Proof.Machine
end

section
/-! SUPPORT. The bytes of a value, in memory and in a register; what a completed command leaves that writes one register or
stores one run of bytes (20_memory R42, R44; 10_state R10 to R15). -/

namespace Sys2Proof.Machine

/-! ## The bytes of a value (20_memory R42) -/

theorem byteOf_eq_ofNat {w : Nat} (v : BitVec w) (k : Nat) : byteOf v k = BitVec.ofNat 8 (v.toNat / 2 ^ (8 * k)) := by
  rw [byteOf, BitVec.extractLsb', Nat.shiftRight_eq_div_pow]

/-- The bytes of a little-endian value are the bytes it was made of, and zeros above them. -/
theorem byteOf_ofNat_leValue {w : Nat} (bs : List Byte) (fits : 8 * bs.length ≤ w) (k : Nat) :
    byteOf (BitVec.ofNat w (leValue bs)) k = bs.getD k 0 := by
  have lt := leValue_lt bs
  rw [byteOf_eq_ofNat, BitVec.toNat_ofNat, Nat.mod_eq_of_lt (lt.trans_le (Nat.pow_le_pow_right two_pos fits))]
  rcases Nat.lt_or_ge k bs.length with inside | above
  · rw [leValue_byte bs k inside, List.getD_eq_getElem bs 0 inside]
  · rw [Nat.div_eq_of_lt (lt.trans_le (Nat.pow_le_pow_right two_pos (by omega))), List.getD_eq_default bs 0 above]
    rfl

/-- Byte `k` of the little-endian bytes of a value. -/
theorem leBytes_getElem?_of_lt {w n k : Nat} (v : BitVec w) (h : k < n) :
    (leBytes n v.toNat)[k]? = some (byteOf v k) := by
  rw [List.getElem?_eq_getElem (by simpa using h), leBytes_getElem n v.toNat k h, byteOf_eq_ofNat]

/-- The bytes of a value read from memory are the bytes there, and zeros above them (42_scalar_codec R161). -/
theorem byteOf_readLE (s : State) (a n : Nat) {w : Nat} (fits : 8 * n ≤ w) (k : Nat) :
    byteOf (BitVec.ofNat w (s.readLE a n)) k = if k < n then s.readByte (a + k) else 0 := by
  rw [State.readLE, byteOf_ofNat_leValue _ (by simpa using fits)]
  split
  · next h => rw [List.getD_eq_getElem _ 0 (by simpa using h), memReadBytes_getElem s.mem a n k h, State.readByte]
  · next h => exact List.getD_eq_default _ 0 (by simpa using h)

/-- The bytes of a binary32 read from memory (20_memory R44). -/
theorem byteOf_readF32 (s : State) (a : Nat) {k : Nat} (h : k < 4) : byteOf (s.readF32 a) k = s.readByte (a + k) := by
  rw [State.readF32, byteOf_readLE s a 4 (by decide), if_pos h]

/-- The bytes of a vector are those of x, y, z and w, from offsets 0, 4, 8 and 12 (20_memory R44). -/
theorem vec4_toBytes_getElem? (v : Vec4) {k : Nat} (h : k < 4) :
    v.toBytes[k]? = some (byteOf v.x k) ∧ v.toBytes[4 + k]? = some (byteOf v.y k) ∧
      v.toBytes[8 + k]? = some (byteOf v.z k) ∧ v.toBytes[12 + k]? = some (byteOf v.w k) := by
  have first (x : F32) (rest : List Byte) : (leBytes 4 x.toNat ++ rest)[k]? = some (byteOf x k) := by
    rw [List.getElem?_append_left (by simpa using h), leBytes_getElem?_of_lt x h]
  have later (x : F32) (rest : List Byte) (j : Nat) : (leBytes 4 x.toNat ++ rest)[4 + j]? = rest[j]? := by
    rw [List.getElem?_append_right (by simp), leBytes_length, Nat.add_sub_cancel_left]
  simp only [Vec4.toBytes, List.append_assoc]
  refine ⟨first _ _, ?_, ?_, ?_⟩
  · rw [later, first]
  · rw [show 8 + k = 4 + (4 + k) by omega, later, later, first]
  · rw [show 12 + k = 4 + (4 + (4 + k)) by omega, later, later, later, leBytes_getElem?_of_lt v.w h]

/-! ## Completed commands (10_state R10 to R15) -/

/-- A check or a read that passes hands its value on. -/
theorem ok_bind {α β : Type} (a : α) (k : α → Except FaultRequest β) : (Except.ok a >>= k) = k a := rfl

/-- A command that writes a P register and completes. -/
theorem completed_setP (s : State) (d : RegIdx) (v : Pixel) :
    (s.setP d v).retire.preg d = .holds v ∧ Retired s (s.setP d v).retire ∧
      Frame { p := some d } noBytes s (s.setP d v).retire :=
  ⟨(preg_congr (retire_pregs _) d).trans (preg_setP_same s d v), retired_retire rfl rfl rfl,
    frame_retire (frame_setP s d v)⟩

/-- A command that writes a V register and completes. -/
theorem completed_setV (s : State) (d : RegIdx) (v : Vec4) :
    (s.setV d v).retire.vreg d = .holds v ∧ Retired s (s.setV d v).retire ∧
      Frame { v := some d } noBytes s (s.setV d v).retire :=
  ⟨(vreg_congr (retire_vregs _) d).trans (vreg_setV_same s d v), retired_retire rfl rfl rfl,
    frame_retire (frame_setV s d v)⟩

/-- A command that writes an S register and completes. -/
theorem completed_setS (s : State) (d : RegIdx) (v : Span) :
    (s.setS d v).retire.sreg d = .holds v ∧ Retired s (s.setS d v).retire ∧
      Frame { span := some d } noBytes s (s.setS d v).retire :=
  ⟨(sreg_congr (retire_sregs _) d).trans (sreg_setS_same s d v), retired_retire rfl rfl rfl,
    frame_retire (frame_setS s d v)⟩

/-- A command that stores `n` bytes and completes. -/
theorem completed_writeBytes (s : State) (a : Nat) {n : Nat} {bs : List Byte} (length : bs.length = n)
    (fits : a + n ≤ 2 ^ 32) :
    (∀ k b, bs[k]? = some b → (s.writeBytes a bs).retire.readByte (a + k) = b) ∧
      Retired s (s.writeBytes a bs).retire ∧ Frame {} (InRange a n) s (s.writeBytes a bs).retire := by
  subst length
  refine ⟨fun k b at_k => ?_, retired_retire rfl rfl rfl, frame_retire (frame_writeBytes {} s a bs)⟩
  obtain ⟨h, rfl⟩ := List.getElem?_eq_some_iff.1 at_k
  rw [readByte_congr (retire_mem _), readByte_writeBytes_inside s a bs k h fits]

end Sys2Proof.Machine
end

section
/-! PROOF. The family 42_scalar_codec: the operand-movement commands (42_scalar_codec R160 to R164). -/

namespace Sys2Proof.Machine

/-! ## Commands whose checks pass (60_exceptions R274) -/

theorem exec_ldp {s : State} {f : BitVec 8} {addr : Word} {fmt : Fmt} (format : Fmt.ofId? f = some fmt)
    (range : ValidRange s addr.toNat (Fmt.bytes fmt)) (pd : RegIdx) :
    exec (.ldp pd f addr) s = .next (s.setP pd (s.readPixel addr.toNat (Fmt.bytes fmt))).retire := by
  simp only [exec, execLdp, execLdpSeeing, format0_ok format, (checkExtent_ok_iff s _ _).2 range, ok_bind]
  rfl

theorem exec_stp {s : State} {ps : RegIdx} {f : BitVec 8} {addr : Word} {fmt : Fmt} {p : Pixel}
    (format : Fmt.ofId? f = some fmt) (source : s.preg ps = .holds p)
    (range : ValidRange s addr.toNat (Fmt.bytes fmt)) :
    exec (.stp ps f addr) s = .next (s.writeLE addr.toNat (Fmt.bytes fmt) p.toNat).retire := by
  simp only [exec, execStp, format0_ok format, readP_holds source, (checkExtent_ok_iff s _ _).2 range, ok_bind]
  rfl

theorem exec_ldv {s : State} {addr : Word} (range : ValidRange s addr.toNat 16) (vd : RegIdx) :
    exec (.ldv vd addr) s = .next (s.setV vd (s.readVec4 addr.toNat)).retire := by
  simp only [exec, execLdv, execLdvSeeing, (checkExtent_ok_iff s _ _).2 range, ok_bind]
  rfl

theorem exec_stv {s : State} {vs : RegIdx} {addr : Word} {v : Vec4} (source : s.vreg vs = .holds v)
    (range : ValidRange s addr.toNat 16) :
    exec (.stv vs addr) s = .next (s.writeBytes addr.toNat v.toBytes).retire := by
  simp only [exec, execStv, readV_holds source, (checkExtent_ok_iff s _ _).2 range, ok_bind]
  rfl

/-- Settles O19: the command checks nothing, and writes its register. -/
theorem spanWritesItsRegister : Obligations.SpanWritesItsRegister := fun s sd base len =>
  ⟨_, rfl, completed_setS s sd { base := base, len := len }⟩

/-- Settles O20: the value read has the bytes of memory, and zeros above them. -/
theorem ldpLoadsAPixel : Obligations.LdpLoadsAPixel := fun s pd _ addr fmt format range =>
  have ⟨holds, retired, frame⟩ := completed_setP s pd (s.readPixel addr.toNat (Fmt.bytes fmt))
  ⟨_, _, exec_ldp format range pd, holds, fun k _ => byteOf_readLE s _ _ (bits_le fmt) k, retired, frame⟩

/-- Settles O21: the bytes stored are the low ones of the register. -/
theorem stpStoresAPixel : Obligations.StpStoresAPixel := fun s _ _ _ fmt p format source range =>
  have ⟨stored, retired, frame⟩ := completed_writeBytes s _ (leBytes_length (Fmt.bytes fmt) p.toNat) range.1
  ⟨_, exec_stp format source range, fun k h => stored k _ (leBytes_getElem?_of_lt p h), retired, frame⟩

/-- Settles O22: each component is a binary32 read from its offset. -/
theorem ldvLoadsAVector : Obligations.LdvLoadsAVector := fun s vd addr range =>
  have ⟨holds, retired, frame⟩ := completed_setV s vd (s.readVec4 addr.toNat)
  ⟨_, _, exec_ldv range vd, holds, fun _ h =>
    ⟨byteOf_readF32 s _ h, byteOf_readF32 s _ h, byteOf_readF32 s _ h, byteOf_readF32 s _ h⟩, retired, frame⟩

/-- Settles O23: the sixteen bytes stored are those of the components in their order. -/
theorem stvStoresAVector : Obligations.StvStoresAVector := by
  intro s vs addr v source range
  obtain ⟨stored, retired, frame⟩ := completed_writeBytes s _ (vec4_toBytes_length v) range.1
  refine ⟨_, exec_stv source range, fun k h => ?_, retired, frame⟩
  obtain ⟨x, y, z, w⟩ := vec4_toBytes_getElem? v h
  simp only [Nat.add_assoc]
  exact ⟨stored _ _ x, stored _ _ y, stored _ _ z, stored _ _ w⟩

end Sys2Proof.Machine
end

section
/-! PROOF. The family 42_scalar_codec: the codec of one pixel (42_scalar_codec R165 to R170, R172). Unpacking reads the
fields alone, so that the bits above a format are ignored; packing sets the bits of the fields alone. -/

namespace Sys2Proof.Machine

/-! ## The bits above a format (41_codec_formats R121) -/

/-- The low `bits(f)` bits of a register, zeros above them (42_scalar_codec R165). -/
def lowBits (f : Fmt) (p : Pixel) : Pixel := BitVec.ofNat 128 (p.toNat % 2 ^ Fmt.bits f)

theorem getLsbD_lowBits {f : Fmt} {k : Nat} (inside : k < Fmt.bits f) (p : Pixel) :
    (lowBits f p).getLsbD k = p.getLsbD k := by
  rw [lowBits, BitVec.getLsbD_ofNat, Nat.testBit_mod_two_pow, BitVec.getLsbD]
  simp [inside, inside.trans_le (bits_le f)]

section
variable (d : Draws) {f : Fmt} (p : Pixel)

/-- The bits of a field are below `bits(f)`. -/
theorem extractLsb'_lowBits {fld : Field} (mem : fld ∈ Fmt.fields f) :
    (lowBits f p).extractLsb' fld.lo fld.width = p.extractLsb' fld.lo fld.width := by
  apply BitVec.eq_of_getLsbD_eq
  intro k lt
  have inside := (tiles_covers (fields_tiles f) mem (k := fld.lo + k) ⟨Nat.le_add_right _ _, by omega⟩).2
  rw [BitVec.getLsbD_extractLsb', BitVec.getLsbD_extractLsb', getLsbD_lowBits inside]

theorem unpackField_lowBits {fld : Field} (mem : fld ∈ Fmt.fields f) :
    unpackField d (lowBits f p) fld = unpackField d p fld := by
  have legal := fields_legal f fld mem
  have same := extractLsb'_lowBits p mem
  obtain ⟨channel, lo, width, kind⟩ := fld
  cases kind <;> simp only [Field.legal, beq_iff_eq] at legal <;> simp only [unpackField] at same ⊢
  case half | float => subst legal; rw [same]
  all_goals rw [same]

theorem toCanonical_lowBits : toCanonical d f (lowBits f p) = toCanonical d f p :=
  List.foldl_ext _ _ _ fun _ fld mem => by rw [unpackField_lowBits d p mem]

theorem toScaled_lowBits : toScaled d f (lowBits f p) = toScaled d f p := by
  unfold toScaled
  split
  · exact List.foldl_ext _ _ _ fun _ fld mem => by rw [unpackField_lowBits d p mem]
  · exact toCanonical_lowBits d p

end

theorem toNat_fromScaled_lt (d : Draws) (f : Fmt) (v : Vec4) : (fromScaled d f v).toNat < 2 ^ Fmt.bits f := by
  unfold fromScaled
  split <;> exact toNat_fromCanonical_lt d f _

/-- Every value of RGBA32 survives a round trip: it has no signed and no half field (41_codec_formats R131). -/
theorem roundTrips_rgba32 (rgba : Word) : RoundTrips .rgba32 (rgba.setWidth 128) := by
  refine ⟨?_, fun fld mem => ?_⟩
  · rw [BitVec.toNat_setWidth_of_le (by decide)]
    exact rgba.isLt
  · have kind : ∀ fld ∈ Fmt.fields .rgba32, fld.kind = .unsigned := by decide
    rw [kind fld mem]
    exact ⟨nofun, nofun⟩

/-! ## Commands whose checks pass (60_exceptions R274) -/

section
variable {s : State} {f : BitVec 8} {fmt : Fmt} (format : Fmt.ofId? f = some fmt)
include format

theorem exec_unpack {ps : RegIdx} {p : Pixel} (source : s.preg ps = .holds p) (vd : RegIdx) :
    exec (.unpack vd ps f) s = .next (s.setV vd (toCanonical (s.free .unpack 0) fmt p)).retire := by
  simp only [exec, execUnpack, format0_ok format, readP_holds source, ok_bind]
  rfl

theorem exec_unpacks {ps : RegIdx} {p : Pixel} (source : s.preg ps = .holds p) (vd : RegIdx) :
    exec (.unpacks vd ps f) s = .next (s.setV vd (toScaled (s.free .unpack 0) fmt p)).retire := by
  simp only [exec, execUnpacks, format0_ok format, readP_holds source, ok_bind]
  rfl

theorem exec_pack {vs : RegIdx} {v : Vec4} (source : s.vreg vs = .holds v) (pd : RegIdx) :
    exec (.pack pd vs f) s = .next (s.setP pd (fromCanonical (s.free .pack 0) fmt v)).retire := by
  simp only [exec, execPack, format0_ok format, readV_holds source, ok_bind]
  rfl

theorem exec_packs {vs : RegIdx} {v : Vec4} (source : s.vreg vs = .holds v) (pd : RegIdx) :
    exec (.packs pd vs f) s = .next (s.setP pd (fromScaled (s.free .pack 0) fmt v)).retire := by
  simp only [exec, execPacks, format0_ok format, readV_holds source, ok_bind]
  rfl

theorem exec_cvtpx {fsrc : BitVec 8} {sfmt : Fmt} (srcFormat : Fmt.ofId? fsrc = some sfmt) {ps : RegIdx} {p : Pixel}
    (source : s.preg ps = .holds p) (pd : RegIdx) : exec (.cvtpx pd ps f fsrc) s =
      .next (s.setP pd (fromScaled (s.free .pack 0) fmt (toScaled (s.free .unpack 0) sfmt p))).retire := by
  simp only [exec, execCvtpx, format0_ok format, format1_ok srcFormat, readP_holds source, ok_bind]
  rfl

theorem exec_mkpx (pd : RegIdx) (rgba : Word) : exec (.mkpx pd f rgba) s =
    .next (s.setP pd
      (fromScaled (s.free .pack 0) fmt (toScaled (s.free .unpack 0) .rgba32 (rgba.setWidth 128)))).retire := by
  simp only [exec, execMkpx, format0_ok format, ok_bind]
  rfl

end

/-- Settles O24: both flavours read the fields alone, and these lie in the low `bits(f)` bits. -/
theorem unpackGivesTheVector : Obligations.UnpackGivesTheVector := by
  intro s vd ps f fmt p format source
  refine ⟨⟨_, s.free .unpack 0, exec_unpack format source vd, ?_⟩,
    ⟨_, s.free .unpack 0, exec_unpacks format source vd, ?_⟩⟩
  · rw [← toCanonical_lowBits]
    exact completed_setV s vd _
  · rw [← toScaled_lowBits]
    exact completed_setV s vd _

/-- Settles O25: no field sets a bit above `bits(f)`. -/
theorem packGivesThePixel : Obligations.PackGivesThePixel := by
  intro s pd vs f fmt v format source
  obtain ⟨native, nativeEnd⟩ := completed_setP s pd (fromCanonical (s.free .pack 0) fmt v)
  obtain ⟨scaled, scaledEnd⟩ := completed_setP s pd (fromScaled (s.free .pack 0) fmt v)
  exact ⟨⟨_, _, exec_pack format source pd, native, toNat_fromCanonical_lt _ fmt v, nativeEnd⟩,
    ⟨_, _, exec_packs format source pd, scaled, toNat_fromScaled_lt _ fmt v, scaledEnd⟩⟩

/-- Settles O26: the scaled vector is that of the low `bits(fsrc)` bits, and no field sets a bit above `bits(fdst)`. -/
theorem cvtpxConvertsThroughTheScaledVector : Obligations.CvtpxConvertsThroughTheScaledVector := by
  intro s pd ps fdst fsrc dfmt sfmt p dstFormat srcFormat source
  obtain ⟨holds, ending⟩ :=
    completed_setP s pd (fromScaled (s.free .pack 0) dfmt (toScaled (s.free .unpack 0) sfmt p))
  exact ⟨_, s.free .unpack 0, s.free .pack 0, _, exec_cvtpx dstFormat srcFormat source pd, holds,
    congrArg _ (toScaled_lowBits _ p).symm, toNat_fromScaled_lt _ dfmt _, ending⟩

/-- Settles O27: the immediate is converted as any RGBA32 value is, and to its own format that is a round trip. -/
theorem mkpxBuildsAPixel : Obligations.MkpxBuildsAPixel := by
  intro s pd f rgba fmt format
  obtain ⟨holds, ending⟩ := completed_setP s pd
    (fromScaled (s.free .pack 0) fmt (toScaled (s.free .unpack 0) .rgba32 (rgba.setWidth 128)))
  refine ⟨_, _, _, _, exec_mkpx format pd rgba, holds, rfl, ?_, ending⟩
  rintro rfl
  exact (unpackThenPackIsTheIdentity _ _ .rgba32 _ (roundTrips_rgba32 rgba)).2

end Sys2Proof.Machine
end

section
/-! PROOF. The family 42_scalar_codec: the hex constructor (42_scalar_codec R171). -/

namespace Sys2Proof.Machine

/-! ## Digits -/

theorem hexDigit?_of_isHexDigit {c : Byte} {d : Nat} (h : IsHexDigit c d) : hexDigit? c = some d := by
  unfold hexDigit?
  rcases h with ⟨low, high, value⟩ | ⟨low, high, value⟩ | ⟨low, high, value⟩
  · rw [if_pos ⟨low, high⟩, value, Nat.add_sub_cancel_left]
  · rw [if_neg (by omega), if_pos ⟨low, high⟩, Option.some.injEq]
    omega
  · rw [if_neg (by omega), if_neg (by omega), if_pos ⟨low, high⟩, Option.some.injEq]
    omega

theorem lt_of_isHexDigit {c : Byte} {d : Nat} (h : IsHexDigit c d) : d < 16 := by
  rcases h with ⟨_, _, _⟩ | ⟨_, _, _⟩ | ⟨_, _, _⟩ <;> omega

/-- Characters that are digits are read as their values, at whatever index they stand. -/
theorem hexDigits_of_forall₂ {cs : List Byte} {ds : List Nat} (h : List.Forall₂ IsHexDigit cs ds) (i : Nat) :
    hexDigits i cs = .ok ds := by
  induction h generalizing i with
  | nil => rfl
  | cons digit _ ih =>
    simp only [hexDigits, hexDigit?_of_isHexDigit digit, ih]
    rfl

/-- Digits in memory, one after another. -/
theorem forall₂_memReadBytes {s : State} {a : Nat} {ds : List Nat}
    (digits : ∀ k (hk : k < ds.length), IsHexDigit (s.readByte (a + k)) ds[k]) :
    List.Forall₂ IsHexDigit (memReadBytes s.mem a ds.length) ds := by
  refine List.forall₂_iff_get.2 ⟨memReadBytes_length _ _ _, fun k _ hk => ?_⟩
  simpa only [List.get_eq_getElem, memReadBytes_getElem s.mem a _ k hk, State.readByte] using digits k hk

/-! ## Components -/

/-- The bytes of an RGBA32 value are its components, and zeros above them. -/
theorem byteOf_rgbaBytes {r g b a : Nat} (hr : r < 256) (hg : g < 256) (hb : b < 256) (ha : a < 256) (c : Nat) :
    byteOf (rgbaBytes r g b a) c = BitVec.ofNat 8 ([r, g, b, a].getD c 0) := by
  have value : rgbaBytes r g b a = BitVec.ofNat 128 (leValue ([r, g, b, a].map (BitVec.ofNat 8))) := by
    simp only [rgbaBytes, leValue, List.map_cons, List.map_nil, BitVec.toNat_ofNat]
    congr 1
    omega
  rw [value, byteOf_ofNat_leValue _ (by simp)]
  exact List.getD_map _ _ _

/-- The pixel of a text is the RGBA32 value of its components. -/
theorem hexPixel_eq {ds : List Nat} (length : HexLength ds.length) :
    hexPixel ds = rgbaBytes (hexComponent ds 0) (hexComponent ds 1) (hexComponent ds 2) (hexComponent ds 3) := by
  match ds, length with
  | [_, _, _], _ => rfl
  | [_, _, _, _], _ => rfl
  | [_, _, _, _, _, _], _ => rfl
  | [_, _, _, _, _, _, _, _], _ => rfl
  | [], h | [_], h | [_, _], h | [_, _, _, _, _], h | [_, _, _, _, _, _, _], h => simp [HexLength] at h
  | _ :: _ :: _ :: _ :: _ :: _ :: _ :: _ :: _ :: _, h => simp [HexLength] at h

theorem getD_lt {ds : List Nat} (small : ∀ d ∈ ds, d < 16) (k : Nat) : ds.getD k 0 < 16 := by
  rcases Nat.lt_or_ge k ds.length with h | h
  · rw [List.getD_eq_getElem ds 0 h]
    exact small _ (List.getElem_mem h)
  · rw [List.getD_eq_default ds 0 h]
    decide

/-- A component is one byte. -/
theorem hexComponent_lt {ds : List Nat} (small : ∀ d ∈ ds, d < 16) (c : Nat) : hexComponent ds c < 256 := by
  have single := getD_lt small c
  have high := getD_lt small (2 * c)
  have low := getD_lt small (2 * c + 1)
  unfold hexComponent
  split_ifs <;> omega

/-- The bytes of the pixel of a text are its components, and zeros above them. -/
theorem byteOf_hexPixel {ds : List Nat} (length : HexLength ds.length) (small : ∀ d ∈ ds, d < 16) (c : Nat) :
    byteOf (hexPixel ds) c = BitVec.ofNat 8 (if c < 4 then hexComponent ds c else 0) := by
  have lt := hexComponent_lt small
  rw [hexPixel_eq length, byteOf_rgbaBytes (lt 0) (lt 1) (lt 2) (lt 3)]
  match c with
  | 0 | 1 | 2 | 3 => rfl
  | c + 4 => rw [if_neg (by omega)]; rfl

/-! ## Texts -/

/-- The number sign is skipped where the text starts with one. -/
theorem skip_eq {s : State} {sp : Span} {skip n : Nat} (text : HexText s sp skip n) :
    (if 1 ≤ sp.len.toNat ∧ s.readByte sp.base.toNat = 0x23 then 1 else 0) = skip := by
  obtain ⟨length, ⟨rfl, sign⟩ | ⟨rfl, nosign⟩⟩ := text
  · exact if_pos ⟨by omega, sign⟩
  · exact if_neg fun ⟨nonempty, sign⟩ => nosign.elim (by omega) (· sign)

theorem parseHex_of_digits {s : State} {sp : Span} {skip : Nat} {ds : List Nat} (text : HexText s sp skip ds.length)
    (length : HexLength ds.length)
    (digits : ∀ k (hk : k < ds.length), IsHexDigit (s.readByte (sp.base.toNat + skip + k)) ds[k]) :
    parseHex s.view sp = .ok (hexPixel ds) := by
  have rest : sp.len.toNat - skip = ds.length := by rw [text.1, Nat.add_sub_cancel_left]
  simp only [parseHex, skip_eq text, rest]
  rw [if_pos (show ds.length = 3 ∨ ds.length = 4 ∨ ds.length = 6 ∨ ds.length = 8 from length),
    hexDigits_of_forall₂ (forall₂_memReadBytes digits)]
  rfl

theorem exec_parsehex {s : State} {st : RegIdx} {text : Span} {p : Pixel} (source : s.sreg st = .holds text)
    (range : ValidRange s text.base.toNat text.len.toNat) (parsed : parseHex s.view text = .ok p) (pd : RegIdx) :
    exec (.parsehex pd st) s = .next (s.setP pd p).retire := by
  simp only [exec, execParsehex, execParsehexSeeing, readS_holds source, (checkExtent_ok_iff s _ _).2 range, parsed,
    ok_bind]
  rfl

/-- Settles O28: after the number sign every character is read as its digit, and the digits spell the components. -/
theorem parsehexReadsThePixel : Obligations.ParsehexReadsThePixel := by
  intro s pd st text skip ds source range hexText length digits
  obtain ⟨holds, ending⟩ := completed_setP s pd (hexPixel ds)
  have small : ∀ d ∈ ds, d < 16 := fun d mem => by
    obtain ⟨k, hk, rfl⟩ := List.mem_iff_getElem.1 mem
    exact lt_of_isHexDigit (digits k hk)
  exact ⟨_, _, exec_parsehex source range (parseHex_of_digits hexText length digits) pd, holds,
    fun c _ => byteOf_hexPixel length small c, ending⟩

end Sys2Proof.Machine
end

section
/-! SUPPORT. Bulk commands that complete: the guards of disjoint spans, elements stored end to end, and what any number of
stores and touches leaves (43_bulk R180, R181; 20_memory R43, R44). -/

namespace Sys2Proof.Machine

/-! ## The guards (20_memory R47, R57) -/

theorem rangesDisjoint_symm {a n b m : Nat} (h : RangesDisjoint a n b m) : RangesDisjoint b m a n := by
  unfold RangesDisjoint at *
  omega

/-- A byte of one range is in no part of a range disjoint from it. -/
theorem not_inRange_of_rangesDisjoint {a n b m k l : Nat} (h : RangesDisjoint a n b m) (inside : k < n) (part : l ≤ m) :
    ¬ InRange b l (a + k) := by
  unfold RangesDisjoint at h
  unfold InRange
  omega

theorem notLonger_ok {short long : Span} (h : short.len.toNat ≤ long.len.toNat) (info : Word) :
    notLonger short long info = .ok () :=
  if_pos h

/-- Two uses of one command break no aliasing rule: neither is written, or they share no byte (20_memory R57). -/
def SpanUse.Apart (u v : SpanUse) : Prop :=
  u.written = true ∨ v.written = true → RangesDisjoint u.span.base.toNat u.bytes v.span.base.toNat v.bytes

/-- The guards of a bulk command pass where its spans exist and none that it writes meets another (43_bulk R180). -/
theorem guardSpans_ok {s : State} {us : List SpanUse} (apart : us.Pairwise SpanUse.Apart)
    (valid : ∀ u ∈ us, ValidRange s u.span.base.toNat u.bytes) (inPlace : Bool) : s.guardSpans inPlace us = .ok () := by
  refine (guardSpans_ok_iff s inPlace us).2 ⟨(checkDisjoint_ok_iff inPlace us).2 ?_, (checkSpans_ok_iff s us).2 valid⟩
  rintro i j u v ⟨at_i, at_j, written, ne, -⟩
  obtain ⟨hi, rfl⟩ := List.getElem?_eq_some_iff.1 at_i
  obtain ⟨hj, rfl⟩ := List.getElem?_eq_some_iff.1 at_j
  rw [List.pairwise_iff_getElem] at apart
  rcases Nat.lt_or_gt_of_ne ne with lt | gt
  · exact apart i j hi hj lt (.inl written)
  · exact rangesDisjoint_symm (apart j i hj hi gt (.inr written))

/-- The guards of a destination and the source it is computed from. -/
theorem guardSpans_pair_ok {s : State} {dst src : Span} {n z : Nat}
    (apart : RangesDisjoint dst.base.toNat (dst.len.toNat * n) src.base.toNat (src.len.toNat * z))
    (dstRange : ValidRange s dst.base.toNat (dst.len.toNat * n))
    (srcRange : ValidRange s src.base.toNat (src.len.toNat * z)) :
    s.guardSpans false [⟨dst, n, true⟩, ⟨src, z, false⟩] = .ok () :=
  guardSpans_ok (List.pairwise_pair.2 fun _ => apart)
    (List.forall_mem_cons.2 ⟨dstRange, List.forall_mem_singleton.2 srcRange⟩) false

/-! ## Elements (20_memory R43, R44) -/

theorem byteOf_append_low {m n : Nat} (hi : BitVec m) (lo : BitVec n) {k : Nat} (h : 8 * k + 8 ≤ n) :
    byteOf (hi ++ lo) k = byteOf lo k :=
  BitVec.extractLsb'_append_eq_of_add_le h

theorem byteOf_append_high {m : Nat} (hi : BitVec m) (lo : BitVec 32) (k : Nat) :
    byteOf (hi ++ lo) (4 + k) = byteOf hi k := by
  rw [byteOf, BitVec.extractLsb'_append_eq_of_le (by omega), byteOf, show 8 * (4 + k) - 32 = 8 * k by omega]

/-- The bytes of a vector's word are those of x, y, z and w in turn (20_memory R44). -/
theorem byteOf_vec4_word (v : Vec4) {k : Nat} (h : k < 4) :
    byteOf v.word k = byteOf v.x k ∧ byteOf v.word (4 + k) = byteOf v.y k ∧
      byteOf v.word (8 + k) = byteOf v.z k ∧ byteOf v.word (12 + k) = byteOf v.w k := by
  have low {m : Nat} (hi : BitVec m) (lo : F32) : byteOf (hi ++ lo) k = byteOf lo k :=
    byteOf_append_low hi lo (by omega)
  refine ⟨low _ _, ?_, ?_, ?_⟩
  · rw [Vec4.word, byteOf_append_high, low]
  · rw [Vec4.word, show 8 + k = 4 + (4 + k) by omega, byteOf_append_high, byteOf_append_high, low]
  · rw [Vec4.word, show 12 + k = 4 + (4 + (4 + k)) by omega, byteOf_append_high, byteOf_append_high, byteOf_append_high]

/-- A vector is stored as its word, lowest byte first (20_memory R44). -/
theorem vec4_toBytes_eq (v : Vec4) : v.toBytes = leBytes 16 v.word.toNat := by
  refine List.ext_getElem? fun k => ?_
  rcases Nat.lt_or_ge k 16 with inside | above
  · rw [leBytes_getElem?_of_lt v.word inside]
    obtain ⟨r, small, place⟩ : ∃ r, r < 4 ∧ (k = r ∨ k = 4 + r ∨ k = 8 + r ∨ k = 12 + r) :=
      ⟨k % 4, by omega, by omega⟩
    obtain ⟨byteX, byteY, byteZ, byteW⟩ := vec4_toBytes_getElem? v small
    obtain ⟨wordX, wordY, wordZ, wordW⟩ := byteOf_vec4_word v small
    rcases place with rfl | rfl | rfl | rfl
    · rw [byteX, wordX]
    · rw [byteY, wordY]
    · rw [byteZ, wordZ]
    · rw [byteW, wordW]
  · rw [List.getElem?_eq_none (by simpa using above), List.getElem?_eq_none (by simpa using above)]

/-- The elements of `n` values, `z` bytes each, lie inside `n * z` bytes. -/
theorem elementByte_lt {n z i k : Nat} (element : i < n) (byte : k < z) : i * z + k < n * z :=
  calc i * z + k < (i + 1) * z := by rw [Nat.succ_mul]; omega
    _ ≤ n * z := Nat.mul_le_mul_right z element

theorem elementBytes_leBytes_length (n z : Nat) (v : Nat → Nat) :
    (elementBytes n fun i => leBytes z (v i)).length = n * z :=
  elementBytes_length n z _ fun i => leBytes_length z (v i)

/-- Values stored end to end are the elements of the span they are stored to (20_memory R43). -/
theorem elementHolds_writeBytes {w : Nat} (t : State) {base : Word} {n z : Nat} (fits : base.toNat + n * z ≤ 2 ^ 32)
    (v : Nat → BitVec w) {i : Nat} (element : i < n) :
    ElementHolds (t.writeBytes base.toNat (elementBytes n fun j => leBytes z (v j).toNat)) base z i (v i) := by
  intro k byte
  have length := elementBytes_leBytes_length n z fun j => (v j).toNat
  have inside := elementByte_lt element byte
  rw [Nat.add_assoc, readByte_writeBytes_inside _ _ _ _ (length ▸ inside) (length ▸ fits), ← Option.some.injEq,
    ← List.getElem?_eq_getElem, elementBytes_getElem? n z _ (fun j => leBytes_length z _) i k element byte,
    leBytes_getElem?_of_lt (v i) byte]

/-- A byte outside stored bytes stands (20_memory R42). -/
theorem readByte_writeBytes_outside {t : State} {a x : Nat} {bs : List Byte} (h : ¬ InRange a bs.length x) :
    (t.writeBytes a bs).readByte x = t.readByte x :=
  memRead_writeBytes_outside bs t.mem a x h

/-- A store to bytes apart from a span leaves the span's elements alone. -/
theorem ElementHolds.writeBytes {w : Nat} {t : State} {base : Word} {z i : Nat} {v : BitVec w}
    (h : ElementHolds t base z i v) {n a : Nat} {bs : List Byte} (element : i < n)
    (apart : RangesDisjoint base.toNat (n * z) a bs.length) : ElementHolds (t.writeBytes a bs) base z i v := by
  intro k byte
  rw [readByte_writeBytes_outside, h k byte]
  rw [Nat.add_assoc]
  exact not_inRange_of_rangesDisjoint apart (elementByte_lt element byte) le_rfl

/-! ## What a bulk command leaves (43_bulk R181) -/

/-- `t` is `s` after stores inside the bytes `p` and touches of the formats `fs`, in that order. -/
inductive BulkStores (s : State) (p : Nat → Prop) : List Fmt → State → Prop where
  | start : BulkStores s p [] s
  | bytes {fs : List Fmt} {t : State} (h : BulkStores s p fs t) (a : Nat) (bs : List Byte)
      (inside : ∀ x, InRange a bs.length x → p x) : BulkStores s p fs (t.writeBytes a bs)
  | touch {fs : List Fmt} {t : State} (h : BulkStores s p fs t) (f : Fmt) : BulkStores s p (fs ++ [f]) (t.touch f)

namespace BulkStores

theorem opsTouched {s t : State} {p : Nat → Prop} {fs : List Fmt} (h : BulkStores s p fs t) : OpsTouched fs s t := by
  induction h with
  | start => exact fun k => (Bool.or_false _).symm
  | bytes _ _ _ _ ih => exact ih
  | touch _ f ih =>
    intro k
    rw [touch_bit, ih k, List.any_append, List.any_cons, List.any_nil, Bool.or_false, Bool.or_assoc]

theorem frame {s t : State} {p : Nat → Prop} {fs : List Fmt} (h : BulkStores s p fs t) :
    Frame { opsReady := true } p s t := by
  induction h with
  | start => exact frame_refl _ _ s
  | bytes _ a bs inside ih => exact frame_mono (frame_trans ih (frame_writeBytes _ _ a bs)) fun x hx => hx.elim id (inside x)
  | touch _ f ih => exact frame_touch rfl ih f

/-- Stores and touches do not move to the next command. -/
theorem sameCommand {s t : State} {p : Nat → Prop} {fs : List Fmt} (h : BulkStores s p fs t) :
    t.cp = s.cp ∧ t.cpPastTop = s.cpPastTop ∧ t.draws = s.draws := by
  induction h with
  | start => exact ⟨rfl, rfl, rfl⟩
  | bytes _ _ _ _ ih => exact ih
  | touch _ _ ih => exact ih

/-- A bulk command that completes has set the bits of its formats, moved on, and changed nothing else. -/
theorem completed {s t : State} {p : Nat → Prop} {fs : List Fmt} (h : BulkStores s p fs t) :
    OpsTouched fs s t.retire ∧ Retired s t.retire ∧ Frame { opsReady := true } p s t.retire := by
  obtain ⟨cp, top, draws⟩ := h.sameCommand
  exact ⟨fun k => by rw [retire_opsReady, h.opsTouched k], retired_retire cp top draws, frame_retire h.frame⟩

/-- The first `n` elements of one span. -/
theorem elements {s t : State} {p : Nat → Prop} {fs : List Fmt} (h : BulkStores s p fs t) {base : Word} {n z w : Nat}
    {v : Nat → BitVec w} (inside : ∀ x, InRange base.toNat (n * z) x → p x) :
    BulkStores s p fs (t.writeBytes base.toNat (elementBytes n fun i => leBytes z (v i).toNat)) :=
  h.bytes _ _ fun x hx => inside x (by rwa [elementBytes_leBytes_length] at hx)

end BulkStores

/-- A touch and moving to the next command leave memory alone (10_state R15; 43_bulk R181). -/
theorem readByte_touch_retire (t : State) (f : Fmt) (a : Nat) : (t.touch f).retire.readByte a = t.readByte a :=
  readByte_congr (retire_mem (t.touch f)) a

/-- A touch leaves the elements of every span alone (43_bulk R181). -/
theorem ElementHolds.touch {w : Nat} {t : State} {base : Word} {z i : Nat} {v : BitVec w}
    (h : ElementHolds t base z i v) (f : Fmt) : ElementHolds (t.touch f) base z i v :=
  h

/-- Moving to the next command leaves the elements of every span alone (10_state R15). -/
theorem ElementHolds.retire {w : Nat} {t : State} {base : Word} {z i : Nat} {v : BitVec w}
    (h : ElementHolds t base z i v) : ElementHolds t.retire base z i v :=
  fun k byte => (readByte_congr (retire_mem t) _).trans (h k byte)

end Sys2Proof.Machine
end

section
/-! PROOF. The family 43_bulk: the conversions of whole spans (43_bulk R182 to R184). -/

namespace Sys2Proof.Machine

/-! ## Commands whose checks pass (60_exceptions R274) -/

section
variable {s : State} {sdst ssrc : RegIdx} {dst src : Span} (dstReg : s.sreg sdst = .holds dst)
  (srcReg : s.sreg ssrc = .holds src) (length : src.len = dst.len)
include dstReg srcReg length

theorem exec_tovec4 {f : BitVec 8} {fmt : Fmt} (format : Fmt.ofId? f = some fmt)
    (apart : RangesDisjoint dst.base.toNat (dst.len.toNat * 16) src.base.toNat (src.len.toNat * Fmt.bytes fmt))
    (dstRange : ValidRange s dst.base.toNat (dst.len.toNat * 16))
    (srcRange : ValidRange s src.base.toNat (src.len.toNat * Fmt.bytes fmt)) (m : BitVec 3) :
    exec (.tovec4 sdst ssrc f m) s = .next ((s.writeBytes dst.base.toNat (elementBytes dst.len.toNat fun i =>
      (s.tovec4Elem fmt m i (s.pixelAt src fmt i)).toBytes)).touch fmt).retire := by
  simp only [exec, execTovec4, execTovec4Seeing, format0_ok format, readS_holds dstReg, readS_holds srcReg,
    sameLength_ok length, guardSpans_pair_ok apart dstRange srcRange, ok_bind]
  rfl

theorem exec_fromvec4 {f : BitVec 8} {fmt : Fmt} (format : Fmt.ofId? f = some fmt)
    (apart : RangesDisjoint dst.base.toNat (dst.len.toNat * Fmt.bytes fmt) src.base.toNat (src.len.toNat * 16))
    (dstRange : ValidRange s dst.base.toNat (dst.len.toNat * Fmt.bytes fmt))
    (srcRange : ValidRange s src.base.toNat (src.len.toNat * 16)) (m : BitVec 3) :
    exec (.fromvec4 sdst ssrc f m) s = .next (((s.writeBytes dst.base.toNat (elementBytes dst.len.toNat fun i =>
      pixelBytes fmt (s.fromvec4Elem fmt m i (s.readVec4 (src.elemAddr 16 i))))).writeBytes src.base.toNat
        (s.destroyedBytes (src.len.toNat * 16))).touch fmt).retire := by
  simp only [exec, execFromvec4, execFromvec4Seeing, format0_ok format, readS_holds dstReg, readS_holds srcReg,
    sameLength_ok length, guardSpans_pair_ok apart dstRange srcRange, ok_bind]
  rfl

theorem exec_convert {fdst fsrc : BitVec 8} {dfmt sfmt : Fmt} (dstFormat : Fmt.ofId? fdst = some dfmt)
    (srcFormat : Fmt.ofId? fsrc = some sfmt)
    (apart : RangesDisjoint dst.base.toNat (dst.len.toNat * Fmt.bytes dfmt) src.base.toNat
      (src.len.toNat * Fmt.bytes sfmt))
    (dstRange : ValidRange s dst.base.toNat (dst.len.toNat * Fmt.bytes dfmt))
    (srcRange : ValidRange s src.base.toNat (src.len.toNat * Fmt.bytes sfmt)) :
    exec (.convert sdst ssrc fdst fsrc) s = .next (((s.writeBytes dst.base.toNat (elementBytes dst.len.toNat fun i =>
      pixelBytes dfmt (s.convertElem dfmt sfmt i (s.pixelAt src sfmt i)))).touch dfmt).touch sfmt).retire := by
  simp only [exec, execConvert, execConvertSeeing, format0_ok dstFormat, format1_ok srcFormat, readS_holds dstReg,
    readS_holds srcReg, sameLength_ok length, guardSpans_pair_ok apart dstRange srcRange, ok_bind]
  rfl

end

/-- Settles O29: the vectors are stored end to end as their words, in the destination and nowhere else. -/
theorem tovec4StoresVectors : Obligations.Tovec4StoresVectors := by
  intro s sdst ssrc f m fmt dst src format dstReg srcReg length apart dstRange srcRange
  have run := exec_tovec4 dstReg srcReg length format apart dstRange srcRange m
  simp only [vec4_toBytes_eq] at run
  exact ⟨_, run, fun i element => ⟨_, _, ((elementHolds_writeBytes s dstRange.1 _ element).touch fmt).retire⟩,
    ((BulkStores.start.elements fun _ => id).touch fmt).completed⟩

/-- Settles O30: the pixels are stored before the source span is destroyed, which is apart from them. -/
theorem fromvec4StoresPixels : Obligations.Fromvec4StoresPixels := by
  intro s sdst ssrc f m fmt dst src format dstReg srcReg length apart dstRange srcRange
  have destroyed : (s.destroyedBytes (src.len.toNat * 16)).length = src.len.toNat * 16 := by
    simp [State.destroyedBytes]
  exact ⟨_, exec_fromvec4 dstReg srcReg length format apart dstRange srcRange m, fun i element =>
    ⟨_, _, (((elementHolds_writeBytes s dstRange.1 _ element).writeBytes element
      (destroyed.symm ▸ apart)).touch fmt).retire⟩,
    (((BulkStores.start.elements fun _ => .inl).bytes _ _ fun _ h => .inr (destroyed ▸ h)).touch fmt).completed⟩

/-- Settles O31: the converted pixels are stored end to end, and both formats are touched. -/
theorem convertStoresPixels : Obligations.ConvertStoresPixels := by
  intro s sdst ssrc fdst fsrc dfmt sfmt dst src dstFormat srcFormat dstReg srcReg length apart dstRange srcRange
  exact ⟨_, exec_convert dstReg srcReg length dstFormat srcFormat apart dstRange srcRange, fun i element =>
    ⟨_, _, (((elementHolds_writeBytes s dstRange.1 _ element).touch dfmt).touch sfmt).retire⟩,
    (((BulkStores.start.elements fun _ => id).touch dfmt).touch sfmt).completed⟩

end Sys2Proof.Machine
end

section
/-! PROOF. The family 43_bulk: planes packed into pixels and pixels split over planes (43_bulk R185, R186). -/

namespace Sys2Proof.Machine

/-! ## Three samples as a pixel (43_bulk R185) -/

/-- Three bytes side by side are their weighted sum. -/
theorem or_shiftLeft_bytes (r g b : Byte) : (r.setWidth 128 ||| g.setWidth 128 <<< 8 ||| b.setWidth 128 <<< 16 : Pixel) =
    BitVec.ofNat 128 (r.toNat + 2 ^ 8 * g.toNat + 2 ^ 16 * b.toNat) := by
  have hr := r.isLt
  have hg := g.isLt
  have hb := b.isLt
  have low : r.toNat ||| g.toNat * 2 ^ 8 = r.toNat + 2 ^ 8 * g.toNat := by
    rw [Nat.or_comm, Nat.mul_comm, ← Nat.two_pow_add_eq_or_of_lt hr, Nat.add_comm]
  have all : (r.toNat + 2 ^ 8 * g.toNat) ||| b.toNat * 2 ^ 16 = r.toNat + 2 ^ 8 * g.toNat + 2 ^ 16 * b.toNat := by
    rw [Nat.or_comm, Nat.mul_comm, ← Nat.two_pow_add_eq_or_of_lt (by omega), Nat.add_comm]
  apply BitVec.eq_of_toNat_eq
  simp (disch := omega) only [BitVec.toNat_or, BitVec.toNat_shiftLeft, BitVec.toNat_setWidth, BitVec.toNat_ofNat,
    Nat.shiftLeft_eq, Nat.mod_eq_of_lt, low, all]

theorem planePixel_view (s : State) (r g b : Span) (i : Nat) : planePixel s.view r g b i =
    BitVec.ofNat 128 ((s.readByte (r.base.toNat + i)).toNat + 2 ^ 8 * (s.readByte (g.base.toNat + i)).toNat +
      2 ^ 16 * (s.readByte (b.base.toNat + i)).toNat) := by
  simp only [planePixel, Span.elemAddr, Nat.mul_one, or_shiftLeft_bytes]

/-! ## Samples of a plane (43_bulk R186) -/

theorem planeSamples_length (s : State) (see : View) (src : Span) (fmt : Fmt) (lo : Nat) :
    (s.planeSamples see src fmt lo).length = src.len.toNat := by
  simp [State.planeSamples]

/-- A stored sample is the byte of the converted pixel. -/
theorem readByte_writeBytes_planeSamples (s t : State) {plane src : Span} (fits : plane.base.toNat + src.len.toNat ≤ 2 ^ 32)
    (see : View) (fmt : Fmt) (c : Nat) {i : Nat} (element : i < src.len.toNat) :
    (t.writeBytes plane.base.toNat (s.planeSamples see src fmt (8 * c))).readByte (plane.base.toNat + i) =
      byteOf (s.convertElem .rgb24 fmt i ((see 0 i).pixelAt src fmt i)) c := by
  have length := planeSamples_length s see src fmt (8 * c)
  rw [readByte_writeBytes_inside _ _ _ _ (length.symm ▸ element) (length.symm ▸ fits)]
  simp [State.planeSamples, byteOf]

/-! ## Commands whose checks pass (60_exceptions R274) -/

section
variable {s : State} {spix sr sg sb : RegIdx} {f : BitVec 8} {fmt : Fmt} {pix r g b : Span}
  (format : Fmt.ofId? f = some fmt) (pixReg : s.sreg spix = .holds pix) (rReg : s.sreg sr = .holds r)
  (gReg : s.sreg sg = .holds g) (bReg : s.sreg sb = .holds b) (gLength : g.len = r.len) (bLength : b.len = r.len)
  (pixRange : ValidRange s pix.base.toNat (pix.len.toNat * Fmt.bytes fmt))
include format pixReg rReg gReg bReg gLength bLength pixRange

theorem exec_packplanes (room : r.len.toNat ≤ pix.len.toNat)
    (planes : ∀ x, x ∈ [r, g, b] → ValidRange s x.base.toNat x.len.toNat ∧
      RangesDisjoint pix.base.toNat (pix.len.toNat * Fmt.bytes fmt) x.base.toNat x.len.toNat) :
    exec (.packplanes spix sr sg sb f) s = .next ((s.writeBytes pix.base.toNat (elementBytes r.len.toNat fun i =>
      pixelBytes fmt (s.convertElem fmt .rgb24 i (planePixel s.view r g b i)))).touch fmt).retire := by
  simp only [List.forall_mem_cons, List.not_mem_nil, false_implies, implies_true, and_true] at planes
  obtain ⟨⟨rRange, rApart⟩, ⟨gRange, gApart⟩, bRange, bApart⟩ := planes
  have guards : s.guardSpans false [⟨pix, Fmt.bytes fmt, true⟩, ⟨r, 1, false⟩, ⟨g, 1, false⟩, ⟨b, 1, false⟩] = .ok () :=
    guardSpans_ok (by simp [SpanUse.Apart, SpanUse.bytes, rApart, gApart, bApart])
      (by simp [SpanUse.bytes, pixRange, rRange, gRange, bRange]) false
  simp only [exec, execPackplanes, execPackplanesSeeing, format0_ok format, readS_holds pixReg, readS_holds rReg,
    readS_holds gReg, readS_holds bReg, sameLength_ok gLength, sameLength_ok bLength, notLonger_ok room, guards, ok_bind]
  rfl

theorem exec_unpackplanes (room : pix.len.toNat ≤ r.len.toNat)
    (planes : ∀ x, x ∈ [r, g, b] → ValidRange s x.base.toNat x.len.toNat ∧
      RangesDisjoint x.base.toNat x.len.toNat pix.base.toNat (pix.len.toNat * Fmt.bytes fmt))
    (rgApart : RangesDisjoint r.base.toNat r.len.toNat g.base.toNat g.len.toNat)
    (rbApart : RangesDisjoint r.base.toNat r.len.toNat b.base.toNat b.len.toNat)
    (gbApart : RangesDisjoint g.base.toNat g.len.toNat b.base.toNat b.len.toNat) :
    exec (.unpackplanes spix sr sg sb f) s = .next ((((s.writeBytes r.base.toNat (s.planeSamples s.view pix fmt
      (8 * 0))).writeBytes g.base.toNat (s.planeSamples s.view pix fmt (8 * 1))).writeBytes b.base.toNat
        (s.planeSamples s.view pix fmt (8 * 2))).touch fmt).retire := by
  simp only [List.forall_mem_cons, List.not_mem_nil, false_implies, implies_true, and_true] at planes
  obtain ⟨⟨rRange, rApart⟩, ⟨gRange, gApart⟩, bRange, bApart⟩ := planes
  have guards : s.guardSpans false [⟨pix, Fmt.bytes fmt, false⟩, ⟨r, 1, true⟩, ⟨g, 1, true⟩, ⟨b, 1, true⟩] = .ok () :=
    guardSpans_ok (by simp [SpanUse.Apart, SpanUse.bytes, rangesDisjoint_symm rApart, rangesDisjoint_symm gApart,
      rangesDisjoint_symm bApart, rgApart, rbApart, gbApart])
      (by simp [SpanUse.bytes, pixRange, rRange, gRange, bRange]) false
  simp only [exec, execUnpackplanes, execUnpackplanesSeeing, format0_ok format, readS_holds pixReg, readS_holds rReg,
    readS_holds gReg, readS_holds bReg, sameLength_ok gLength, sameLength_ok bLength, notLonger_ok room, guards, ok_bind]
  rfl

end

/-- Settles O32: as many elements are stored as the planes have samples, so that the destination's slack stands. -/
theorem packplanesPacksSamples : Obligations.PackplanesPacksSamples := by
  intro s sdst sr sg sb f fmt dst r g b format dstReg rReg gReg bReg gLength bLength room planes dstRange
  have run := exec_packplanes format dstReg rReg gReg bReg gLength bLength dstRange room planes
  simp only [planePixel_view] at run
  have fits : dst.base.toNat + r.len.toNat * Fmt.bytes fmt ≤ 2 ^ 32 :=
    (Nat.add_le_add_left (Nat.mul_le_mul_right _ room) _).trans dstRange.1
  exact ⟨_, run, fun i element => ⟨_, _, ((elementHolds_writeBytes s fits _ element).touch fmt).retire⟩,
    ((BulkStores.start.elements fun _ => id).touch fmt).completed⟩

/-- Settles O33: each plane holds its byte of the converted pixels, and the planes stored later lie apart from it. -/
theorem unpackplanesSplitsPixels : Obligations.UnpackplanesSplitsPixels := by
  intro s ssrc sr sg sb f fmt src r g b format srcReg rReg gReg bReg gLength bLength room planes rgApart rbApart gbApart
    srcRange
  have run := exec_unpackplanes format srcReg rReg gReg bReg gLength bLength srcRange room planes rgApart rbApart gbApart
  have length := planeSamples_length s s.view src fmt
  have gRoom : src.len.toNat ≤ g.len.toNat := gLength ▸ room
  have bRoom : src.len.toNat ≤ b.len.toNat := bLength ▸ room
  have fits {x : Span} (mem : x ∈ [r, g, b]) (le : src.len.toNat ≤ x.len.toNat) :
      x.base.toNat + src.len.toNat ≤ 2 ^ 32 := (Nat.add_le_add_left le _).trans (planes x mem).1.1
  refine ⟨_, run, fun i element => ⟨s.free .unpack i, s.free .pack i, _, rfl, ?_, ?_, ?_⟩, ?_⟩
  · rw [readByte_touch_retire,
      readByte_writeBytes_outside (not_inRange_of_rangesDisjoint rbApart (element.trans_le room) (length _ ▸ bRoom)),
      readByte_writeBytes_outside (not_inRange_of_rangesDisjoint rgApart (element.trans_le room) (length _ ▸ gRoom))]
    exact readByte_writeBytes_planeSamples s _ (fits (by simp) room) _ fmt 0 element
  · rw [readByte_touch_retire,
      readByte_writeBytes_outside (not_inRange_of_rangesDisjoint gbApart (element.trans_le gRoom) (length _ ▸ bRoom))]
    exact readByte_writeBytes_planeSamples s _ (fits (by simp) gRoom) _ fmt 1 element
  · rw [readByte_touch_retire]
    exact readByte_writeBytes_planeSamples s _ (fits (by simp) bRoom) _ fmt 2 element
  · exact ((((BulkStores.start.bytes _ _ fun _ h => .inl (length _ ▸ h)).bytes _ _ fun _ h =>
      .inr (.inl (length _ ▸ h))).bytes _ _ fun _ h => .inr (.inr (length _ ▸ h))).touch fmt).completed

end Sys2Proof.Machine
end

section
/-! SUPPORT. Arithmetic the blend identities rest on: products by one and by a zero, the least and the greatest of two
numbers, the clamped opacity (40_canonical_model R82 to R84; 44_blend R213). -/

namespace Sys2Proof.Machine

/-! ## Products by one and by a zero (40_canonical_model R82) -/

theorem F32.isFinite_of_number {a : F32} (number : F32.isNaN a = false) (inf : F32.isInf a = false) :
    F32.isFinite a = true := by
  rw [Bool.eq_false_iff, Ne, F32.isNaN_iff] at number
  rw [Bool.eq_false_iff, Ne, F32.isInf_iff] at inf
  rw [F32.isFinite_iff]
  omega

theorem F32.isFinite_of_isZero {a : F32} (zero : F32.isZero a = true) : F32.isFinite a = true := by
  rw [F32.isFinite_iff, (F32.isZero_iff a).1 zero]
  norm_num

theorem F32.ofMagnitude_sign_magnitude (a : F32) : F32.ofMagnitude (F32.sign a) (F32.magnitude a) = a :=
  F32.ext_sign_magnitude (by simp) (by rw [F32.magnitude_ofMagnitude, F32.magnitude, Nat.mod_mod])

theorem fmul_comm (a b : F32) : fmul a b = fmul b a := by
  simp only [fmul, bne_comm (a := F32.sign a), Bool.or_comm (F32.isNaN a), Bool.or_comm (F32.isInf a),
    Bool.or_comm (F32.isZero a), Nat.mul_comm (F32.significand a), Int.add_comm (F32.exponent a)]

/-- A number times one is that number, an infinity and a zero with their signs too. -/
theorem fmul_one {a : F32} (number : F32.isNaN a = false) : fmul a F32.one = a := by
  have sign : (F32.sign a != F32.sign F32.one) = F32.sign a := Bool.bne_false _
  cases inf : F32.isInf a
  · have finite := F32.isFinite_of_number number inf
    have value : ((F32.significand a * F32.significand F32.one : Nat) : ℚ) *
        2 ^ (F32.exponent a + F32.exponent F32.one) = magnitudeValue 23 (-149) (F32.magnitude a) := by
      have s : F32.significand F32.one = 2 ^ 23 := by decide
      have e : F32.exponent F32.one = -23 := by decide
      have unit : ((2 ^ 23 : Nat) : ℚ) * 2 ^ (-23 : Int) = 1 := by norm_num
      rw [magnitudeValue, ← F32.significand_eq, ← F32.two_zpow_exponent, s, e, zpow_add₀ two_ne_zero, Nat.cast_mul,
        mul_mul_mul_comm, unit, mul_one]
    rw [fmul_of_finite finite (by decide), sign, F32.round, roundPattern_exact ((F32.isFinite_iff a).1 finite) value,
      F32.ofMagnitude_sign_magnitude]
  · rw [fmul_inf_left inf (by decide), if_neg (by decide), sign, ← F32.inf_eq inf]

/-- A finite value times a zero is a zero. -/
theorem isZero_fmul_of_isZero {a b : F32} (ha : F32.isFinite a = true) (zero : F32.isZero b = true) :
    F32.isZero (fmul a b) = true := by
  have rounds := fmul_rounds ha (F32.isFinite_of_isZero zero)
  rw [(F32.value_eq_zero_iff b).2 zero, mul_zero] at rounds
  exact (F32.value_eq_zero_iff _).1 (rounds.exact (k := 0) (i := 0) (by norm_num) (by norm_num) (by norm_num))

/-! ## The least and the greatest (40_canonical_model R83) -/

section
variable {a b : F32} (ha : F32.isNaN a = false) (hb : F32.isNaN b = false)
include ha hb

theorem fmin_eq_ite : fmin a b = if F32.order a < F32.order b then a else b := by
  split_ifs with lt
  · exact fmin_of_lt ha hb lt
  · exact fmin_of_le ha hb (not_lt.1 lt)

theorem fmax_eq_ite : fmax a b = if F32.order b < F32.order a then a else b := by
  split_ifs with lt
  · exact fmax_of_lt ha hb lt
  · exact fmax_of_le ha hb (not_lt.1 lt)

end

/-! ## The opacity (44_blend R213) -/

section
variable {amount : F32} (number : F32.isNaN amount = false)
include number

theorem isFinite_opacity : F32.isFinite (opacity amount) = true := isFinite_fclamp_one unitBound_zero number

theorem opacity_of_le_zero (low : F32.order amount ≤ 0) : opacity amount = F32.zero :=
  fclamp_of_le number (by decide) (by decide) (by decide) low

end

theorem opacity_one : opacity F32.one = F32.one := by decide

end Sys2Proof.Machine
end

section
/-! PROOF. The family 44_blend: one pixel (44_blend R203 to R228, R233). -/

namespace Sys2Proof.Machine

/-! ## Blend functions (44_blend R203 to R211) -/

theorem F32.order_half : F32.order F32.half = 0x3F000000 := by decide

/-- Up to one half, and there too, the doubled product. -/
theorem overlayFn_of_le {d : F32} (number : F32.isNaN d = false) (low : F32.order d ≤ 0x3F000000) (e : F32) :
    overlayFn d e = fmul (fmul F32.two d) e :=
  if_pos (by simp [F32.le, number, show F32.isNaN F32.half = false by decide, F32.order_half, low])

theorem overlayFn_of_gt {d : F32} (high : 0x3F000000 < F32.order d) (e : F32) :
    overlayFn d e = fsub F32.one (fmul (fmul F32.two (fsub F32.one e)) (fsub F32.one d)) :=
  if_neg (by simp [F32.le, F32.order_half, high])

/-- Settles O41: the formulas are the model's; Overlay splits at one half, and a product by one is exact. -/
theorem blendFunctionsAreTheListed : Obligations.BlendFunctionsAreTheListed := fun _ s =>
  ⟨rfl, rfl, rfl, rfl, rfl, rfl, fun number low => overlayFn_of_le number low s,
    fun _ high => overlayFn_of_gt high s, rfl, rfl,
    fun number => (fmul_comm F32.one s).trans (fmul_one number),
    fun hb hs => ⟨fmin_eq_ite hb hs, fmax_eq_ite hb hs⟩⟩

/-! ## The composition formula (44_blend R214) -/

theorem settle_of_number (u : BitVec 32) {c : F32} (number : F32.isNaN c = false) : settle u c = c := by
  simp [settle, number]

section
variable (d : Draws) (mode : BlendMode) (w : Weights) (b s : Vec4)

theorem compose_of_zero (zero : F32.isZero (composeAlpha w) = true) : compose d mode w b s = Vec4.zero := if_pos zero

/-- With a final alpha that is neither a zero nor a NaN, the alpha is that, and so is every colour that is a number. -/
theorem compose_of_number (nonzero : F32.isZero (composeAlpha w) = false)
    (number : F32.isNaN (composeAlpha w) = false) :
    let colour := fun bc sc => composeColour w (composeAlpha w) (modeFn mode bc sc) bc sc
    let r := compose d mode w b s
    r.w = composeAlpha w ∧ (F32.isNaN (colour b.x s.x) = false → r.x = colour b.x s.x) ∧
      (F32.isNaN (colour b.y s.y) = false → r.y = colour b.y s.y) ∧
      (F32.isNaN (colour b.z s.z) = false → r.z = colour b.z s.z) := by
  intro colour r
  have mixed : r = _ := if_neg (by simp [nonzero])
  rw [mixed]
  exact ⟨settle_of_number _ number, settle_of_number _, settle_of_number _, settle_of_number _⟩

end

/-! ## `blend_px` (44_blend R213, R228) -/

/-- Settles O39: `Clear` is judged before anything is read. -/
theorem clearIsAlwaysZero : Obligations.ClearIsAlwaysZero := fun _ _ _ _ _ => rfl

/-- What a policy makes of a pixel, with the source alpha scaled to `sa` (44_blend R215). -/
def Policy.pixel (d : Draws) (mode : BlendMode) (b s : Vec4) (sa : F32) : Policy → Vec4
  | .copySource => { s with w := settle (d 3) sa }
  | .copyBackdrop => b
  | .zero => Vec4.zero
  | .mix w => compose d mode w b s

section
variable {op : CompOp} {s : Vec4} {amount : F32} (visible : op ≠ .clear) (ha : F32.isNaN amount = false)
  (hs : F32.isNaN s.w = false)
include visible ha hs

/-- A source alpha of zero short-circuits every operator but `Clear` (44_blend R213). -/
theorem blendPixel_of_zero (zero : F32.isZero (sourceAlpha s amount) = true) (d : Draws) (mode : BlendMode) (b : Vec4) :
    blendPixel d ⟨mode, op⟩ b s amount = b := by
  rw [blendPixel, if_neg visible, if_neg (by simp [ha, hs])]
  exact if_pos zero

/-- Otherwise the operator's row of the table says what is done (44_blend R215). -/
theorem blendPixel_of_nonzero (nonzero : F32.isZero (sourceAlpha s amount) = false) (d : Draws) (mode : BlendMode)
    (b : Vec4) : blendPixel d ⟨mode, op⟩ b s amount =
      (policy op b.w (sourceAlpha s amount)).pixel d mode b s (sourceAlpha s amount) := by
  rw [blendPixel, if_neg visible, if_neg (by simp [ha, hs])]
  exact if_neg (by simp [nonzero])

end

/-- The operators with weights, in the order of their codes (44_blend R215). -/
def mixTable (ba sa : F32) : List (CompOp × F32 × F32 × F32) :=
  let p := fmul ba sa
  let bo := fsub ba p
  let so := fsub sa p
  [(.srcOver, p, bo, so), (.srcIn, p, F32.zero, F32.zero), (.srcOut, F32.zero, F32.zero, so),
    (.srcAtop, p, bo, F32.zero), (.destOver, F32.zero, ba, so), (.destIn, F32.zero, p, F32.zero),
    (.destOut, F32.zero, bo, F32.zero), (.destAtop, F32.zero, p, so), (.xor, F32.zero, bo, so)]

/-- The weights of a row. -/
def rowWeights (row : CompOp × F32 × F32 × F32) : Weights := ⟨row.2.1, row.2.2.1, row.2.2.2⟩

theorem policy_of_mem_mixTable {ba sa : F32} {row : CompOp × F32 × F32 × F32} (mem : row ∈ mixTable ba sa) :
    row.1 ≠ .clear ∧ policy row.1 ba sa = .mix (rowWeights row) := by
  revert row
  simp only [mixTable, List.forall_mem_cons, List.not_mem_nil, false_implies, implies_true, and_true]
  refine ⟨?_, ?_, ?_, ?_, ?_, ?_, ?_, ?_, ?_⟩ <;> exact ⟨nofun, rfl⟩

/-- Settles O38: the operators of the table are composed, with the weights of their rows. -/
theorem mixingOperatorsFollowTheTable : Obligations.MixingOperatorsFollowTheTable := by
  intro d mode b s amount ha hs nonzero sa p bo so row mem a colour r
  obtain ⟨visible, weights⟩ := policy_of_mem_mixTable (ba := b.w) (sa := sa) mem
  have composed : r = compose d mode (rowWeights row) b s :=
    (blendPixel_of_nonzero visible ha hs nonzero d mode b).trans (congrArg (Policy.pixel d mode b s sa) weights)
  rw [composed]
  exact ⟨compose_of_zero d mode (rowWeights row) b s, compose_of_number d mode (rowWeights row) b s⟩

/-! ## Opacity (44_blend R213, R216, R221, R233) -/

section
variable {s : Vec4} {amount : F32} (ha : F32.isNaN amount = false) (hs : F32.isNaN s.w = false)
include ha hs

/-- `Dest` is the backdrop, short-circuited or not (44_blend R221). -/
theorem blendPixel_dest (d : Draws) (mode : BlendMode) (b : Vec4) : blendPixel d ⟨mode, .dest⟩ b s amount = b := by
  cases zero : F32.isZero (sourceAlpha s amount)
  · exact blendPixel_of_nonzero (op := .dest) nofun ha hs zero d mode b
  · exact blendPixel_of_zero (op := .dest) nofun ha hs zero d mode b

/-- `Src` is the source with its alpha scaled (44_blend R216). -/
theorem blendPixel_src (nonzero : F32.isZero (sourceAlpha s amount) = false)
    (number : F32.isNaN (sourceAlpha s amount) = false) (d : Draws) (mode : BlendMode) (b : Vec4) :
    blendPixel d ⟨mode, .src⟩ b s amount = { s with w := sourceAlpha s amount } := by
  rw [blendPixel_of_nonzero (op := .src) nofun ha hs nonzero]
  exact congrArg (Vec4.mk s.x s.y s.z) (settle_of_number (d 3) number)

end

theorem isZero_sourceAlpha_of_isZero {s : Vec4} (zero : F32.isZero s.w = true) {amount : F32}
    (ha : F32.isNaN amount = false) : F32.isZero (sourceAlpha s amount) = true := by
  rw [sourceAlpha, fmul_comm]
  exact isZero_fmul_of_isZero (isFinite_opacity ha) zero

theorem isZero_sourceAlpha_of_le_zero {s : Vec4} (finite : F32.isFinite s.w = true) {amount : F32}
    (ha : F32.isNaN amount = false) (low : F32.order amount ≤ 0) : F32.isZero (sourceAlpha s amount) = true := by
  rw [sourceAlpha, opacity_of_le_zero ha low]
  exact isZero_fmul_of_isZero finite (by decide)

theorem sourceAlpha_one {s : Vec4} (hs : F32.isNaN s.w = false) : sourceAlpha s F32.one = s.w := by
  rw [sourceAlpha, opacity_one, fmul_one hs]

/-- An opacity of zero or below, in the order of the patterns. -/
theorem F32.order_le_zero {c : F32} (low : F32.isZero c = true ∨ F32.lt c F32.zero = true) : F32.order c ≤ 0 := by
  rcases low with zero | lt
  · rw [F32.order, (F32.isZero_iff c).1 zero]
    simp
  · simp only [F32.lt, Bool.and_eq_true, decide_eq_true_eq] at lt
    exact lt.2.le

/-- Settles O40: a scaled alpha of zero short-circuits, a product by one is exact, and `Src` and `Dest` copy. -/
theorem opacityIdentitiesHold : Obligations.OpacityIdentitiesHold := fun d mode b s _ ha hs =>
  ⟨fun zero _ visible => blendPixel_of_zero visible ha hs zero d mode b,
    fun zero => isZero_sourceAlpha_of_isZero zero ha,
    fun finite low => isZero_sourceAlpha_of_le_zero finite ha (F32.order_le_zero low),
    fun nonzero number => blendPixel_src ha hs nonzero number d mode b,
    fun full => (congrArg (sourceAlpha s) full).trans (sourceAlpha_one hs), blendPixel_dest ha hs d mode b⟩

end Sys2Proof.Machine
end

section
/-! PROOF. The family 44_blend: the commands `SETBL` and `BLENDPX` (44_blend R229, R230; 60_exceptions R268). -/

namespace Sys2Proof.Machine

/-! ## Codes (44_blend R201, R202) -/

/-- The legal codes of a mode are those below 9, and each is the code of the mode it selects. -/
theorem map_code_mode_ofCode? (mode : BitVec 4) :
    (BlendMode.ofCode? mode).map BlendMode.code = if mode.toNat < 9 then some mode else none := by
  revert mode
  decide

/-- The legal codes of an operator are those below 12, and each is the code of the operator it selects. -/
theorem map_code_op_ofCode? (op : BitVec 4) :
    (CompOp.ofCode? op).map CompOp.code = if op.toNat < 12 then some op else none := by
  revert op
  decide

theorem exists_mode_of_lt {mode : BitVec 4} (legal : mode.toNat < 9) :
    ∃ m, BlendMode.ofCode? mode = some m ∧ BlendMode.code m = mode :=
  Option.map_eq_some_iff.1 ((map_code_mode_ofCode? mode).trans (if_pos legal))

theorem exists_op_of_lt {op : BitVec 4} (legal : op.toNat < 12) :
    ∃ o, CompOp.ofCode? op = some o ∧ CompOp.code o = op :=
  Option.map_eq_some_iff.1 ((map_code_op_ofCode? op).trans (if_pos legal))

theorem mode_ofCode?_of_ge {mode : BitVec 4} (illegal : 9 ≤ mode.toNat) : BlendMode.ofCode? mode = none :=
  Option.map_eq_none_iff.1 ((map_code_mode_ofCode? mode).trans (if_neg illegal.not_gt))

theorem op_ofCode?_of_ge {op : BitVec 4} (illegal : 12 ≤ op.toNat) : CompOp.ofCode? op = none :=
  Option.map_eq_none_iff.1 ((map_code_op_ofCode? op).trans (if_neg illegal.not_gt))

/-- `BLENDER` as a word is the mode's code and sixteen times the operator's (10_state R19). -/
theorem toNat_blender_word (bl : Blender) :
    (Blender.word bl).toNat = (BlendMode.code bl.mode).toNat + 16 * (CompOp.code bl.op).toNat := by
  have hm := (BlendMode.code bl.mode).isLt
  rw [Blender.word, BitVec.toNat_setWidth_of_le (by decide), BitVec.toNat_append,
    ← Nat.shiftLeft_add_eq_or_of_lt hm, Nat.shiftLeft_eq]
  omega

/-! ## `SETBL` (44_blend R229) -/

section
variable {mode op : BitVec 4}

theorem blenderArg_ok {m : BlendMode} {o : CompOp} (hm : BlendMode.ofCode? mode = some m)
    (ho : CompOp.ofCode? op = some o) : blenderArg mode op = .ok ⟨m, o⟩ := by
  simp [blenderArg, hm, ho]

/-- The mode is judged first (60_exceptions R268). -/
theorem blenderArg_of_bad_mode (hm : BlendMode.ofCode? mode = none) :
    blenderArg mode op = raise .invalidBlender (BitVec.ofNat 32 mode.toNat) := by
  simp [blenderArg, hm]

theorem blenderArg_of_bad_op {m : BlendMode} (hm : BlendMode.ofCode? mode = some m) (ho : CompOp.ofCode? op = none) :
    blenderArg mode op = raise .invalidBlender (BitVec.ofNat 32 (16 + op.toNat)) := by
  simp [blenderArg, hm, ho, BitVec.ofNat_add]

theorem exec_setbl {s : State} {bl : Blender} (arg : blenderArg mode op = .ok bl) :
    exec (.setbl mode op) s = .next { s with blender := bl }.retire := by
  simp only [exec, execSetbl, arg, ok_bind]
  rfl

/-- What the codes raise, the command takes (60_exceptions R262). -/
theorem faults_setbl {s : State} {code : FaultCode} {info : Word} (arg : blenderArg mode op = raise code info) :
    Faults (.setbl mode op) s code info :=
  ⟨s.takeFault ⟨code, info⟩, by simp only [exec, execSetbl, arg]; rfl, faultTaken_takeFault s ⟨code, info⟩⟩

end

/-- A command that writes `BLENDER` and completes. -/
theorem completed_setBlender (s : State) (bl : Blender) :
    let t := { s with blender := bl }.retire
    t.blender = bl ∧ Retired s t ∧ Frame { blender := true } noBytes s t :=
  ⟨retire_blender _, retired_retire rfl rfl rfl, frame_retire (frame_setBlender s bl)⟩

/-- Settles O34: legal codes are those of the blender they select; the mode is judged before the operator. -/
theorem setblSelectsTheBlender : Obligations.SetblSelectsTheBlender := by
  intro s mode op
  refine ⟨fun legalMode legalOp => ?_, fun badMode => ?_, fun legalMode badOp => ?_⟩
  · obtain ⟨m, hm, rfl⟩ := exists_mode_of_lt legalMode
    obtain ⟨o, ho, rfl⟩ := exists_op_of_lt legalOp
    obtain ⟨blender, ending⟩ := completed_setBlender s ⟨m, o⟩
    refine ⟨_, exec_setbl (blenderArg_ok hm ho), ?_⟩
    rw [blender]
    exact ⟨rfl, rfl, toNat_blender_word ⟨m, o⟩, ending⟩
  · exact faults_setbl (blenderArg_of_bad_mode (mode_ofCode?_of_ge badMode))
  · obtain ⟨m, hm, -⟩ := exists_mode_of_lt legalMode
    exact faults_setbl (blenderArg_of_bad_op hm (op_ofCode?_of_ge badOp))

/-! ## `BLENDPX` (44_blend R230) -/

theorem exec_blendpx {s : State} {vb vs : RegIdx} {b src : Vec4} (backdrop : s.vreg vb = .holds b)
    (source : s.vreg vs = .holds src) (vd : RegIdx) (amount : F32) : exec (.blendpx vd vb vs amount) s =
      .next (s.setV vd (blendPixel (s.free .arith 0) s.blender b src amount)).retire := by
  simp only [exec, execBlendpx, readV_holds backdrop, readV_holds source, ok_bind]
  rfl

/-- Settles O35: both vectors are read before the destination is written. -/
theorem blendpxBlendsTwoVectors : Obligations.BlendpxBlendsTwoVectors :=
  fun s vd _ _ amount _ _ backdrop source =>
    ⟨_, _, exec_blendpx backdrop source vd amount, completed_setV s vd _⟩

end Sys2Proof.Machine
end

section
/-! PROOF. The family 44_blend: the blends of whole spans (44_blend R231, R232). -/

namespace Sys2Proof.Machine

/-! ## The guards (20_memory R57; 43_bulk R180) -/

/-- The guards of a bulk blend pass where its spans exist, the destination is at the backdrop's base or apart from it,
and no span that is only read besides the backdrop meets the destination. -/
theorem guardSpans_blend_ok {s : State} {dst bg : Span} {z : Nat} {reads : List SpanUse}
    (backdrop : bg.base = dst.base ∨
      RangesDisjoint dst.base.toNat (dst.len.toNat * z) bg.base.toNat (bg.len.toNat * z))
    (dstRange : ValidRange s dst.base.toNat (dst.len.toNat * z))
    (bgRange : ValidRange s bg.base.toNat (bg.len.toNat * z))
    (others : ∀ u ∈ reads, u.written = false ∧
      RangesDisjoint dst.base.toNat (dst.len.toNat * z) u.span.base.toNat u.bytes ∧
      ValidRange s u.span.base.toNat u.bytes) :
    s.guardSpans true (⟨dst, z, true⟩ :: ⟨bg, z, false⟩ :: reads) = .ok () := by
  refine (guardSpans_ok_iff s _ _).2 ⟨(checkDisjoint_ok_iff _ _).2 ?_, (checkSpans_ok_iff s _).2 ?_⟩
  · rintro i j u v ⟨at_i, at_j, written, ne, exempt⟩
    match i, j with
    | 0, 0 => exact absurd rfl ne
    | 0, 1 =>
      cases at_i
      cases at_j
      exact backdrop.resolve_left fun base => exempt ⟨rfl, rfl, rfl, base.symm⟩
    | 0, j + 2 =>
      cases at_i
      exact (others v (List.mem_of_getElem? at_j)).2.1
    | 1, _ => cases at_i; exact absurd written Bool.false_ne_true
    | i + 2, _ => exact absurd ((others u (List.mem_of_getElem? at_i)).1.symm.trans written) Bool.false_ne_true
  · exact List.forall_mem_cons.2 ⟨dstRange, List.forall_mem_cons.2 ⟨bgRange, fun u mem => (others u mem).2.2⟩⟩

/-! ## What a bulk blend leaves -/

/-- The state after a bulk blend that stores the pixels `p`. -/
def State.blended (s : State) (dst : Span) (dfmt sfmt : Fmt) (p : Nat → Pixel) : State :=
  let stored := s.writeBytes dst.base.toNat (elementBytes dst.len.toNat fun i => pixelBytes dfmt (p i))
  ((stored.touch dfmt).touch sfmt).retire

theorem completed_blended {s : State} {dst : Span} {dfmt : Fmt}
    (dstRange : ValidRange s dst.base.toNat (dst.len.toNat * Fmt.bytes dfmt)) (sfmt : Fmt) (p : Nat → Pixel) :
    let t := s.blended dst dfmt sfmt p
    (∀ i, i < dst.len.toNat → ElementHolds t dst.base (Fmt.bytes dfmt) i (p i)) ∧
      OpsTouched [dfmt, sfmt] s t ∧ Retired s t ∧
      Frame { opsReady := true } (InRange dst.base.toNat (dst.len.toNat * Fmt.bytes dfmt)) s t :=
  ⟨fun _ element => (((elementHolds_writeBytes s dstRange.1 p element).touch dfmt).touch sfmt).retire,
    (((BulkStores.start.elements fun _ => id).touch dfmt).touch sfmt).completed⟩

/-! ## `BLEND` and `BLENDA` (44_blend R231, R232) -/

section
variable {s : State} {sdst sbg ssrc : RegIdx} {fdst fsrc : BitVec 8} {dfmt sfmt : Fmt} {dst bg src : Span}
  (dstFormat : Fmt.ofId? fdst = some dfmt) (srcFormat : Fmt.ofId? fsrc = some sfmt) (dstReg : s.sreg sdst = .holds dst)
  (bgReg : s.sreg sbg = .holds bg) (srcReg : s.sreg ssrc = .holds src) (bgLength : bg.len = dst.len)
  (srcLength : src.len = dst.len)
  (backdrop : bg.base = dst.base ∨
    RangesDisjoint dst.base.toNat (dst.len.toNat * Fmt.bytes dfmt) bg.base.toNat (bg.len.toNat * Fmt.bytes dfmt))
  (srcApart : RangesDisjoint dst.base.toNat (dst.len.toNat * Fmt.bytes dfmt) src.base.toNat
    (src.len.toNat * Fmt.bytes sfmt))
  (dstRange : ValidRange s dst.base.toNat (dst.len.toNat * Fmt.bytes dfmt))
  (bgRange : ValidRange s bg.base.toNat (bg.len.toNat * Fmt.bytes dfmt))
  (srcRange : ValidRange s src.base.toNat (src.len.toNat * Fmt.bytes sfmt))
include dstFormat srcFormat dstReg bgReg srcReg bgLength srcLength backdrop srcApart dstRange bgRange srcRange

theorem exec_blend (amount : F32) : exec (.blend sdst sbg ssrc fdst fsrc amount) s =
    .next (s.blended dst dfmt sfmt fun i =>
      s.blendElem dfmt sfmt i (s.pixelAt bg dfmt i) (s.pixelAt src sfmt i) amount) := by
  have guards := guardSpans_blend_ok (reads := [⟨src, Fmt.bytes sfmt, false⟩]) backdrop dstRange bgRange
    (List.forall_mem_singleton.2 ⟨rfl, srcApart, srcRange⟩)
  simp only [exec, execBlend, execBlendSeeing, format0_ok dstFormat, format1_ok srcFormat, readS_holds dstReg,
    readS_holds bgReg, readS_holds srcReg, sameLength_ok bgLength, sameLength_ok srcLength, guards, ok_bind]
  rfl

theorem exec_blenda {samt : RegIdx} {amt : Span} (amtReg : s.sreg samt = .holds amt) (amtLength : amt.len = dst.len)
    (amtApart : RangesDisjoint dst.base.toNat (dst.len.toNat * Fmt.bytes dfmt) amt.base.toNat (amt.len.toNat * 4))
    (amtRange : ValidRange s amt.base.toNat (amt.len.toNat * 4)) :
    exec (.blenda sdst sbg ssrc samt fdst fsrc) s = .next (s.blended dst dfmt sfmt fun i =>
      s.blendElem dfmt sfmt i (s.pixelAt bg dfmt i) (s.pixelAt src sfmt i) (s.readF32 (amt.elemAddr 4 i))) := by
  have guards := guardSpans_blend_ok (reads := [⟨src, Fmt.bytes sfmt, false⟩, ⟨amt, 4, false⟩]) backdrop dstRange
    bgRange (List.forall_mem_cons.2 ⟨⟨rfl, srcApart, srcRange⟩, List.forall_mem_singleton.2 ⟨rfl, amtApart, amtRange⟩⟩)
  simp only [exec, execBlenda, execBlendaSeeing, format0_ok dstFormat, format1_ok srcFormat, readS_holds dstReg,
    readS_holds bgReg, readS_holds srcReg, readS_holds amtReg, sameLength_ok bgLength, sameLength_ok srcLength,
    sameLength_ok amtLength, guards, ok_bind]
  rfl

end

/-- Settles O36: every pixel is composed from the memory before the command, so the destination may be the backdrop. -/
theorem blendStoresComposedPixels : Obligations.BlendStoresComposedPixels := by
  intro s sdst sbg ssrc fdst fsrc amount dfmt sfmt dst bg src dstFormat srcFormat dstReg bgReg srcReg bgLength srcLength
    backdrop srcApart dstRange bgRange srcRange
  obtain ⟨elements, ending⟩ := completed_blended dstRange sfmt fun i =>
    s.blendElem dfmt sfmt i (s.pixelAt bg dfmt i) (s.pixelAt src sfmt i) amount
  exact ⟨_, exec_blend dstFormat srcFormat dstReg bgReg srcReg bgLength srcLength backdrop srcApart dstRange bgRange
    srcRange amount, fun i element => ⟨_, _, _, _, elements i element⟩, ending⟩

/-- Settles O37: as `BLEND`, with the opacity read from the entry of the element. -/
theorem blendaStoresComposedPixels : Obligations.BlendaStoresComposedPixels := by
  intro s sdst sbg ssrc samt fdst fsrc dfmt sfmt dst bg src amt dstFormat srcFormat dstReg bgReg srcReg amtReg bgLength
    srcLength amtLength backdrop srcApart amtApart dstRange bgRange srcRange amtRange
  obtain ⟨elements, ending⟩ := completed_blended dstRange sfmt fun i =>
    s.blendElem dfmt sfmt i (s.pixelAt bg dfmt i) (s.pixelAt src sfmt i) (s.readF32 (amt.elemAddr 4 i))
  exact ⟨_, exec_blenda dstFormat srcFormat dstReg bgReg srcReg bgLength srcLength backdrop srcApart dstRange bgRange
    srcRange amtReg amtLength amtApart amtRange, fun i element => ⟨_, _, _, _, elements i element⟩, ending⟩

end Sys2Proof.Machine
end

section
/-! SUPPORT. What a descriptor of a list of precisions holds, and a format's descriptor as the one of its fields' widths
(10_state R21; 41_codec_formats R123; 46_control_metadata R242). -/

namespace Sys2Proof.Machine

/-! ## The descriptor of a list of precisions (46_control_metadata R242) -/

section
variable {e : List Nat} {bpp : Word}

theorem infoOf_count_toNat (count : e.length ≤ 16) : (infoOf e bpp).count.toNat = e.length :=
  Nat.mod_eq_of_lt (by omega)

theorem infoOf_bpp_toNat (fits : bpp.toNat ≤ 65535) : (infoOf e bpp).bpp.toNat = bpp.toNat := by
  rw [infoOf, BitVec.toNat_setWidth, Nat.mod_eq_of_lt (by omega)]

theorem infoOf_padding_toNat (fits : bpp.toNat ≤ 65535) : (infoOf e bpp).padding.toNat = bpp.toNat - e.sum :=
  Nat.mod_eq_of_lt (by omega)

/-- A precision slot holds its entry, and zero past the last one. -/
theorem infoOf_prec_slot_toNat (small : ∀ p ∈ e, p ≤ 255) (k : Fin 16) :
    ((infoOf e bpp).prec[k.val]).toNat = (e[k.val]?).getD 0 := by
  have slots := congrArg (·[k.val]?) (infoOf_prec_toNat e bpp small)
  simpa only [List.getElem?_map, Vector.getElem?_toList, Vector.getElem?_eq_getElem k.isLt, Option.map_some,
    List.getElem?_ofFn, k.isLt, dite_true, Option.some.injEq] using slots

end

/-! ## The descriptor of a format (41_codec_formats R123) -/

/-- The widths of a format's fields, least significant first (41_codec_formats R120). -/
def Fmt.widths (f : Fmt) : List Nat := (Fmt.fields f).map Field.width

/-- Fields that tile a run of bits are as wide together as the run. -/
theorem sum_width_of_tiles {lo hi : Nat} {fs : List Field} (h : tiles lo fs hi = true) :
    lo + (fs.map Field.width).sum = hi := by
  induction fs generalizing lo with
  | nil => simpa [tiles] using h
  | cons fld fs ih =>
    simp only [tiles, Bool.and_eq_true] at h
    rw [List.map_cons, List.sum_cons, ← Nat.add_assoc, ih h.2]

/-- The fields of a format leave no bit of it over (41_codec_formats R120). -/
theorem sum_widths (f : Fmt) : (Fmt.widths f).sum = Fmt.bits f :=
  (Nat.zero_add _).symm.trans (sum_width_of_tiles (fields_tiles f))

theorem width_le_bits {f : Fmt} {w : Nat} (h : w ∈ Fmt.widths f) : w ≤ Fmt.bits f :=
  sum_widths f ▸ List.le_sum_of_mem h

theorem widths_length_le (f : Fmt) : (Fmt.widths f).length ≤ 16 := by cases f <;> decide

/-- A format's descriptor is the one of its fields' widths in a pixel of its size. -/
theorem fmtInfo_eq_infoOf (f : Fmt) : Fmt.info f = infoOf (Fmt.widths f) (BitVec.ofNat 32 (Fmt.bits f)) := by
  cases f <;> rfl

end Sys2Proof.Machine
end

section
/-! PROOF. The family 46_control_metadata: halting, and the component-info register loaded and read (46_control_metadata
R240 to R244). -/

namespace Sys2Proof.Machine

/-- Settles O18: only `STATUS` is written; a halted engine does nothing until `START` puts it back at its `END`. -/
theorem endHaltsTheEngine : Obligations.EndHaltsTheEngine := fun s =>
  ⟨{ s with status := .halted }, rfl, rfl, rfl, rfl, rfl, frame_halt s, rfl, rfl, rfl⟩

/-! ## Loading the descriptor (46_control_metadata R241, R242) -/

/-- A command that writes `CI` and completes. -/
theorem completed_setCi (s : State) (c : CompInfo) :
    let t := { s with ci := c }.retire
    t.ci = c ∧ Retired s t ∧ Frame { ci := true } noBytes s t :=
  ⟨retire_ci _, retired_retire rfl rfl rfl, frame_retire (frame_setCi s c)⟩

theorem exec_fmtinfo {f : BitVec 8} {fmt : Fmt} (format : Fmt.ofId? f = some fmt) (s : State) :
    exec (.fmtinfo f) s = .next { s with ci := Fmt.info fmt }.retire := by
  simp only [exec, execFmtinfo, format0_ok format, ok_bind]
  rfl

/-- Settles O42: the descriptor is the one of the fields' widths, which fill the pixel. -/
theorem fmtinfoLoadsTheDescriptor : Obligations.FmtinfoLoadsTheDescriptor := by
  intro s f fmt format
  obtain ⟨ci, retired, frame⟩ := completed_setCi s (Fmt.info fmt)
  have bits := bits_le fmt
  have size : (BitVec.ofNat 32 (Fmt.bits fmt)).toNat = Fmt.bits fmt := Nat.mod_eq_of_lt (by omega)
  have small : ∀ w ∈ Fmt.widths fmt, w ≤ 255 := fun w hw => (width_le_bits hw).trans (by omega)
  refine ⟨_, exec_fmtinfo format s, ?_, ?_, ?_, fun k => ?_, sum_widths fmt, frame.opsReady rfl, retired, frame⟩
  · rw [ci, fmtInfo_eq_infoOf, infoOf_count_toNat (widths_length_le fmt), Fmt.widths, List.length_map]
  · rw [ci, fmtInfo_eq_infoOf, infoOf_bpp_toNat (by omega), size]
    rfl
  · rw [ci]
    rfl
  · rw [ci, fmtInfo_eq_infoOf, infoOf_prec_slot_toNat small, Fmt.widths, List.getElem?_map]

/-- The entries that `MKINFO` reads where nothing races with it. -/
theorem precEntries_view (s : State) (sp : Span) :
    precEntries s.view sp = (List.range sp.len.toNat).map fun i => s.readLE (sp.base.toNat + 4 * i) 4 := by
  simp only [precEntries, Span.elemAddr, Nat.mul_comm]

theorem checkEntryCount_ok {len : Word} (h : len.toNat ≤ 16) : checkEntryCount len = .ok () :=
  if_neg h.not_gt

theorem buildInfo_ok {e : List Nat} {bpp : Word} (small : ∀ p ∈ e, p ≤ 255) (fits : bpp.toNat ≤ 65535)
    (sum : e.sum ≤ bpp.toNat) : buildInfo e bpp = .ok (infoOf e bpp) := by
  have none_large : e.findIdx? (fun p => 255 < p) = none := by simpa [List.findIdx?_eq_none_iff] using small
  rw [buildInfo, none_large]
  exact if_neg (by omega)

theorem exec_mkinfo {s : State} {sprec : RegIdx} {bpp : Word} {sp : Span} {info : CompInfo}
    (reg : s.sreg sprec = .holds sp) (count : sp.len.toNat ≤ 16)
    (range : ValidRange s sp.base.toNat (sp.len.toNat * 4)) (built : buildInfo (precEntries s.view sp) bpp = .ok info) :
    exec (.mkinfo sprec bpp) s = .next { s with ci := info }.retire := by
  simp only [exec, execMkinfo, execMkinfoSeeing, readS_holds reg, checkEntryCount_ok count,
    (checkExtent_ok_iff s _ _).2 range, built, ok_bind]
  rfl

/-- Settles O43: the entries pass the checks, and their descriptor is loaded. -/
theorem mkinfoBuildsTheDescriptor : Obligations.MkinfoBuildsTheDescriptor := by
  intro s sprec bpp sp reg count range small fits sum
  rw [← precEntries_view] at sum ⊢
  have length : (precEntries s.view sp).length = sp.len.toNat := by rw [precEntries, List.length_map, List.length_range]
  have entries_small : ∀ p ∈ precEntries s.view sp, p ≤ 255 := by
    rw [precEntries_view, List.forall_mem_map]
    exact fun i hi => small i (List.mem_range.1 hi)
  obtain ⟨ci, ending⟩ := completed_setCi s (infoOf (precEntries s.view sp) bpp)
  refine ⟨_, exec_mkinfo reg count range (buildInfo_ok entries_small fits sum), ?_, ?_, ?_, fun k => ?_, ending⟩
  · rw [ci, infoOf_count_toNat (length.trans_le count), length]
  · rw [ci, infoOf_bpp_toNat fits]
  · rw [ci, infoOf_padding_toNat fits, Nat.sub_add_cancel sum]
  · rw [ci, infoOf_prec_slot_toNat entries_small, precEntries_view]
    split
    · next inside => simp [inside]
    · next past => simp [past]

/-! ## Reading the descriptor (46_control_metadata R243, R244) -/

theorem slot_eq_prec (c : CompInfo) (k : Fin 16) : c.slot k.val = c.prec[k.val] := by
  rw [CompInfo.slot, Vector.getElem?_eq_getElem k.isLt, Option.getD_some]

theorem exec_pxinfo {s : State} {idx : Word} (inside : idx.toNat < s.ci.count.toNat) (pd : RegIdx) :
    exec (.pxinfo pd idx) s = .next (s.setP pd ((s.ci.slot idx.toNat).setWidth 128)).retire := by
  simp only [exec, execPxinfo, CompInfo.checkIndex, if_neg inside.not_ge, ok_bind]
  rfl

theorem faults_pxinfo {s : State} {idx : Word} (past : s.ci.count.toNat ≤ idx.toNat) (pd : RegIdx) :
    Faults (.pxinfo pd idx) s .infoIndexRange idx :=
  ⟨s.takeFault ⟨.infoIndexRange, idx⟩, by simp only [exec, execPxinfo, CompInfo.checkIndex, if_pos past]; rfl,
    faultTaken_takeFault s ⟨.infoIndexRange, idx⟩⟩

/-- Settles O44, by whether the index is below the count; in both cases for every descriptor. -/
theorem pxinfoReadsAPrecision : Obligations.PxinfoReadsAPrecision := by
  refine fun s pd idx _ => ⟨fun k index inside => ?_, fun past => faults_pxinfo past pd⟩
  rw [← index] at inside
  rw [← slot_eq_prec, ← index]
  exact ⟨_, exec_pxinfo inside pd, completed_setP s pd _⟩

/-- The header is its three fields side by side (46_control_metadata R244). -/
theorem header_toNat (c : CompInfo) :
    c.header.toNat = c.count.toNat + 2 ^ 8 * c.bpp.toNat + 2 ^ 24 * c.padding.toNat := by
  rw [CompInfo.header, toNat_append_eq_add, toNat_append_eq_add]
  omega

/-- Settles O45: the register holds the header, zero-extended. -/
theorem rdciReadsTheHeader : Obligations.RdciReadsTheHeader := fun s pd =>
  have ⟨holds, ending⟩ := completed_setP s pd (s.ci.header.setWidth 128)
  ⟨_, _, rfl, holds, (BitVec.toNat_setWidth_of_le (by decide)).trans (header_toNat s.ci), ending⟩

end Sys2Proof.Machine
end

section
/-! SUPPORT. The checks of every command as one list in the order of 60_exceptions R274, steps 3 to 7: the command raises
the fault of the first of them that fails. -/

namespace Sys2Proof.Machine

/-! ## Checks in order (60_exceptions R274) -/

/-- A check of a command: it passes, or it raises a fault. -/
abbrev Check := Except FaultRequest Unit

/-- The first of the checks that fails raises `e`. -/
inductive FirstFault (e : FaultRequest) : List Check → Prop where
  | here (cs : List Check) : FirstFault e (.error e :: cs)
  | later {cs : List Check} (h : FirstFault e cs) : FirstFault e (.ok () :: cs)

namespace FirstFault
variable {e : FaultRequest} {cs ds : List Check}

theorem append_left (h : FirstFault e cs) : FirstFault e (cs ++ ds) := by
  induction h with
  | here => exact .here _
  | later _ ih => exact ih.later

theorem append_right (ok : ∀ c ∈ cs, c = .ok ()) (h : FirstFault e ds) : FirstFault e (cs ++ ds) := by
  induction cs with
  | nil => exact h
  | cons c cs ih =>
    obtain ⟨rfl, others⟩ := List.forall_mem_cons.1 ok
    exact (ih others).later

variable {α : Type} {xs : List α} {check : α → Check} {x : α}

/-- Of the same check on several operands, the first operand that is bad raises the fault. -/
theorem map_of_find? {bad : α → Bool} (passes : ∀ y, bad y = false → check y = .ok ()) (found : xs.find? bad = some x)
    (fails : check x = .error e) : FirstFault e (xs.map check) := by
  obtain ⟨-, as, bs, rfl, earlier⟩ := List.find?_eq_some_iff_append.1 found
  rw [List.map_append, List.map_cons, fails]
  refine append_right (List.forall_mem_map.2 fun y mem => passes y ?_) (.here _)
  simpa using earlier y mem

/-- As `map_of_find?`, by the place of the operand. -/
theorem map_of_getElem? {k : Nat} (at_k : xs[k]? = some x)
    (earlier : ∀ (j : Nat) (y : α), j < k → xs[j]? = some y → check y = .ok ()) (fails : check x = .error e) : FirstFault e (xs.map check) := by
  induction xs generalizing k with
  | nil => simp at at_k
  | cons y ys ih =>
    cases k with
    | zero =>
      obtain rfl : y = x := by simpa using at_k
      rw [List.map_cons, fails]
      exact .here _
    | succ k =>
      rw [List.map_cons, earlier 0 y k.succ_pos rfl]
      exact (ih at_k fun j z lt at_j => earlier (j + 1) z (Nat.succ_lt_succ lt) at_j).later

end FirstFault

/-- The computation `m` is the check `c` with a value: it raises the fault `c` raises, and where `c` passes its value has
the property. -/
def Follows {α : Type} (m : Except FaultRequest α) (c : Check) (Q : α → Prop) : Prop :=
  match m with
  | .ok a => c = .ok () ∧ Q a
  | .error e => c = .error e

/-- `r` raises the fault of the first of the checks that fails. -/
def ChecksFirst {α : Type} (cs : List Check) (r : Except FaultRequest α) : Prop := ∀ e, FirstFault e cs → r = .error e

section
variable {α β : Type} {c c' : Check} {cs : List Check} {r : Except FaultRequest β}

theorem follows_self (c : Check) : Follows c c fun _ => True := by
  cases c with
  | ok => exact ⟨rfl, trivial⟩
  | error => rfl

theorem ChecksFirst.nil : ChecksFirst [] r := nofun

theorem ChecksFirst.skip (ok : c = .ok ()) (h : ChecksFirst cs r) : ChecksFirst (c :: cs) r := by
  subst ok
  rintro e (_ | later)
  exact h e later

/-- A computation that starts with its first check goes on with the others. -/
theorem ChecksFirst.bind {m : Except FaultRequest α} {Q : α → Prop} {f : α → Except FaultRequest β}
    (first : Follows m c Q) (rest : ∀ a, Q a → ChecksFirst cs (f a)) : ChecksFirst (c :: cs) (m >>= f) := by
  cases m with
  | ok a =>
    obtain ⟨passed, value⟩ := first
    exact .skip passed (rest a value)
  | error x =>
    obtain rfl : c = .error x := first
    rintro e ⟨⟩
    rfl

end

/-! ## The checks on fields and registers (60_exceptions R267, R273) -/

/-- Step 3, of one format field. -/
def formatCheck (g : BitVec 8 × Bool) : Check :=
  if 26 ≤ g.1.toNat then raise .invalidFormat (formatInfo g) else .ok ()

/-- Step 4, of one register. -/
def State.sourceCheck (s : State) (r : Source) : Check :=
  if s.isUnwritten r = true then raise .unwrittenRegister (sourceInfo r) else .ok ()

theorem ofId?_eq_none_iff_le (f : BitVec 8) : Fmt.ofId? f = none ↔ 26 ≤ f.toNat := by
  simp [Fmt.ofId?, allFormats]

theorem formatCheck_of_some {f : BitVec 8} {fmt : Fmt} (h : Fmt.ofId? f = some fmt) (second : Bool) :
    formatCheck (f, second) = .ok () :=
  if_neg fun illegal => by simp [(ofId?_eq_none_iff_le f).2 illegal] at h

theorem formatCheck_of_none {f : BitVec 8} (h : Fmt.ofId? f = none) (second : Bool) :
    formatCheck (f, second) = raise .invalidFormat (formatInfo (f, second)) :=
  if_pos ((ofId?_eq_none_iff_le f).1 h)

theorem formatInfo_first (f : BitVec 8) : formatInfo (f, false) = f.setWidth 32 :=
  BitVec.eq_of_toNat_eq (by simp [formatInfo])

/-- Bit 8 of the information is above every id (60_exceptions R267). -/
theorem formatInfo_second (f : BitVec 8) : formatInfo (f, true) = f.setWidth 32 ||| 0x100 := by
  revert f
  decide

/-- A check of a format field answers a format of the size the id names. -/
theorem format0_follows (f : BitVec 8) : Follows (format0 f) (formatCheck (f, false)) fun fmt => Fmt.bytes fmt = idBytes f := by
  unfold format0
  split
  · next fmt h => exact ⟨formatCheck_of_some h _, (idBytes_of_ofId? h).symm⟩
  · next h =>
    rw [← formatInfo_first]
    exact formatCheck_of_none h _

theorem format1_follows (f : BitVec 8) : Follows (format1 f) (formatCheck (f, true)) fun fmt => Fmt.bytes fmt = idBytes f := by
  unfold format1
  split
  · next fmt h => exact ⟨formatCheck_of_some h _, (idBytes_of_ofId? h).symm⟩
  · next h =>
    rw [← formatInfo_second]
    exact formatCheck_of_none h _

/-- The file stands above the four bits of the index (60_exceptions R273). -/
theorem registerInfo_eq_sourceInfo (file : Fin 3) (i : RegIdx) :
    registerInfo (BitVec.ofNat 2 file.val) i = sourceInfo ⟨file, i⟩ := by
  revert file i
  decide

theorem readP_follows (s : State) (i : RegIdx) : Follows (s.readP i) (s.sourceCheck ⟨0, i⟩) fun _ => True := by
  unfold State.readP
  split
  · next h => exact ⟨if_neg (by simp [State.isUnwritten, h]), trivial⟩
  · next h => exact (if_pos (by simp [State.isUnwritten, h])).trans (congrArg _ (registerInfo_eq_sourceInfo 0 i).symm)

theorem readV_follows (s : State) (i : RegIdx) : Follows (s.readV i) (s.sourceCheck ⟨1, i⟩) fun _ => True := by
  unfold State.readV
  split
  · next h => exact ⟨if_neg (by simp [State.isUnwritten, h]), trivial⟩
  · next h => exact (if_pos (by simp [State.isUnwritten, h])).trans (congrArg _ (registerInfo_eq_sourceInfo 1 i).symm)

/-- A span register that can be read answers its value. -/
theorem ChecksFirst.readS {α : Type} {s : State} {i : RegIdx} {cs : List Check} {f : Span → Except FaultRequest α}
    (h : ChecksFirst cs (f (s.spanVal i))) : ChecksFirst (s.sourceCheck ⟨2, i⟩ :: cs) (s.readS i >>= f) := by
  have first : Follows (s.readS i) (s.sourceCheck ⟨2, i⟩) fun sp => sp = s.spanVal i := by
    unfold State.readS
    split
    · next h => exact ⟨if_neg (by simp [State.isUnwritten, h]), (spanVal_of_holds h).symm⟩
    · next h => exact (if_pos (by simp [State.isUnwritten, h])).trans (congrArg _ (registerInfo_eq_sourceInfo 2 i).symm)
  exact .bind first fun _ value => value ▸ h

/-! ## The checks on lengths and spans (60_exceptions R265, R269, R272) -/

/-- Step 5, of the offending length. -/
def lengthCheck : Option Word → Check
  | none => .ok ()
  | some len => raise .lengthMismatch len

/-- A span field with its value, as a command uses it. -/
def State.spanUse (s : State) (u : SpanField) : SpanUse := ⟨s.spanVal u.reg, u.elem, u.written⟩

/-- Step 7, of one access. -/
def State.accessCheck (s : State) (a : Word × Nat) : Check := s.checkExtent a.1 a.2

theorem notLonger_follows (short long : Span) (pixels : Word) :
    Follows (notLonger short long pixels) (lengthCheck (planeMisfit short.len long.len pixels)) fun _ => True := by
  by_cases fits : short.len.toNat ≤ long.len.toNat
  · rw [notLonger_ok fits, planeMisfit, if_pos fits]
    exact ⟨rfl, trivial⟩
  · rw [notLonger, if_neg (show ¬ short.len ≤ long.len from fits), planeMisfit, if_neg fits]
    rfl

section
variable {α : Type} {cs : List Check} {r : Except FaultRequest α} {f : Unit → Except FaultRequest α} {o : Option Word}

theorem ChecksFirst.or_none (h : ChecksFirst (lengthCheck (o.or none) :: cs) r) : ChecksFirst (lengthCheck o :: cs) r :=
  Option.or_none (o := o) ▸ h

/-- Lengths are compared with one reference one after another, before any other condition `o` on them. -/
theorem ChecksFirst.sameLength {sp ref : Span} {lens : List Word}
    (h : ChecksFirst (lengthCheck ((firstDifferent ref.len lens).or o) :: cs) (f ())) :
    ChecksFirst (lengthCheck ((firstDifferent ref.len (sp.len :: lens)).or o) :: cs) (Machine.sameLength sp ref >>= f) := by
  by_cases same : sp.len = ref.len
  · have others : firstDifferent ref.len (sp.len :: lens) = firstDifferent ref.len lens :=
      List.find?_cons_of_neg (by simp [same])
    rw [others, sameLength_ok same]
    exact h
  · have differs : firstDifferent ref.len (sp.len :: lens) = some sp.len := List.find?_cons_of_pos (by simp [same])
    rw [differs, Machine.sameLength, if_neg same]
    rintro e ⟨⟩
    rfl

end

theorem checksFirst_checkSpans (s : State) (us : List SpanField) :
    ChecksFirst ((us.map s.extent).map s.accessCheck) (s.checkSpans (us.map s.spanUse)) := by
  induction us with
  | nil => exact .nil
  | cons u us ih => exact .bind (follows_self _) fun _ _ => ih

/-- The guards of a bulk command check the aliasing rule, then the bytes of every span (43_bulk R180). -/
theorem ChecksFirst.guardSpans {α : Type} {s : State} {us : List SpanField} {uses : List SpanUse} {inPlace : Bool}
    {f : Unit → Except FaultRequest α} (fields : us.map s.spanUse = uses) :
    ChecksFirst (checkDisjoint inPlace (us.map s.spanUse) :: (us.map s.extent).map s.accessCheck)
      (s.guardSpans inPlace uses >>= f) := by
  subst fields
  have guards : ChecksFirst (checkDisjoint inPlace (us.map s.spanUse) :: (us.map s.extent).map s.accessCheck)
      (s.guardSpans inPlace (us.map s.spanUse)) :=
    .bind (follows_self _) fun _ _ => checksFirst_checkSpans s us
  intro e first
  rw [guards e first]
  rfl

/-! ## Every command (60_exceptions R274) -/

/-- Steps 5 and 6 of a bulk command; no other command has them. -/
def Instr.spanChecks (s : State) (i : Instr) : List Check :=
  match Instr.spanFields i with
  | [] => []
  | u :: us => [lengthCheck (Instr.badLength s i), checkDisjoint (Instr.mayBeInPlace i) ((u :: us).map s.spanUse)]

/-- The check of `MKINFO` that it makes before it reads its entries (60_exceptions R275). -/
def Instr.countChecks (s : State) (i : Instr) : List Check :=
  match i with
  | .mkinfo p _ => [checkEntryCount (s.spanVal p).len]
  | _ => []

/-- Steps 3 to 7 of the checks of a command in their order, without the codes of `SETBL`; what a command checks of the
values it reads comes after them (60_exceptions R274). -/
def Instr.checks (s : State) (i : Instr) : List Check :=
  (Instr.formats i).map formatCheck ++ ((Instr.sources i).map s.sourceCheck ++
    (Instr.spanChecks s i ++ (Instr.countChecks s i ++ (Instr.accesses s i).map s.accessCheck)))

/-- Every command makes its checks in their order. -/
theorem exec_checksFirst (i : Instr) (s : State) :
    ∃ r, exec i s = complete s r ∧ ChecksFirst (Instr.checks s i) r := by
  cases i with
  | endList | span | rdci => exact ⟨.ok _, rfl, .nil⟩
  | setbl | pxinfo => exact ⟨_, rfl, .nil⟩
  | mkpx pd f rgba | fmtinfo f => exact ⟨_, rfl, .bind (format0_follows f) fun _ _ => .nil⟩
  | ldp pd f addr =>
    refine ⟨_, rfl, .bind (format0_follows f) fun fmt size => ?_⟩
    rw [size]
    exact .bind (follows_self _) fun _ _ => .nil
  | stp ps f addr =>
    refine ⟨_, rfl, .bind (format0_follows f) fun fmt size => .bind (readP_follows s ps) fun _ _ => ?_⟩
    rw [size]
    exact .bind (follows_self _) fun _ _ => .nil
  | ldv vd addr => exact ⟨_, rfl, .bind (follows_self _) fun _ _ => .nil⟩
  | stv vs addr =>
    exact ⟨_, rfl, .bind (readV_follows s vs) fun _ _ => .bind (follows_self _) fun _ _ => .nil⟩
  | unpack vd ps f | unpacks vd ps f =>
    exact ⟨_, rfl, .bind (format0_follows f) fun _ _ => .bind (readP_follows s ps) fun _ _ => .nil⟩
  | pack pd vs f | packs pd vs f =>
    exact ⟨_, rfl, .bind (format0_follows f) fun _ _ => .bind (readV_follows s vs) fun _ _ => .nil⟩
  | cvtpx pd ps fdst fsrc =>
    exact ⟨_, rfl, .bind (format0_follows fdst) fun _ _ => .bind (format1_follows fsrc) fun _ _ =>
      .bind (readP_follows s ps) fun _ _ => .nil⟩
  | parsehex pd stext => exact ⟨_, rfl, .readS (.bind (follows_self _) fun _ _ => .nil)⟩
  | mkinfo sprec bpp =>
    exact ⟨_, rfl, .readS (.bind (follows_self _) fun _ _ => .bind (follows_self _) fun _ _ => .nil)⟩
  | blendpx vd vb vs amount =>
    exact ⟨_, rfl, .bind (readV_follows s vb) fun _ _ => .bind (readV_follows s vs) fun _ _ => .nil⟩
  | tovec4 sdst ssrc f m | fromvec4 sdst ssrc f m =>
    refine ⟨_, rfl, .bind (format0_follows f) fun fmt size => .readS (.readS (.or_none ?_))⟩
    exact .sameLength (.skip rfl (.guardSpans (by simp [State.spanUse, size])))
  | convert sdst ssrc fdst fsrc =>
    refine ⟨_, rfl, .bind (format0_follows fdst) fun dfmt dsize => .bind (format1_follows fsrc) fun sfmt ssize => ?_⟩
    refine .readS (.readS (.or_none (.sameLength (.skip rfl (.guardSpans ?_)))))
    simp [State.spanUse, dsize, ssize]
  | packplanes sdst sr sg sb f | unpackplanes sdst sr sg sb f =>
    refine ⟨_, rfl, .bind (format0_follows f) fun fmt size => .readS (.readS (.readS (.readS ?_)))⟩
    refine .sameLength (.sameLength (.bind (notLonger_follows _ _ _) fun _ _ => .guardSpans ?_))
    simp [State.spanUse, size]
  | blend sdst sbg ssrc fdst fsrc amount =>
    refine ⟨_, rfl, .bind (format0_follows fdst) fun dfmt dsize => .bind (format1_follows fsrc) fun sfmt ssize => ?_⟩
    refine .readS (.readS (.readS (.or_none (.sameLength (.sameLength (.skip rfl (.guardSpans ?_)))))))
    simp [State.spanUse, dsize, ssize]
  | blenda sdst sbg ssrc samt fdst fsrc =>
    refine ⟨_, rfl, .bind (format0_follows fdst) fun dfmt dsize => .bind (format1_follows fsrc) fun sfmt ssize => ?_⟩
    refine .readS (.readS (.readS (.readS (.or_none ?_))))
    refine .sameLength (.sameLength (.sameLength (.skip rfl (.guardSpans ?_))))
    simp [State.spanUse, dsize, ssize]

end Sys2Proof.Machine
end

section
/-! PROOF. The family 60_exceptions: the faults of fields, registers, lengths, spans and bytes, each the first that the
checks of a command raise (60_exceptions R265, R267, R269, R272 to R274). -/

namespace Sys2Proof.Machine

/-- What a command raises, it takes (60_exceptions R262). -/
theorem faults_of_raise {i : Instr} {s : State} {code : FaultCode} {info : Word}
    (run : exec i s = complete s (raise code info)) : Faults i s code info :=
  ⟨s.takeFault ⟨code, info⟩, run, faultTaken_takeFault s ⟨code, info⟩⟩

/-- A command takes the fault of the first of its checks that fails (60_exceptions R262, R274). -/
theorem faults_of_firstFault {i : Instr} {s : State} {e : FaultRequest} (h : FirstFault e (Instr.checks s i)) :
    Faults i s e.code e.info := by
  obtain ⟨r, run, first⟩ := exec_checksFirst i s
  exact faults_of_raise (run.trans (congrArg _ (first e h)))

/-! ## Checks that pass -/

/-- The format fields of a command with legal operands are legal (30_encoding R63). -/
theorem formats_legal {i : Instr} (legal : i.wellFormed = true) : ∀ g ∈ Instr.formats i, legalFormat g.1 = true := by
  cases i with
  | endList | span | ldv | stv | parsehex | setbl | blendpx | mkinfo | pxinfo | rdci => exact nofun
  | cvtpx _ _ d r | convert _ _ d r | blend _ _ _ d r _ | blenda _ _ _ _ d r =>
    obtain ⟨first, second⟩ := Bool.and_eq_true_iff.1 legal
    exact List.forall_mem_cons.2 ⟨first, List.forall_mem_singleton.2 second⟩
  | _ => exact List.forall_mem_singleton.2 legal

theorem formatCheck_of_legal {g : BitVec 8 × Bool} (legal : legalFormat g.1 = true) : formatCheck g = .ok () :=
  if_neg fun illegal => by
    rw [(ofId?_none_iff g.1).1 ((ofId?_eq_none_iff_le g.1).2 illegal)] at legal
    exact Bool.false_ne_true legal

theorem sourceCheck_of_written {s : State} {r : Source} (written : s.isUnwritten r = false) :
    s.sourceCheck r = .ok () :=
  if_neg (Bool.eq_false_iff.1 written)

theorem formatChecks_pass {i : Instr} (legal : i.wellFormed = true) :
    ∀ c ∈ (Instr.formats i).map formatCheck, c = .ok () :=
  List.forall_mem_map.2 fun g mem => formatCheck_of_legal (formats_legal legal g mem)

/-- Where steps 3 and 4 pass, the first fault is one of the steps after them. -/
theorem FirstFault.after_sources {s : State} {i : Instr} {e : FaultRequest} (ready : SourcesReady s i)
    (h : FirstFault e (Instr.spanChecks s i ++ (Instr.countChecks s i ++ (Instr.accesses s i).map s.accessCheck))) :
    FirstFault e (Instr.checks s i) :=
  .append_right (formatChecks_pass ready.1)
    (.append_right (List.forall_mem_map.2 fun r mem => sourceCheck_of_written (ready.2 r mem)) h)

/-! ## Lengths and overlaps (60_exceptions R269, R272) -/

theorem spanChecks_of_ne_nil {i : Instr} (bulk : Instr.spanFields i ≠ []) (s : State) : Instr.spanChecks s i =
    [lengthCheck (Instr.badLength s i), checkDisjoint (Instr.mayBeInPlace i) ((Instr.spanFields i).map s.spanUse)] := by
  unfold Instr.spanChecks
  split
  · next empty => exact absurd empty bulk
  · next fields => rw [fields]

/-- The commands with length conditions are those that name spans (60_exceptions R269). -/
theorem badLength_of_spanFields_nil {i : Instr} (empty : Instr.spanFields i = []) (s : State) :
    Instr.badLength s i = none := by
  cases i with
  | tovec4 | fromvec4 | convert | packplanes | unpackplanes | blend | blenda => exact absurd empty (List.cons_ne_nil _ _)
  | _ => rfl

/-- The overlaps of a command are those the aliasing rule finds among its spans (60_exceptions R272). -/
theorem overlapAt_iff (s : State) (i : Instr) (a b : Nat) : OverlapAt s i a b ↔
    ∃ u v, Compared (Instr.mayBeInPlace i) ((Instr.spanFields i).map s.spanUse) a b u v ∧
      ¬ RangesDisjoint u.span.base.toNat u.bytes v.span.base.toNat v.bytes := by
  constructor
  · rintro ⟨u, v, at_a, at_b, written, ne, meet, exempt⟩
    exact ⟨s.spanUse u, s.spanUse v, ⟨by rw [List.getElem?_map, at_a]; rfl, by rw [List.getElem?_map, at_b]; rfl, written,
      ne, exempt⟩, meet⟩
  · rintro ⟨_, _, ⟨at_a, at_b, written, ne, exempt⟩, meet⟩
    rw [List.getElem?_map, Option.map_eq_some_iff] at at_a at_b
    obtain ⟨u, at_a, rfl⟩ := at_a
    obtain ⟨v, at_b, rfl⟩ := at_b
    exact ⟨u, v, at_a, at_b, written, ne, meet, exempt⟩

theorem spanFields_ne_nil_of_overlapAt {s : State} {i : Instr} {a b : Nat} (h : OverlapAt s i a b) :
    Instr.spanFields i ≠ [] := by
  obtain ⟨u, -, at_a, -⟩ := h
  exact List.ne_nil_of_mem (List.mem_of_getElem? at_a)

/-- Steps 5 and 6 pass where the lengths fit and no spans overlap. -/
theorem spanChecks_pass {s : State} {i : Instr} (lengths : Instr.badLength s i = none)
    (apart : ∀ a b, ¬ OverlapAt s i a b) : ∀ c ∈ Instr.spanChecks s i, c = .ok () := by
  by_cases bulk : Instr.spanFields i = []
  · rw [Instr.spanChecks, bulk]
    exact nofun
  · have disjoint : checkDisjoint (Instr.mayBeInPlace i) ((Instr.spanFields i).map s.spanUse) = .ok () :=
      (checkDisjoint_ok_iff _ _).2 fun a b u v compared => by
        by_contra meet
        exact apart a b ((overlapAt_iff s i a b).2 ⟨u, v, compared, meet⟩)
    rw [spanChecks_of_ne_nil bulk, lengths, disjoint]
    exact List.forall_mem_cons.2 ⟨rfl, List.forall_mem_singleton.2 rfl⟩

/-- `MKINFO` has at most sixteen entries where steps 3 to 5 pass (60_exceptions R275). -/
theorem countChecks_pass {s : State} {i : Instr} (count : ∀ p bpp, i = .mkinfo p bpp → (s.spanVal p).len.toNat ≤ 16) :
    ∀ c ∈ Instr.countChecks s i, c = .ok () := by
  unfold Instr.countChecks
  split
  · next p bpp => exact List.forall_mem_singleton.2 (checkEntryCount_ok (count p bpp rfl))
  · exact nofun

/-! ## The obligations -/

/-- Settles O46: the format fields are checked before everything else, in their order. -/
theorem illegalFormatsFault : Obligations.IllegalFormatsFault := by
  intro i s g found
  have illegal : 26 ≤ g.1.toNat := by simpa using List.find?_some found
  refine faults_of_firstFault (e := ⟨.invalidFormat, formatInfo g⟩) (.append_left ?_)
  exact .map_of_find? (fun h legal => if_neg (by simpa using legal)) found (if_pos illegal)

/-- Settles O47: legal fields pass, and the registers are checked next, in their order. -/
theorem unwrittenSourcesFault : Obligations.UnwrittenSourcesFault := by
  intro i s r legal found
  refine faults_of_firstFault (e := ⟨.unwrittenRegister, sourceInfo r⟩) ?_
  refine .append_right (formatChecks_pass legal) (.append_left ?_)
  exact .map_of_find? (fun _ => sourceCheck_of_written) found (if_pos (List.find?_some found))

/-- Settles O48: a command with an offending length names spans, and checks their lengths once it has read them. -/
theorem mismatchedLengthsFault : Obligations.MismatchedLengthsFault := by
  intro i s len ready offending
  have bulk : Instr.spanFields i ≠ [] := fun empty => by simp [badLength_of_spanFields_nil empty] at offending
  refine faults_of_firstFault (e := ⟨.lengthMismatch, len⟩) (.after_sources ready (.append_left ?_))
  rw [spanChecks_of_ne_nil bulk, offending]
  exact .here _

/-- Settles O49: the lengths pass, and the aliasing rule reports the first of the overlapping pairs. -/
theorem overlappingSpansFault : Obligations.OverlappingSpansFault := by
  rintro i s a b ⟨ready, lengths, -⟩ overlap first
  obtain ⟨u, v, compared, meet⟩ := (overlapAt_iff s i a b).1 overlap
  have reported := checkDisjoint_first _ _ a b u v compared meet fun c d x y compared meet =>
    first c d ((overlapAt_iff s i c d).2 ⟨x, y, compared, meet⟩)
  refine faults_of_firstFault (e := ⟨.spanOverlap, BitVec.ofNat 32 (a + 16 * b)⟩) (.after_sources ready (.append_left ?_))
  rw [spanChecks_of_ne_nil (spanFields_ne_nil_of_overlapAt overlap), lengths, reported]
  exact .later (.here _)

/-- Settles O50: every check before passes, and the accesses are checked last, in their order. -/
theorem missingBytesFault : Obligations.MissingBytesFault := by
  rintro i s k r info ⟨ready, lengths, count⟩ apart at_k bad earlier
  refine faults_of_firstFault (e := ⟨.accessFault, info⟩) (.after_sources ready ?_)
  refine .append_right (spanChecks_pass lengths apart) (.append_right (countChecks_pass count) ?_)
  exact .map_of_getElem? at_k (fun j q lt at_j => (checkExtent_ok_iff s q.1 q.2).2 (earlier j q lt at_j))
    (checkExtent_bad bad)

end Sys2Proof.Machine
end

section
/-! PROOF. The family 60_exceptions: texts that are no pixel and entries that are no descriptor (60_exceptions R270,
R275). -/

namespace Sys2Proof.Machine

/-! ## Texts (60_exceptions R270) -/

/-- A character that is read as a digit is one. -/
theorem isHexDigit_of_hexDigit? {c : Byte} {d : Nat} (h : hexDigit? c = some d) : IsHexDigit c d := by
  unfold hexDigit? at h
  unfold IsHexDigit
  split_ifs at h <;> cases h <;> omega

theorem hexDigit?_eq_none {c : Byte} (h : ∀ d, ¬ IsHexDigit c d) : hexDigit? c = none :=
  Option.eq_none_iff_forall_ne_some.2 fun d digit => h d (isHexDigit_of_hexDigit? digit)

/-- The first character that is no digit is reported with its index. -/
theorem hexDigits_of_bad {cs : List Byte} {k : Nat} {c : Byte} (at_k : cs[k]? = some c) (bad : hexDigit? c = none)
    (earlier : ∀ (j : Nat) (x : Byte), j < k → cs[j]? = some x → ∃ d, hexDigit? x = some d) (i : Nat) :
    hexDigits i cs = raise .malformedHex (BitVec.ofNat 32 (i + k)) := by
  induction cs generalizing i k with
  | nil => simp at at_k
  | cons x cs ih =>
    cases k with
    | zero =>
      obtain rfl : x = c := by simpa using at_k
      simp only [hexDigits, bad, Nat.add_zero]
    | succ k =>
      obtain ⟨d, digit⟩ := earlier 0 x k.succ_pos rfl
      have rest := ih at_k (fun j y lt at_j => earlier (j + 1) y (Nat.succ_lt_succ lt) at_j) (i + 1)
      simp only [hexDigits, digit, rest, Nat.add_assoc, Nat.add_comm 1 k]
      rfl

theorem memReadBytes_getElem?_of_lt (m : List Host.Cell) (a : Nat) {n k : Nat} (h : k < n) :
    (memReadBytes m a n)[k]? = some (memRead m (a + k)) := by
  rw [List.getElem?_eq_getElem (by simpa using h), memReadBytes_getElem m a n k h]

section
variable {s : State} {text : Span} {skip n : Nat} (hexText : HexText s text skip n)
include hexText

theorem parseHex_of_bad_length (length : ¬ HexLength n) : parseHex s.view text = raise .malformedHex text.len := by
  have rest : text.len.toNat - skip = n := by rw [hexText.1, Nat.add_sub_cancel_left]
  simp only [parseHex, skip_eq hexText, rest]
  exact if_neg length

theorem parseHex_of_bad_character (length : HexLength n) {k : Nat} (inside : k < n)
    (bad : ∀ d, ¬ IsHexDigit (s.readByte (text.base.toNat + skip + k)) d)
    (earlier : ∀ j, j < k → ∃ d, IsHexDigit (s.readByte (text.base.toNat + skip + j)) d) :
    parseHex s.view text = raise .malformedHex (BitVec.ofNat 32 (skip + k)) := by
  have rest : text.len.toNat - skip = n := by rw [hexText.1, Nat.add_sub_cancel_left]
  have characters : hexDigits skip (memReadBytes s.mem (text.base.toNat + skip) n) =
      raise .malformedHex (BitVec.ofNat 32 (skip + k)) := by
    refine hexDigits_of_bad (memReadBytes_getElem?_of_lt _ _ inside) (hexDigit?_eq_none bad) (fun j x lt at_j => ?_) skip
    rw [memReadBytes_getElem?_of_lt _ _ (lt.trans inside), Option.some.injEq] at at_j
    obtain ⟨d, digit⟩ := earlier j lt
    exact ⟨d, hexDigit?_of_isHexDigit (at_j ▸ digit)⟩
  simp only [parseHex, skip_eq hexText, rest, characters]
  exact if_pos length

end

/-- What a text that exists raises, the command takes. -/
theorem faults_parsehex {s : State} {st : RegIdx} {text : Span} {code : FaultCode} {info : Word}
    (source : s.sreg st = .holds text) (range : ValidRange s text.base.toNat text.len.toNat)
    (parsed : parseHex s.view text = raise code info) (pd : RegIdx) : Faults (.parsehex pd st) s code info := by
  apply faults_of_raise
  simp only [exec, execParsehex, execParsehexSeeing, readS_holds source, (checkExtent_ok_iff s _ _).2 range, parsed,
    ok_bind]
  rfl

/-- Settles O51: the length is judged before the characters, and these from the first on. -/
theorem malformedTextsFault : Obligations.MalformedTextsFault :=
  fun _ pd _ _ _ _ source range hexText =>
    ⟨fun length => faults_parsehex source range (parseHex_of_bad_length hexText length) pd,
      fun _ length inside bad earlier =>
        faults_parsehex source range (parseHex_of_bad_character hexText length inside bad earlier) pd⟩

/-! ## Descriptors (60_exceptions R275) -/

section
variable {e : List Nat} {bpp : Word}

/-- The first entry above 255 is reported with its place. -/
theorem buildInfo_of_large {i : Nat} (inside : i < e.length) (large : 255 < e[i])
    (earlier : ∀ j (lt : j < i), e[j] ≤ 255) : buildInfo e bpp = raise .infoInvalid (BitVec.ofNat 32 (0x100 + i)) := by
  have found : e.findIdx? (fun p => 255 < p) = some i :=
    List.findIdx?_eq_some_iff_getElem.2 ⟨inside, by simpa using large, fun j lt => by simpa using earlier j lt⟩
  rw [buildInfo, found]

theorem buildInfo_of_bad_size (small : ∀ p ∈ e, p ≤ 255) (bad : 65535 < bpp.toNat ∨ bpp.toNat < e.sum) :
    buildInfo e bpp = raise .infoInvalid 0x200 := by
  have none_large : e.findIdx? (fun p => 255 < p) = none := by simpa [List.findIdx?_eq_none_iff] using small
  rw [buildInfo, none_large]
  exact if_pos bad

end

section
variable {s : State} {sprec : RegIdx} {sp : Span} (reg : s.sreg sprec = .holds sp) (bpp : Word)
include reg

theorem faults_mkinfo_of_count (many : 16 < sp.len.toNat) : Faults (.mkinfo sprec bpp) s .infoInvalid sp.len := by
  apply faults_of_raise
  simp only [exec, execMkinfo, execMkinfoSeeing, readS_holds reg, checkEntryCount, if_pos many, ok_bind]
  rfl

/-- What at most sixteen entries that exist raise, the command takes. -/
theorem faults_mkinfo_of_entries (count : sp.len.toNat ≤ 16) (range : ValidRange s sp.base.toNat (sp.len.toNat * 4))
    {code : FaultCode} {info : Word} (built : buildInfo (precEntries s.view sp) bpp = raise code info) :
    Faults (.mkinfo sprec bpp) s code info := by
  apply faults_of_raise
  simp only [exec, execMkinfo, execMkinfoSeeing, readS_holds reg, checkEntryCount_ok count,
    (checkExtent_ok_iff s _ _).2 range, built, ok_bind]
  rfl

end

/-- Settles O52: the count is judged first, then the entries in their order, then the size of the pixel. -/
theorem invalidDescriptorsFault : Obligations.InvalidDescriptorsFault := by
  intro s sprec bpp sp reg
  refine ⟨faults_mkinfo_of_count reg bpp, fun count range => ⟨fun i inside large earlier => ?_, fun small bad => ?_⟩⟩
  · refine faults_mkinfo_of_entries reg bpp count range ?_
    rw [precEntries_view]
    exact buildInfo_of_large (by simpa using inside) (by simpa using large) (by simpa using earlier)
  · refine faults_mkinfo_of_entries reg bpp count range ?_
    rw [precEntries_view]
    exact buildInfo_of_bad_size (by simpa using small) bad

end Sys2Proof.Machine
end

section
/-! PROOF. The family 60_exceptions: the faults of a fetch, and the ways a command can end (60_exceptions R261, R262, R264,
R266, R282). -/

namespace Sys2Proof.Machine

/-! ## Fetching (60_exceptions R264, R266) -/

/-- In RUN, what the fetch raises is taken (60_exceptions R262). -/
theorem step_of_fetch_error {s : State} {e : FaultRequest} (run : s.status = .run) (h : s.fetch = .error e) :
    step s = .next (s.takeFault e) := by
  simp only [step, run, h]

theorem fetch_of_checkFetch_error {s : State} {e : FaultRequest} (h : s.checkFetch = .error e) : s.fetch = .error e := by
  simp only [State.fetch, h]

/-- What the fetch check raises, the step takes. -/
theorem step_faults_of_checkFetch {s : State} {code : FaultCode} {info : Word} (run : s.status = .run)
    (h : s.checkFetch = raise code info) : ∃ t, step s = .next t ∧ FaultTaken code info s t :=
  ⟨_, step_of_fetch_error run (fetch_of_checkFetch_error h), faultTaken_takeFault s ⟨code, info⟩⟩

/-- The address that does not exist after ones that do is the lowest that does not. -/
theorem firstInvalid_eq {rs : List Region} {a x : Nat} (le : a ≤ x) (missing : validAddr rs x = false)
    (below : ∀ y, a ≤ y → y < x → validAddr rs y = true) : firstInvalid rs a = x := by
  obtain ⟨first_le, first_missing, first_below⟩ := firstInvalid_spec rs a
  refine le_antisymm ?_ ?_
  · by_contra lt
    exact Bool.false_ne_true (missing.symm.trans (first_below x le (by omega)))
  · by_contra lt
    exact Bool.false_ne_true (first_missing.symm.trans (below _ first_le (by omega)))

/-- Settles O7: the extent is judged before the bytes, and the lowest missing byte is reported. -/
theorem unfetchableCommandsFault : Obligations.UnfetchableCommandsFault := by
  refine fun s run => ⟨fun outside => ?_, fun a inside fits le lt missing below => ?_⟩
  · exact step_faults_of_checkFetch run (if_pos (outside.imp id fun h => by omega))
  · have first := firstInvalid_eq le missing below
    refine step_faults_of_checkFetch run ?_
    have within : ¬ (s.cpPastTop = true ∨ 2 ^ 32 < s.cp.toNat + 16) := by
      simp only [inside, Bool.false_eq_true, false_or]
      omega
    rw [State.checkFetch, if_neg within, first, if_pos lt, BitVec.ofNat_toNat, BitVec.setWidth_eq]

/-- A word is refused with its W0, whatever is wrong with it (60_exceptions R266). -/
theorem decode_error_w0 {c : Command} {e : DecodeError} (h : decode c = .error e) : e.w0 = commandW0 c := by
  simp only [decode] at h
  split at h
  · cases h
    rfl
  · split at h
    · nomatch h
    · cases h
      rfl

/-- The low bytes of a little-endian value are the value at the low addresses (20_memory R42). -/
theorem readLE_mod (s : State) (a n m : Nat) : s.readLE a (n + m) % 256 ^ n = s.readLE a n := by
  induction n generalizing a with
  | zero => simp [Nat.mod_one, State.readLE, memReadBytes, leValue]
  | succ n ih =>
    have first_byte (k : Nat) : s.readLE a (k + 1) = (s.readByte a).toNat + 256 * s.readLE (a + 1) k := rfl
    have byte := (s.readByte a).isLt
    rw [Nat.add_right_comm, first_byte, first_byte, ← ih (a + 1), Nat.pow_succ', Nat.mod_mul, Nat.add_mul_mod_self_left,
      Nat.mod_eq_of_lt byte, Nat.add_mul_div_left _ _ (by decide), Nat.div_eq_of_lt byte, Nat.zero_add]

/-- W0 of the fetched word is the word at `cp` (30_encoding R60). -/
theorem commandW0_fetchWord (s : State) : commandW0 s.fetchWord = BitVec.ofNat 32 (s.readLE s.cp.toNat 4) := by
  have low : s.readLE s.cp.toNat 16 % 256 ^ 4 = s.readLE s.cp.toNat 4 := readLE_mod s s.cp.toNat 4 12
  apply BitVec.eq_of_toNat_eq
  simp only [commandW0, State.fetchWord, BitVec.extractLsb'_toNat, BitVec.toNat_ofNat, Nat.shiftRight_zero]
  omega

/-- Settles O6: what decodes is an encoding, so the fetched word is refused, with its W0. -/
theorem wordsThatAreNoCommandAreIllegal : Obligations.WordsThatAreNoCommandAreIllegal := by
  intro s run inside range noCommand
  have check := (checkFetch_ok_iff s).2 ⟨inside, range⟩
  cases refused : decode s.fetchWord with
  | ok i => exact absurd (encode_of_decode refused) (noCommand i)
  | error e =>
    have fetched : s.fetch = .error (decodeFault e) := by simp only [State.fetch, check, refused]
    rw [← commandW0_fetchWord, ← decode_error_w0 refused]
    exact ⟨_, step_of_fetch_error run fetched, faultTaken_takeFault s (decodeFault e)⟩

/-! ## The ways a command ends (60_exceptions R261) -/

/-- Stores and touches do not move to the next command. -/
theorem Stored.sameCommand {s t : State} {i : Instr} (h : Stored s i t) :
    t.cp = s.cp ∧ t.cpPastTop = s.cpPastTop ∧ t.draws = s.draws := by
  induction h with
  | start => exact ⟨rfl, rfl, rfl⟩
  | bytes _ _ _ _ ih => exact ih
  | touch _ _ _ ih => exact ih

theorem eq_endList_of_writes {i : Instr} (h : Instr.writes i = { status := true }) : i = .endList := by
  cases i with
  | endList => rfl
  | _ => simp [Instr.writes] at h

/-- A command other than `END` that has its effect retires and leaves `STATUS` alone (10_state R15). -/
theorem Effect.retired {s t : State} {i : Instr} (h : Effect s i t) (notEnd : i ≠ .endList) :
    Retired s t ∧ t.status = s.status := by
  cases h with
  | halt h => exact absurd (eq_endList_of_writes h) notEnd
  | setP | setV | setS | setBlender | setCi => exact ⟨retired_retire rfl rfl rfl, retire_status _⟩
  | store stored =>
    obtain ⟨cp, top, draws⟩ := stored.sameCommand
    exact ⟨retired_retire cp top draws, (retire_status _).trans stored.status_eq⟩

theorem exec_next (i : Instr) (s : State) : ∃ t, exec i s = .next t := by
  rcases exec_performs i s with ⟨t, run, -⟩ | ⟨e, -, run⟩ <;> exact ⟨_, run⟩

/-- A step always has a next state: no command is refused and no fault stops the machine (60_exceptions R262). -/
theorem step_next (s : State) : ∃ t, step s = .next t := by
  cases status : s.status with
  | run =>
    cases fetched : s.fetch with
    | ok i => exact step_of_fetch status fetched ▸ exec_next i s
    | error e => exact ⟨_, step_of_fetch_error status fetched⟩
  | idle | halted | fault => exact ⟨s, by simp only [step, status]⟩

/-- Settles O10: a command that takes no fault has its effect, which is to halt for `END` and to retire for the others. -/
theorem everyCommandRetiresHaltsOrFaults : Obligations.EveryCommandRetiresHaltsOrFaults := by
  refine ⟨fun i s => ?_, step_next⟩
  by_cases isEnd : i = .endList
  · subst isEnd
    exact ⟨_, rfl, .inr (.inl ⟨rfl, rfl, rfl⟩)⟩
  · rcases exec_performs i s with ⟨t, run, effect⟩ | ⟨e, listed, run⟩
    · exact ⟨t, run, .inl ⟨isEnd, effect.retired isEnd⟩⟩
    · exact ⟨_, run, .inr (.inr ⟨e.code, e.info, listed, faultTaken_takeFault s e⟩)⟩

end Sys2Proof.Machine
end

section
/-! PROOF. The family 70_reset_and_hazards: an engine out of RUN, the two resets, and a command that a reset abandons
(70_reset R290, R304; log 11). -/

namespace Sys2Proof.Machine

/-! ## Out of RUN (70_reset R304) -/

/-- Settles O2, by the state the engine is in: outside RUN nothing is fetched. -/
theorem stoppedEngineKeepsItsState : Obligations.StoppedEngineKeepsItsState := by
  intro s stopped
  cases status : s.status with
  | run => exact absurd status stopped
  | idle | halted | fault => simp only [step, status]

/-! ## What a command abandoned by a reset leaves (43_bulk R180, R181; log 11) -/

theorem abandoned_readByte {s t : State} (h : step s = .next t) (a : Nat) :
    s.abandoned.readByte a = s.readByte a ∨ s.abandoned.readByte a = t.readByte a := by
  rcases abandoned_cases s t h with ⟨begun, -⟩ | ⟨kept, -⟩
  · rw [State.readByte, begun]
    exact memRead_mixedMemory s t a
  · exact .inl (readByte_congr kept a)

/-- An abandoned command clears no bit: the whole command would have cleared none (10_state R20). -/
theorem abandoned_opsReady_mono {s t : State} (h : step s = .next t) {k : Nat}
    (bit : s.opsReady.getLsbD k = true) : s.abandoned.opsReady.getLsbD k = true := by
  rcases abandoned_cases s t h with ⟨-, begun⟩ | ⟨-, touched⟩
  · rw [begun]
    exact opsReadyOnlyGrows.1 s t k h bit
  · rw [touched, BitVec.getLsbD_or, bit, Bool.true_or]

/-- An abandoned command sets no bit that the whole command would not have left set. -/
theorem abandoned_opsReady_le {s t : State} (h : step s = .next t) {k : Nat}
    (bit : s.abandoned.opsReady.getLsbD k = true) : t.opsReady.getLsbD k = true := by
  rcases abandoned_cases s t h with ⟨-, begun⟩ | ⟨-, touched⟩
  · rwa [← begun]
  · rw [touched, BitVec.getLsbD_or, BitVec.getLsbD_and, Bool.or_eq_true, Bool.and_eq_true] at bit
    exact bit.elim (opsReadyOnlyGrows.1 s t k h) And.left

/-- Settles O14: a reset keeps the memory of what the command left, and `CTRL.RESET` its `OPS_READY`. -/
theorem abandonedCommandsLeaveOldOrNewBytes : Obligations.AbandonedCommandsLeaveOldOrNewBytes := by
  intro s t h
  refine ⟨fun r hr a => ?_, fun _ => abandoned_opsReady_mono h, fun _ => abandoned_opsReady_le h, ?_, rfl⟩
  · have sameMemory : r.mem = s.abandoned.mem := by
      rcases List.mem_pair.1 hr with rfl | rfl <;> rfl
    rw [readByte_congr sameMemory]
    exact abandoned_readByte h a
  · rcases abandoned_cases s t h with ⟨-, begun⟩ | ⟨kept, -⟩
    · exact .inr begun
    · exact .inl (readByte_congr kept)

/-! ## What a reset leaves (10_state R29; 70_reset R290) -/

/-- Each of the four resets leaves the state of `State.reset` but for memory, `MEM_VALID`, `OPS_READY` and the count. -/
theorem eq_reset_of_mem_resets {s t : State}
    (ht : t ∈ [s.ctrlReset, s.platformReset, s.abandonCommand, s.abandonPlatform]) :
    ∃ m o d, t = { State.reset with mem := m, memValid := s.memValid, opsReady := o, draws := d } := by
  simp only [List.mem_cons, List.not_mem_nil, or_false] at ht
  rcases ht with rfl | rfl | rfl | rfl
  · exact ⟨_, _, _, rfl⟩
  · exact ⟨_, _, _, rfl⟩
  · exact abandoned_memValid s ▸ ⟨_, _, _, rfl⟩
  · exact abandoned_memValid s ▸ ⟨_, _, _, rfl⟩

theorem preg_reset (i : RegIdx) : State.reset.preg i = .unwritten := Vector.getElem_replicate _
theorem vreg_reset (i : RegIdx) : State.reset.vreg i = .unwritten := Vector.getElem_replicate _
theorem sreg_reset (i : RegIdx) : State.reset.sreg i = .unwritten := Vector.getElem_replicate _

/-- Normal is code 0 and SrcOver code 1, in bits 7:4 (10_state R19). -/
theorem blender_word_reset : Blender.reset.word = 0x00000010 := by decide

/-- Settles O13: every reset leaves the reset state's registers, and `RESET` comes before `START` in a write to `CTRL`. -/
theorem resetsLeaveTheResetState : Obligations.ResetsLeaveTheResetState := by
  refine fun s => ⟨fun t ht => ?_, fun _ => ⟨rfl, rfl⟩, rfl, rfl, rfl, fun _ reset => if_pos reset⟩
  obtain ⟨m, o, d, rfl⟩ := eq_reset_of_mem_resets ht
  exact ⟨fun i => ⟨preg_reset i, vreg_reset i, sreg_reset i⟩, rfl, rfl, rfl, rfl, rfl, rfl, blender_word_reset,
    rfl, rfl, rfl, fun k => Vector.getElem_replicate k.isLt, rfl⟩

end Sys2Proof.Machine
end
